-- ==== Sys2Proof/Word.lean ====
section
/-!
DEFINITION. The word types of the block (00_scope.md R8, R16): bytes, 16-bit registers and ring
pointers, 16-bit chip addresses, frames. Every value is unsigned.
-/

namespace Sys2Proof

/-- A byte of the chip address space, of a register or of a frame. -/
abbrev Byte := BitVec 8

/-- A 16-bit register or logical ring pointer (00 R8). -/
abbrev Word := BitVec 16

/-- A 16-bit chip address (00 R8, 20 R62). -/
abbrev Addr := BitVec 16

/-- A frame: its bytes in transmission order (10 R55). -/
abbrev Frame := List Byte

/-- `HDR_LEN`, the bytes of the length prefix of a received frame (00 R9). -/
def hdrLen : Nat := 2

/-- `RTR_DEFAULT`, what the host writes to RTR at bring-up (00 R11). -/
def rtrDefault : Word := 2000

end Sys2Proof
end

