-- ==== Sys2Proof/Config.lean ====
section
/-!
DEFINITION. What an implementation fixes (00_scope.md R6 to R15) and the free values.
The spec gives no register address, code or bit position: each is a field of `Binding`, and
`Binding.ref` is the reference binding REF. A free value is an opaque constant applied to a
counter of State: nothing proves what it is (log entry 6).
-/

namespace Sys2Proof

/-- The parameters of 00 R6 to R15. `none` for an address or a bit means that the binding leaves
it unbound (00 R12, R13; 90 C7). The durations of R15 are not here: no rule depends on one
(70 R217, log entry 20). -/
structure Binding where
  /-- k of SIZE = 2^k (00 R6). -/
  sizeLog : Nat
  txBase : Addr
  rxBase : Addr
  aMr : Addr
  aGar : Addr
  aShar : Addr
  aIr : Addr
  aImr : Addr
  aRtr : Addr
  aS0Mr : Addr
  aS0Cr : Addr
  aS0Ir : Addr
  aS0Sr : Addr
  aS0Imr : Option Addr
  aTxFsr : Addr
  aTxRd : Addr
  aTxWr : Addr
  aRxRsr : Addr
  aRxRd : Addr
  aRxWr : Option Addr
  /-- MR_RST (00 R13). -/
  mrRst : Fin 8
  /-- MR_FD, unbound on a W5100 (10 R25). -/
  mrFd : Option (Fin 8)
  /-- The top and bottom bits of the field S0_MR_PROTO. -/
  protoHi : Fin 8
  protoLo : Fin 8
  protoMacraw : Byte
  s0MrMf : Fin 8
  irSendok : Fin 8
  irRecv : Fin 8
  irS0 : Fin 8
  srClosed : Byte
  srInit : Byte
  srMacraw : Byte
  cmdOpen : Byte
  cmdClose : Byte
  cmdSend : Byte
  cmdRecv : Byte
  hdrIncludesSelf : Bool
  maxFrame : Nat
  wideAtomic : Bool
  otherIrQuiet : Bool
  intActiveLow : Bool
  resetActiveLow : Bool
  deriving DecidableEq, Repr

/-- SIZE, the byte size of each ring (00 R6). -/
def Binding.size (b : Binding) : Nat := 2 ^ b.sizeLog

/-- The reference binding REF of 00 R6 to R15, with the placeholders A_S0_IMR = 0x042C and
A_RX_WR = 0x042A of 92 D3. PRESUMED: its numbers are general knowledge of the W5100 (93 G2 to G7),
not the source's (log entry 3, unsafe for a chip with another binding). -/
def Binding.ref : Binding where
  sizeLog := 13
  txBase := 0x4000
  rxBase := 0x6000
  aMr := 0x0000
  aGar := 0x0001
  aShar := 0x0009
  aIr := 0x0015
  aImr := 0x0016
  aRtr := 0x0017
  aS0Mr := 0x0400
  aS0Cr := 0x0401
  aS0Ir := 0x0402
  aS0Sr := 0x0403
  aS0Imr := some 0x042C
  aTxFsr := 0x0420
  aTxRd := 0x0422
  aTxWr := 0x0424
  aRxRsr := 0x0426
  aRxRd := 0x0428
  aRxWr := some 0x042A
  mrRst := 7
  mrFd := none
  protoHi := 3
  protoLo := 0
  protoMacraw := 0x4
  s0MrMf := 6
  irSendok := 4
  irRecv := 2
  irS0 := 0
  srClosed := 0x00
  srInit := 0x13
  srMacraw := 0x42
  cmdOpen := 0x01
  cmdClose := 0x10
  cmdSend := 0x20
  cmdRecv := 0x40
  hdrIncludesSelf := true
  maxFrame := 1514
  wideAtomic := false
  otherIrQuiet := false
  intActiveLow := true
  resetActiveLow := true

/-- A byte the spec leaves open ("a draw"), by index (log entry 6). -/
opaque Config.freeByte : Nat → Byte

/-- A 16-bit value the spec leaves open, by index (log entry 6). -/
opaque Config.freeWord : Nat → Word

/-- TX_FSR as read while the TX occupancy is above SIZE (40 R107: any value), by the number of the
read and the state of the block (log entry 37). -/
opaque Config.freeSize {α : Type} (n : Nat) (block : α) : Word

/-- Whether RX_RSR counts from rx_rd_acc while RX_RD differs (40 R108: a draw), by the number of the
read and the state of the block (log entry 37). -/
opaque Config.freeBase {α : Type} (n : Nat) (block : α) : Bool

/-- A choice of the chip the spec leaves open, by index (log entry 6). -/
opaque Config.freeBool : Nat → Bool

/-- The ring byte at an address that nothing has written since reset number `epoch`
(10 R46, R47, R60: any bytes; log entry 7). -/
opaque Config.freeRing : Nat → Nat → Byte

end Sys2Proof
end

