-- ==== Sys2Proof/Syntax.lean ====
section
/-!
DEFINITION. The operations of spec/opcode_table.json, one constructor of `Instr` per row, and the
raw words of 30_encoding.md R86, R93, R94.
-/

namespace Sys2Proof

/-- A ring, and the window that holds it: s = 0 is TX, s = 1 is RX (30 R93). -/
inductive Win where
  | tx
  | rx
  deriving DecidableEq, Repr

/-- A raw word at the port that takes words of its format. -/
inductive RawWord where
  /-- The bus port: direction, address, data (30 R86). -/
  | tw (w : BitVec 25)
  /-- The mapper's translation port: window, logical pointer (30 R93). -/
  | mw (w : BitVec 17)
  /-- The mapper's split port: window, logical pointer, length (30 R93). -/
  | ms (w : BitVec 33)
  /-- The reset input: its level (30 R94). -/
  | pin (l : BitVec 1)
  deriving DecidableEq, Repr

/-- The operations a host can put to the block. -/
inductive Instr where
  /-- RD8: read the byte at chip address `a` (41 R116). -/
  | rd8 (a : Addr)
  /-- OPEN (42 R143). -/
  | openSock
  /-- CLOSE (42 R146). -/
  | closeSock
  /-- SEND (42 R148). -/
  | send
  /-- RECV (42 R151). -/
  | recv
  /-- CMD_ILLEGAL: a write to S0_CR of a code that is none of the four (42 R142). -/
  | cmdIllegal (v : Byte)
  /-- SWRESET: a write to MR with bit MR_RST set; the other bits of `v` are discarded (41 R119). -/
  | swReset (v : Byte)
  /-- W1C: clear the S0_IR bits set in `v` (41 R129). -/
  | w1c (v : Byte)
  /-- WR8: write byte `v` at chip address `a` (41 R117). -/
  | wr8 (a : Addr) (v : Byte)
  /-- MAP_TX: translate a TX logical pointer (40 R101). -/
  | mapTx (p : Word)
  /-- MAP_RX: translate an RX logical pointer (40 R102). -/
  | mapRx (p : Word)
  /-- SPLIT_TX: split a TX transfer of `n` bytes from `p` (40 R104). -/
  | splitTx (p : Word) (n : BitVec 16)
  /-- SPLIT_RX: split an RX transfer of `n` bytes from `p` (40 R104). -/
  | splitRx (p : Word) (n : BitVec 16)
  /-- RST_ASSERT: drive the reset input to its asserted level (70 R195). -/
  | rstAssert
  /-- RST_RELEASE: drive the reset input to its released level (70 R196). -/
  | rstRelease
  deriving DecidableEq, Repr

end Sys2Proof
end

