-- ==== Sys2Proof/WellFormed.lean ====
section
/-!
DEFINITION. Which operations some word of a binding stands for (30_encoding.md R95, R96): the
operands that a more specific row of R95 takes away from CMD_ILLEGAL, SWRESET and WR8, and the
length bound of an MS word.
-/

namespace Sys2Proof

/-- `v` is none of the four command codes (30 R95 case 6). -/
def notACommand (b : Binding) (v : Byte) : Bool :=
  v != b.cmdOpen && v != b.cmdClose && v != b.cmdSend && v != b.cmdRecv

/-- A WR8 that no more specific row of 30 R95 takes. -/
def plainWrite (b : Binding) (a : Addr) (v : Byte) : Bool :=
  a != b.aS0Cr && a != b.aS0Ir && !(a == b.aMr && v.getLsbD b.mrRst)

/-- The operation is one that 30 R95 decodes from some word under the binding. -/
def Instr.wf (b : Binding) : Instr → Bool
  | .rd8 _ => true
  | .openSock => true
  | .closeSock => true
  | .send => true
  | .recv => true
  | .cmdIllegal v => notACommand b v
  | .swReset v => v.getLsbD b.mrRst
  | .w1c _ => true
  | .wr8 a v => plainWrite b a v
  | .mapTx _ => true
  | .mapRx _ => true
  | .splitTx _ n => n.toNat ≤ b.size
  | .splitRx _ n => n.toNat ≤ b.size
  | .rstAssert => true
  | .rstRelease => true

end Sys2Proof
end

