-- ==== Sys2Proof/Decode.lean ====
section
/-!
DEFINITION. The decoder of 30_encoding.md R86 to R97, total on any word and refusing by name, and
the encoder written from the same formats.
-/

namespace Sys2Proof

/-- Why a word is ill-formed (30 R96). -/
inductive Reject where
  /-- A read word whose data field is not 0. -/
  | readWithData
  /-- An MS word with n above SIZE. -/
  | splitTooLong
  deriving DecidableEq, Repr

/-- Field d of a TW word, bit 24: true is a write (30 R86, R87). -/
def twWrite (w : BitVec 25) : Bool := w.getLsbD 24

/-- Field a of a TW word, bits 23:8 (30 R86, R88). -/
def twAddr (w : BitVec 25) : Addr := w.extractLsb' 8 16

/-- Field v of a TW word, bits 7:0 (30 R86, R89). -/
def twData (w : BitVec 25) : Byte := w.extractLsb' 0 8

/-- The TW word of a direction, an address and a data byte (30 R86). -/
def twWord (d : Bool) (a : Addr) (v : Byte) : BitVec 25 := BitVec.ofBool d ++ a ++ v

/-- A write to S0_CR: cases 2 to 6 of 30 R95. -/
def decodeCommand (b : Binding) (v : Byte) : Instr :=
  if v = b.cmdOpen then .openSock
  else if v = b.cmdClose then .closeSock
  else if v = b.cmdSend then .send
  else if v = b.cmdRecv then .recv
  else .cmdIllegal v

/-- A TW word, by the first case of 30 R95 that matches. A read word with data is refused (R96). -/
def decodeTw (b : Binding) (w : BitVec 25) : Except Reject Instr :=
  if !twWrite w then
    if twData w = 0 then .ok (.rd8 (twAddr w)) else .error .readWithData
  else if twAddr w = b.aS0Cr then .ok (decodeCommand b (twData w))
  else if twAddr w = b.aMr ∧ (twData w).getLsbD b.mrRst = true then .ok (.swReset (twData w))
  else if twAddr w = b.aS0Ir then .ok (.w1c (twData w))
  else .ok (.wr8 (twAddr w) (twData w))

/-- An MW word: s in bit 16, p in bits 15:0 (30 R93). -/
def decodeMw (w : BitVec 17) : Instr :=
  if w.getLsbD 16 then .mapRx (w.extractLsb' 0 16) else .mapTx (w.extractLsb' 0 16)

/-- An MS word: s in bit 32, p in bits 31:16, n in bits 15:0, refused when n > SIZE (30 R93, R96). -/
def decodeMs (b : Binding) (w : BitVec 33) : Except Reject Instr :=
  if b.size < (w.extractLsb' 0 16).toNat then .error .splitTooLong
  else if w.getLsbD 32 then .ok (.splitRx (w.extractLsb' 16 16) (w.extractLsb' 0 16))
  else .ok (.splitTx (w.extractLsb' 16 16) (w.extractLsb' 0 16))

/-- The level on the reset input: low asserts reset when RESET_ACTIVE_LOW, high otherwise
(30 R94). -/
def decodePin (b : Binding) (l : BitVec 1) : Instr :=
  if (l.getLsbD 0) = b.resetActiveLow then .rstRelease else .rstAssert

/-- The operation a raw word stands for, or why it is refused. It depends on the binding and on
nothing in block state (30 R97). -/
def decode (b : Binding) : RawWord → Except Reject Instr
  | .tw w => decodeTw b w
  | .mw w => .ok (decodeMw w)
  | .ms w => decodeMs b w
  | .pin l => .ok (decodePin b l)

/-- The word of a well-formed operation (30 R86, R92 to R94). -/
def encode (b : Binding) : Instr → RawWord
  | .rd8 a => .tw (twWord false a 0)
  | .openSock => .tw (twWord true b.aS0Cr b.cmdOpen)
  | .closeSock => .tw (twWord true b.aS0Cr b.cmdClose)
  | .send => .tw (twWord true b.aS0Cr b.cmdSend)
  | .recv => .tw (twWord true b.aS0Cr b.cmdRecv)
  | .cmdIllegal v => .tw (twWord true b.aS0Cr v)
  | .swReset v => .tw (twWord true b.aMr v)
  | .w1c v => .tw (twWord true b.aS0Ir v)
  | .wr8 a v => .tw (twWord true a v)
  | .mapTx p => .mw (0#1 ++ p)
  | .mapRx p => .mw (1#1 ++ p)
  | .splitTx p n => .ms (0#1 ++ p ++ n)
  | .splitRx p n => .ms (1#1 ++ p ++ n)
  | .rstAssert => .pin (BitVec.ofBool (!b.resetActiveLow))
  | .rstRelease => .pin (BitVec.ofBool b.resetActiveLow)

/-- The raw word of the opcode table's bit numbering: a row's width in whole bytes names its
format (PIN 1 bit, MW 17, TW 25, MS 33), and bits above the format's width reach no port
(log entry 15). -/
def rawOfTable (nbits w : Nat) : RawWord :=
  if nbits ≤ 8 then .pin (BitVec.ofNat 1 w)
  else if nbits ≤ 24 then .mw (BitVec.ofNat 17 w)
  else if nbits ≤ 32 then .tw (BitVec.ofNat 25 w)
  else .ms (BitVec.ofNat 33 w)

/-- What the decoder reads, under the reference binding, from a word numbered as
spec/opcode_table.json numbers it. -/
def decodeTableWord (nbits w : Nat) : Option Instr :=
  match decode Binding.ref (rawOfTable nbits w) with
  | .ok i => some i
  | .error _ => none

end Sys2Proof
end

