-- ==== Sys2Proof/Machine/State.lean ====
section
/-!
DEFINITION. The state of the block (10_state.md), the world around it that decides which agent
moves next, and the machine right after reset. All plain data.
-/

namespace Sys2Proof.Machine

/-- Why the machine stops (10 R54, 60 R185). -/
inductive Fault where
  /-- A model fault is recorded, so no further step of any agent is taken (60 R185). Raised by
  every step and every meaning on such a state. Safe: the machine stops where a chip goes on. -/
  | quiescent
  deriving DecidableEq, Repr

/-- Why the machine declines to go on. -/
inductive Refusal where
  /-- The instruction has no meaning in the model. Raised by an arm of exec only. Safe. -/
  | notModelled (mnemonic : String)
  /-- `refused` is set: an earlier word was ill-formed or the binding breaks its constraints
  (60 R186). Raised by every step and every meaning on such a state. Safe (log entry 2). -/
  | declined
  deriving DecidableEq, Repr

/-- The four socket commands (10 R48). -/
inductive Cmd where
  | openSock
  | closeSock
  | send
  | recv
  deriving DecidableEq, Repr

/-- `phase` (10 R53). -/
inductive Phase where
  | hwReset
  | settling
  | swReset
  | ready
  deriving DecidableEq, Repr

/-- A recorded model fault with its information, in the order of the codes of 60 R183. -/
inductive FaultRecord where
  /-- 1 F_BUS: address, direction (true is a write). -/
  | bus (a : Addr) (write : Bool)
  /-- 2 F_NOT_READY. -/
  | notReady (a : Addr) (phase : Phase)
  /-- 3 F_UNMAPPED. -/
  | unmapped (a : Addr)
  /-- 4 F_ADDR_WRAP. -/
  | addrWrap (a : Addr) (n : Nat)
  /-- 5 F_RO_WRITE. -/
  | roWrite (a : Addr) (v : Byte)
  /-- 6 F_RX_WRITE. -/
  | rxWrite (a : Addr) (v : Byte)
  /-- 7 F_CMD_UNKNOWN. -/
  | cmdUnknown (v : Byte)
  /-- 8 F_CMD_OVERRUN. -/
  | cmdOverrun (v : Byte) (pending : Cmd)
  /-- 9 F_OPEN_STATE. -/
  | openState (s0sr : Byte)
  /-- 10 F_OPEN_MODE. -/
  | openMode (s0mr : Byte)
  /-- 11 F_CLOSE_BUSY. -/
  | closeBusy (sendStart sendEnd : Word)
  /-- 12 F_SEND_STATE. -/
  | sendState (s0sr : Byte)
  /-- 13 F_SEND_BUSY. -/
  | sendBusy (sendStart sendEnd : Word)
  /-- 14 F_SEND_LEN. -/
  | sendLen (txWr txRd : Word)
  /-- 15 F_RECV_STATE. -/
  | recvState (s0sr : Byte)
  /-- 16 F_RECV_OVER. -/
  | recvOver (rxRd rxWr rxRdAcc : Word)
  deriving DecidableEq, Repr

/-- The answer on the host port to the latest read or mapper word (30 R90, R93). The model's own
field: the block has no such register (log entry 13). -/
inductive Response where
  | none
  | byte (r : Byte)
  | addr (a : Addr)
  | pieces (ps : List (Addr × Nat))
  deriving DecidableEq, Repr

/-- An engine step (00 R5, R18). -/
inductive EngineStep where
  /-- Acceptance of the pending command (42 R144, R147, R149, R152). -/
  | accept
  /-- OPEN completion (42 R145). -/
  | openDone
  /-- SEND completion (42 R150). -/
  | sendDone
  /-- Reserved S0_IR bits are set (42 R156). -/
  | reservedIr (bits : Byte)
  /-- The settle step of a hardware reset (70 R196). -/
  | settle
  /-- Software reset completion (70 R198). -/
  | resetDone
  deriving DecidableEq, Repr

/-- The host's contexts that issue transactions (43 R161). -/
inductive Ctx where
  | app
  | worker
  deriving DecidableEq, Repr

/-- A turn of the schedule: which agent moves (20 R72). -/
inductive Turn where
  | host (c : Ctx)
  | engine (e : EngineStep)
  | network (f : Frame)
  deriving DecidableEq, Repr

/-- What the host's operations report (43 R172). The last two are the model's own: R172 has no name
for the give-up of 43 R165 and for the report of 43 R169 (log entry 21). -/
inductive HostResult where
  | ok
  | busError
  | initTimeout
  | socketOpenTimeout
  | txBufferFull
  | txTimeout
  | socketCloseTimeout
  | corruptRing
  deriving DecidableEq, Repr

/-- An item of a host program: a word on a port, an n-byte transaction, or a host-only line. The
lines follow 30 R99 and 43 R163 to R172; what each does is in Machine/HostAgent.lean. -/
inductive HostOp where
  | word (w : RawWord)
  | block (write : Bool) (a : Addr) (data : List Byte)
  | clear
  | poll (a : Addr) (m x : Byte) (bound : Option (Nat × HostResult))
  | pollTest (a : Addr) (m x : Byte) (bound : Option (Nat × HostResult))
  | stable (a : Addr) (prev : Option Word)
  | stableTest (a : Addr) (prev : Option Word)
  | lock
  | unlock
  | cmd (c : Cmd)
  | delay
  | delaySettle
  | waitInt
  | waitEdge (seen : Nat)
  | acquireTx
  | releaseTx
  | txTimeout
  | send (f : Frame)
  | keepW
  | txCheck (f : Frame)
  | workerPass
  | workerTest
  | waitRx
  | drain
  | drainSize
  | drainHdr
  | drainBody
  | drainDone (consumed : Word)
  | deliver (f : Frame)
  | setFd
  | startWorker
  | teardown
  | joinWorker
  | finish (r : HostResult)
  deriving DecidableEq, Repr

/-- One host context: its program, what is left of the n-byte transaction in progress, the bytes
read, and the host's variables of 43 R166 and R169. -/
structure Thread where
  prog : List HostOp
  xfer : List (BitVec 25)
  rdata : List Byte
  /-- The stable 16-bit value last read (RD16S). -/
  val : Word
  /-- w of 43 R166. -/
  w : Word
  /-- n of 43 R169. -/
  n : Word
  /-- q of 43 R169. -/
  q : Word
  deriving DecidableEq, Repr

/-- The world outside the block: the schedule, the transport and pin draws to come, and the host
(log entries 9, 10, 11). -/
structure Env where
  turns : List Turn
  /-- Transport failures of the bus bytes to come, false once exhausted (20 R85). -/
  busFaults : List Bool
  /-- Whether the host's GPIO misses the edges to come, false once exhausted (43 R162). -/
  edgeMisses : List Bool
  app : Thread
  worker : Thread
  /-- The bus lock's holder between the bytes of a unit (43 R161). -/
  lock : Option Ctx
  /-- The read the latest step made, as its address and length; none if that step was no read. -/
  lastRead : Option (Addr × Nat)
  /-- The number of that read. A read repeated with no step between keeps it (log entry 37). -/
  readNo : Nat
  /-- The TX gate is held (43 R161). -/
  txGate : Bool
  /-- The RX gate is signalled (43 R161). -/
  rxGate : Bool
  /-- The termination flag (43 R171). -/
  stop : Bool
  /-- The interrupt callback is registered (43 R163 step 8). -/
  callback : Bool
  delivered : List Frame
  results : List HostResult
  deriving DecidableEq, Repr

/-- Ring memory: (chip address, byte) pairs, addresses strictly rising. An address that is not
listed holds no byte written since the last reset (log entry 7). -/
abbrev Memory := List Host.Cell

/-- The machine. The first field is the binding, the last six are the model's own or the world's;
the others are the state of 10_state.md. -/
structure State where
  /-- The parameters the model takes (00 R6 to R15). No step changes them. -/
  cfg : Binding
  /-- `phase` (10 R53). -/
  phase : Phase
  /-- MR as stored (10 R23 to R26). Bit MR_RST of a read comes from `phase` (41 R118). -/
  mr : Byte
  /-- GAR (10 R27). -/
  gar : Vector Byte 4
  /-- SHAR, byte 0 first on the wire (10 R28, 20 R83). -/
  shar : Vector Byte 6
  /-- IMR (10 R30). -/
  imr : Byte
  /-- RTR (10 R31). -/
  rtr : Word
  /-- S0_MR (10 R32 to R34). -/
  s0mr : Byte
  /-- `cmd_pending`, which S0_CR reads show (10 R35, R48). -/
  cmdPending : Option Cmd
  /-- S0_IR (10 R36, R37). -/
  s0ir : Byte
  /-- S0_SR (10 R38). -/
  s0sr : Byte
  /-- S0_IMR (10 R39). Not read when the binding leaves A_S0_IMR unbound (60 R175). -/
  s0imr : Byte
  /-- TX_RD (10 R41). -/
  txRd : Word
  /-- TX_WR (10 R42). -/
  txWr : Word
  /-- RX_RD (10 R44). -/
  rxRd : Word
  /-- RX_WR (10 R45). -/
  rxWr : Word
  /-- The ring bytes written since the last reset, by chip address, strictly rising (10 R46, R47). -/
  mem : Memory
  /-- `rx_rd_acc` (10 R49). -/
  rxRdAcc : Word
  /-- `send_busy` (10 R50). -/
  sendBusy : Bool
  /-- `send_start` (10 R50). -/
  sendStart : Word
  /-- `send_end` (10 R50). -/
  sendEnd : Word
  /-- `raced`, a set as a strictly rising list (10 R50). -/
  raced : List Word
  /-- `open_pending` (10 R51). -/
  openPending : Bool
  /-- `mf_latched` (10 R52). -/
  mfLatched : Bool
  /-- `faults` (10 R54). -/
  faults : List FaultRecord
  /-- `refused` (10 R54). -/
  refused : Bool
  /-- `net_out`, oldest first (10 R55). -/
  netOut : List Frame
  /-- `net_drop` (10 R55). -/
  netDrop : Nat
  /-- `int_edges` (10 R56). -/
  intEdges : Nat
  /-- The model's own: the index of the next free value (log entry 6). -/
  draws : Nat
  /-- The model's own: which reset the unwritten ring bytes stem from (log entry 7). -/
  memEpoch : Nat
  /-- The model's own: the answer on the host port (log entry 13). -/
  resp : Response
  /-- The world's: the transport fails the byte now on the bus (20 R85, log entry 10). -/
  busFails : Bool
  /-- The world outside the block. -/
  env : Env
  deriving DecidableEq, Repr

/-- A host context with nothing to do. -/
def Thread.idle : Thread where
  prog := []
  xfer := []
  rdata := []
  val := 0
  w := 0
  n := 0
  q := 0

/-- A world that lists no turn and no draw, and a host with nothing to do (log entries 9, 10, 11). -/
def Env.idle : Env where
  turns := []
  busFaults := []
  edgeMisses := []
  app := Thread.idle
  worker := Thread.idle
  lock := none
  lastRead := none
  readNo := 0
  txGate := false
  rxGate := false
  stop := false
  callback := false
  delivered := []
  results := []

/-- The machine right after a reset, under REF (10 R60). Where R60 says "any", the value is the
family's, the GK column (PRESUMED, log entry 4, unsafe), or 0 where that column gives none
(DESIGN CHOICE, log entry 5, unsafe). An in-run reset draws these values instead (log entry 8). -/
def State.reset : State where
  cfg := Binding.ref
  phase := .ready
  mr := 0x00
  gar := Vector.replicate 4 0
  shar := Vector.replicate 6 0
  imr := 0x00
  rtr := 0x07D0
  s0mr := 0x00
  cmdPending := none
  s0ir := 0x00
  s0sr := Binding.ref.srClosed
  s0imr := 0x14
  txRd := 0x0000
  txWr := 0x0000
  rxRd := 0x0000
  rxWr := 0x0000
  mem := []
  rxRdAcc := 0x0000
  sendBusy := false
  sendStart := 0x0000
  sendEnd := 0x0000
  raced := []
  openPending := false
  mfLatched := false
  faults := []
  refused := false
  netOut := []
  netDrop := 0
  intEdges := 0
  draws := 0
  memEpoch := 0
  resp := .none
  busFails := false
  env := Env.idle

end Sys2Proof.Machine
end

