-- ==== Sys2Proof/Machine/Bits.lean ====
section
/-!
DEFINITION. Bit fields and byte order (00_scope.md R16, 20_memory.md R61).
-/

namespace Sys2Proof.Machine

/-- Bits 15:8 (00 R16). -/
def hi8 (v : Word) : Byte := v.extractLsb' 8 8

/-- Bits 7:0 (00 R16). -/
def lo8 (v : Word) : Byte := v.extractLsb' 0 8

/-- `be16(hi, lo)` (00 R16, 30 R98). -/
def be16 (hi lo : Byte) : Word := hi ++ lo

/-- The byte of a 16-bit register at offset `i` from its address: big-endian (20 R61). -/
def byteOf (v : Word) (i : Nat) : Byte := if i = 0 then hi8 v else lo8 v

/-- A 16-bit register with the byte at offset `i` replaced; the other byte keeps its value
(41 R117). -/
def setByteOf (v : Word) (i : Nat) (x : Byte) : Word :=
  if i = 0 then be16 x (lo8 v) else be16 (hi8 v) x

/-- `v[i]` (00 R16). -/
def bitAt (v : Byte) (i : Fin 8) : Bool := v.getLsbD i

/-- The byte whose only set bit is bit `i`. -/
def maskOf (i : Fin 8) : Byte := 1#8 <<< i.val

/-- `v` with bit `i` at `x`. -/
def setBit (v : Byte) (i : Fin 8) (x : Bool) : Byte :=
  if x then v ||| maskOf i else v &&& ~~~maskOf i

/-- `v[hi:lo]` (00 R16). -/
def fieldOf (v : Byte) (hi lo : Fin 8) : Byte :=
  (v >>> lo.val) &&& ((1#8 <<< (hi.val - lo.val + 1)) - 1)

end Sys2Proof.Machine
end

