-- ==== Sys2Proof/Machine/Ring.lean ====
section
/-!
DEFINITION. The circular buffer address mapper and the pointer arithmetic of both rings
(40_mapper.md R101 to R110, R115).
-/

namespace Sys2Proof.Machine

/-- BASE(s) (40 R103). -/
def winBase (b : Binding) : Win → Addr
  | .tx => b.txBase
  | .rx => b.rxBase

/-- MAP(s, p) = BASE(s) + (p mod SIZE) (40 R101 to R103). -/
def mapAt (b : Binding) (w : Win) (p : Word) : Addr :=
  winBase b w + BitVec.ofNat 16 (p.toNat % b.size)

/-- SPLIT(s, p, n): at most two contiguous pieces (40 R104). -/
def split (b : Binding) (w : Win) (p : Word) (n : Nat) : List (Addr × Nat) :=
  let off := p.toNat % b.size
  let n1 := min n (b.size - off)
  let n2 := n - n1
  if n = 0 then []
  else if n2 = 0 then [(winBase b w + BitVec.ofNat 16 off, n1)]
  else [(winBase b w + BitVec.ofNat 16 off, n1), (winBase b w, n2)]

/-- ADVANCE(p, n) = p +16 n, not masked to SIZE (40 R105). -/
def advance (p : Word) (n : Nat) : Word := p + BitVec.ofNat 16 n

/-- OCC(wr, rd) = wr -16 rd (40 R106). -/
def occ (wr rd : Word) : Nat := (wr - rd).toNat

/-- The address lies in the window: [BASE, BASE + SIZE) (20 R62). -/
def inWindow (b : Binding) (w : Win) (a : Addr) : Bool :=
  (winBase b w).toNat ≤ a.toNat && a.toNat < (winBase b w).toNat + b.size

/-- The least i with MAP(s, start +16 i) = a, for an address a of the window: the position the
membership rules 20 R80 and R81 ask for (log entry 18). -/
def ringIndex (b : Binding) (w : Win) (start : Word) (a : Addr) : Nat :=
  ((a - winBase b w).toNat + b.size - start.toNat % b.size) % b.size

/-- FRAMELEN(H): the body length and the consumed length of a frame whose prefix is H (40 R115).
A prefix below HDR_LEN that counts itself gives a body of 0, which 43 R169 treats as corrupt (log
entry 26). -/
def frameLen (b : Binding) (h : Word) : Nat × Nat :=
  if b.hdrIncludesSelf then (h.toNat - hdrLen, h.toNat) else (h.toNat, h.toNat + hdrLen)

/-- The prefix value H of a deposit of an n-byte frame (42 R153). -/
def prefixOf (b : Binding) (n : Nat) : Word :=
  BitVec.ofNat 16 (if b.hdrIncludesSelf then hdrLen + n else n)

end Sys2Proof.Machine
end

