-- ==== Sys2Proof/Machine/RegMap.lean ====
section
/-!
DEFINITION. The map of the chip address space (20_memory.md R62, 00_scope.md R12) and the
constraints on a binding (00_scope.md R6, R7, R13, R14).
-/

namespace Sys2Proof.Machine

/-- The registers of 00 R12. -/
inductive Reg where
  | mr | gar | shar | ir | imr | rtr
  | s0mr | s0cr | s0ir | s0sr | s0imr
  | txFsr | txRd | txWr | rxRsr | rxRd | rxWr
  deriving DecidableEq, Repr

/-- Every register, common region first (20 R62). -/
def Reg.all : List Reg :=
  [.mr, .gar, .shar, .ir, .imr, .rtr, .s0mr, .s0cr, .s0ir, .s0sr, .s0imr,
   .txFsr, .txRd, .txWr, .rxRsr, .rxRd, .rxWr]

/-- The bytes of a register (00 R12). -/
def Reg.len : Reg → Nat
  | .mr => 1 | .gar => 4 | .shar => 6 | .ir => 1 | .imr => 1 | .rtr => 2
  | .s0mr => 1 | .s0cr => 1 | .s0ir => 1 | .s0sr => 1 | .s0imr => 1
  | .txFsr => 2 | .txRd => 2 | .txWr => 2 | .rxRsr => 2 | .rxRd => 2 | .rxWr => 2

/-- The first address of a register, none where the binding leaves it unbound (00 R12). -/
def Reg.base (b : Binding) : Reg → Option Addr
  | .mr => some b.aMr
  | .gar => some b.aGar
  | .shar => some b.aShar
  | .ir => some b.aIr
  | .imr => some b.aImr
  | .rtr => some b.aRtr
  | .s0mr => some b.aS0Mr
  | .s0cr => some b.aS0Cr
  | .s0ir => some b.aS0Ir
  | .s0sr => some b.aS0Sr
  | .s0imr => b.aS0Imr
  | .txFsr => some b.aTxFsr
  | .txRd => some b.aTxRd
  | .txWr => some b.aTxWr
  | .rxRsr => some b.aRxRsr
  | .rxRd => some b.aRxRd
  | .rxWr => b.aRxWr

/-- The offset of an address in a register, none outside it. -/
def Reg.offset (b : Binding) (a : Addr) (r : Reg) : Option Nat :=
  match r.base b with
  | none => none
  | some x => if x.toNat ≤ a.toNat ∧ a.toNat < x.toNat + r.len then some (a.toNat - x.toNat) else none

/-- What a chip address names (20 R62). -/
inductive Loc where
  /-- Byte `i` of a register. -/
  | reg (r : Reg) (i : Nat)
  /-- A byte of the TX or RX window. -/
  | win (w : Win)
  deriving DecidableEq, Repr

/-- The first register of the list that holds the address. -/
def locateReg (b : Binding) (a : Addr) : List Reg → Option Loc
  | [] => none
  | r :: rs =>
    match r.offset b a with
    | some i => some (.reg r i)
    | none => locateReg b a rs

/-- What the address names, none when it is unmapped (20 R62, R63). -/
def locate (b : Binding) (a : Addr) : Option Loc :=
  match locateReg b a Reg.all with
  | some l => some l
  | none =>
    if inWindow b .tx a then some (.win .tx)
    else if inWindow b .rx a then some (.win .rx)
    else none

/-- Where the bound registers and the two windows lie: (first address, length). -/
def spans (b : Binding) : List (Nat × Nat) :=
  (Reg.all.filterMap fun r => (r.base b).map fun x => (x.toNat, r.len)) ++
    [(b.txBase.toNat, b.size), (b.rxBase.toNat, b.size)]

/-- Two spans share no address. -/
def apart (x y : Nat × Nat) : Bool := x.1 + x.2 ≤ y.1 || y.1 + y.2 ≤ x.1

/-- The spans are pairwise apart. -/
def allApart : List (Nat × Nat) → Bool
  | [] => true
  | x :: xs => xs.all (apart x) && allApart xs

/-- 00 R6 and R7, and that registers are apart and end inside the space (log entry 16). -/
def placesValid (b : Binding) : Bool :=
  1 ≤ b.sizeLog && b.sizeLog ≤ 15 && (spans b).all (fun x => x.1 + x.2 ≤ 65536) && allApart (spans b)

/-- 00 R14: the status codes differ, the command codes differ and none is 0. -/
def codesValid (b : Binding) : Bool :=
  b.srClosed != b.srInit && b.srClosed != b.srMacraw && b.srInit != b.srMacraw &&
  b.cmdOpen != b.cmdClose && b.cmdOpen != b.cmdSend && b.cmdOpen != b.cmdRecv &&
  b.cmdClose != b.cmdSend && b.cmdClose != b.cmdRecv && b.cmdSend != b.cmdRecv &&
  b.cmdOpen != 0 && b.cmdClose != 0 && b.cmdSend != 0 && b.cmdRecv != 0

/-- 92 D4: the fields of one register are distinct bits (log entry 16). That PROTO_MACRAW fits the
field S0_MR_PROTO is not asked for (log entry 40). -/
def bitsValid (b : Binding) : Bool :=
  b.mrFd != some b.mrRst && b.irSendok != b.irRecv && b.protoLo ≤ b.protoHi &&
  (b.s0MrMf < b.protoLo || b.protoHi < b.s0MrMf)

/-- The binding keeps the constraints of 00 R6, R7 and R14 (60 R186). -/
def bindingValid (b : Binding) : Bool := placesValid b && codesValid b && bitsValid b

end Sys2Proof.Machine
end

