-- ==== Sys2Proof/Machine/Flags.lean ====
section
/-!
DEFINITION. The flags of the block and the interrupt line (10_state.md R58, 60_exceptions.md R173
to R178).
-/

namespace Sys2Proof.Machine

/-- The S0_IR bits that reach the socket-0 interrupt: masked by S0_IMR, or all of them where the
binding has no S0_IMR (60 R174, R175, log entry 24). -/
def State.unmasked (s : State) : Byte :=
  match s.cfg.aS0Imr with
  | some _ => s.s0ir &&& s.s0imr
  | none => s.s0ir

/-- `s0_int` (60 R175). -/
def State.s0Int (s : State) : Bool := s.unmasked != 0

/-- The interrupt line is asserted (60 R176). -/
def State.intAsserted (s : State) : Bool :=
  s.phase == .ready && s.s0Int && bitAt s.imr s.cfg.irS0

/-- The electrical level of the interrupt line: low when asserted if INT_ACTIVE_LOW (60 R176). -/
def State.intPin (s : State) : Bool := s.intAsserted != s.cfg.intActiveLow

/-- `set_ir(bit)` (00 R17). -/
def setIr (s : State) (i : Fin 8) : State := { s with s0ir := s.s0ir ||| maskOf i }

/-- What a W1C of `v` leaves of the bits `x` (41 R129). -/
def w1cBits (x v : Byte) : Byte := x &&& ~~~v

/-- The bits the reserved-bit step may set: all of S0_IR but IR_SENDOK and IR_RECV (42 R156). -/
def reservedMask (b : Binding) : Byte := ~~~(maskOf b.irSendok ||| maskOf b.irRecv)

/-- The value of IR: bit IR_S0 is s0_int, the others are `free` (10 R29, 41 R121). -/
def irValue (s : State) (free : Byte) : Byte := setBit free s.cfg.irS0 s.s0Int

/-- The value of MR: bit MR_RST is 1 exactly in SW_RESET (41 R118). -/
def mrValue (s : State) : Byte := setBit s.mr s.cfg.mrRst (s.phase == .swReset)

/-- MR.FD, where the binding has one (10 R25). -/
def State.fullDuplex (s : State) : Option Bool := s.cfg.mrFd.map (bitAt s.mr)

/-- `int_edges` after a step from `s` to `t`: one more when the line goes from deasserted to
asserted (60 R177). -/
def noteEdge (s t : State) : State :=
  { t with intEdges := t.intEdges + if !s.intAsserted && t.intAsserted then 1 else 0 }

end Sys2Proof.Machine
end

