-- ==== Sys2Proof/Machine/Ops.lean ====
section
/-!
DEFINITION. The named operations over the state: ring memory, model faults and refusals, the guard
of every step, draws, frames, and what both resets do.
-/

namespace Sys2Proof.Machine

/-- What a step or a meaning answers. -/
abbrev Result := Host.Outcome State Fault Refusal

/-! ### Ring memory -/

/-- The byte listed at an address, none when nothing has written it since the last reset. -/
def Memory.read : Memory → Nat → Option Byte
  | [], _ => none
  | (x, v) :: rest, a => if x = a then some v else Memory.read rest a

/-- Store a byte, keeping the addresses strictly rising. -/
def Memory.write : Memory → Nat → Byte → Memory
  | [], a, v => [(a, v)]
  | (x, u) :: rest, a, v =>
    if a < x then (a, v) :: (x, u) :: rest
    else if a = x then (a, v) :: rest
    else (x, u) :: Memory.write rest a v

/-- The canonical form: addresses strictly rising. An unlisted address reads as no byte, so no
entry equals what it would read as (log entry 7). -/
def Memory.wf : Memory → Bool
  | [] => true
  | [_] => true
  | (x, _) :: (y, v) :: rest => x < y && Memory.wf ((y, v) :: rest)

/-- `M[a]`: the byte last stored, or the reset draw if none has been stored since the last reset
(20 R79). -/
def State.ringByte (s : State) (a : Addr) : Byte :=
  match Memory.read s.mem a.toNat with
  | some v => v
  | none => Config.freeRing s.memEpoch a.toNat

/-- Store bytes at logical positions p, p +16 1, ... of a ring (40 R111, R112). -/
def ringStore (b : Binding) (w : Win) (p : Word) : List Byte → Memory → Memory
  | [], m => m
  | v :: vs, m => ringStore b w (p + 1) vs (Memory.write m (mapAt b w p).toNat v)

/-- The `n` bytes at logical positions p, p +16 1, ... of a ring (40 R111, R113). -/
def State.ringLoad (s : State) (w : Win) (p : Word) (n : Nat) : List Byte :=
  (List.range n).map fun i => s.ringByte (mapAt s.cfg w (p + BitVec.ofNat 16 i))

/-- HDR(q), the RX length prefix (40 R114, 20 R84). -/
def State.header (s : State) (q : Word) : Word :=
  be16 (s.ringByte (mapAt s.cfg .rx q)) (s.ringByte (mapAt s.cfg .rx (q + 1)))

/-- A set of 16-bit positions, as a strictly rising list, with one more member (10 R50). -/
def insertWord (p : Word) : List Word → List Word
  | [] => [p]
  | x :: xs => if p < x then p :: x :: xs else if p = x then x :: xs else x :: insertWord p xs

/-- TX_FSR when the occupancy is at most SIZE, none where 40 R107 draws. -/
def State.txFree (s : State) : Option Word :=
  if occ s.txWr s.txRd ≤ s.cfg.size then some (BitVec.ofNat 16 (s.cfg.size - occ s.txWr s.txRd))
  else none

/-- RX_FREE (40 R109). -/
def State.rxFree (s : State) : Nat := s.cfg.size - occ s.rxWr s.rxRdAcc

/-- The RX window byte at `a` lies between rx_rd_acc and RX_WR (20 R81). -/
def State.rxOccupied (s : State) (a : Addr) : Bool :=
  ringIndex s.cfg .rx s.rxRdAcc a < occ s.rxWr s.rxRdAcc

/-- The logical position of a TX window byte inside the SEND in flight, if it has one (20 R80). -/
def State.inFlight (s : State) (a : Addr) : Option Word :=
  let i := ringIndex s.cfg .tx s.sendStart a
  if s.sendBusy ∧ i < occ s.sendEnd s.sendStart then some (s.sendStart + BitVec.ofNat 16 i) else none

/-- S0_MR.PROTO selects MACRAW (10 R32). -/
def State.macrawMode (s : State) : Bool :=
  fieldOf s.s0mr s.cfg.protoHi s.cfg.protoLo == s.cfg.protoMacraw

/-! ### Faults, refusals and the guard of every step -/

/-- `raise Fault(f)`: record it, with no other effect (00 R17, 60 R185). -/
def raise (s : State) (f : FaultRecord) : State := { s with faults := s.faults ++ [f] }

/-- Set `refused` (60 R186). -/
def refuse (s : State) : State := { s with refused := true }

/-- A step is taken only while no fault is recorded and nothing has been refused (60 R185, R186).
A binding that breaks its constraints is refused (60 R186). -/
def gate (s : State) (k : Result) : Result :=
  if s.faults ≠ [] then .fault .quiescent
  else if s.refused = true then .refused .declined
  else if bindingValid s.cfg = true then k
  else .next (refuse s)

/-- One atomic step with effect `f`, and its edge of the interrupt line (00 R18, 60 R177). -/
def act (f : State → State) (s : State) : Result := gate s (.next (noteEdge s (f s)))

/-- Put an answer on the host port, with the draws it took. -/
def answer (s : State) (r : Response) (n : Nat) : State :=
  { s with resp := r, draws := s.draws + n }

/-! ### Frames in flight -/

/-- The frame of the SEND in flight (42 R150): the ring byte at each position, a free value at a
raced one. `k` is the index of the first free value. -/
def State.flightFrame (s : State) (k : Nat) : Frame :=
  (List.range (occ s.sendEnd s.sendStart)).map fun i =>
    if s.sendStart + BitVec.ofNat 16 i ∈ s.raced then Config.freeByte (k + i)
    else s.ringByte (mapAt s.cfg .tx (s.sendStart + BitVec.ofNat 16 i))

/-- A frame in flight when a reset comes is emitted whole or not at all, a draw, and the send is
over (70 R195, R198). -/
def abortSend (s : State) : State :=
  if s.sendBusy then
    { s with
      netOut := if Config.freeBool s.draws then s.netOut ++ [s.flightFrame (s.draws + 1)] else s.netOut
      sendBusy := false
      raced := []
      draws := s.draws + 1 + occ s.sendEnd s.sendStart }
  else s

/-! ### Reset -/

/-- Every item of 10 R60 at its reset value. "any" is a free value, a new one for each item and
each reset. `faults`, `refused`, `net_out` and `net_drop` are unchanged. -/
def resetItems (s : State) : State :=
  let d := s.draws
  { s with
    mr := setBit (Config.freeByte d) s.cfg.mrRst false
    gar := Vector.ofFn fun i => Config.freeByte (d + 1 + i.val)
    shar := Vector.ofFn fun i => Config.freeByte (d + 5 + i.val)
    imr := Config.freeByte (d + 11)
    rtr := Config.freeWord (d + 12)
    s0mr := Config.freeByte (d + 13)
    cmdPending := none
    s0ir := Config.freeByte (d + 14)
    s0sr := s.cfg.srClosed
    s0imr := setBit (setBit (Config.freeByte (d + 15)) s.cfg.irSendok true) s.cfg.irRecv true
    txRd := Config.freeWord (d + 16)
    txWr := Config.freeWord (d + 17)
    rxRd := Config.freeWord (d + 18)
    rxWr := Config.freeWord (d + 19)
    rxRdAcc := Config.freeWord (d + 20)
    sendStart := Config.freeWord (d + 21)
    sendEnd := Config.freeWord (d + 22)
    mem := []
    memEpoch := s.memEpoch + 1
    sendBusy := false
    raced := []
    openPending := false
    mfLatched := false
    phase := .ready
    draws := d + 23 }

end Sys2Proof.Machine
end

