-- ==== Sys2Proof/Machine/Mapper.lean ====
section
/-!
DEFINITION. The mapper's ports (40_mapper.md R101 to R104): stateless, no flag, no exception. They
answer in every phase, on the port's own answer field (log entry 13).
-/

namespace Sys2Proof.Machine

/-- A split word with n > SIZE is ill-formed and refused (30 R96, 60 R186). -/
def splitEffect (w : Win) (p : Word) (n : BitVec 16) (s : State) : State :=
  if s.cfg.size < n.toNat then refuse s
  else answer s (.pieces (split s.cfg w p n.toNat)) 0

/-- MAP_TX (40 R101). -/
def execMapTx (p : Word) (s : State) : Result :=
  act (fun s => answer s (.addr (mapAt s.cfg .tx p)) 0) s

/-- MAP_RX (40 R102). -/
def execMapRx (p : Word) (s : State) : Result :=
  act (fun s => answer s (.addr (mapAt s.cfg .rx p)) 0) s

/-- SPLIT_TX (40 R104). -/
def execSplitTx (p : Word) (n : BitVec 16) (s : State) : Result := act (splitEffect .tx p n) s

/-- SPLIT_RX (40 R104). -/
def execSplitRx (p : Word) (n : BitVec 16) (s : State) : Result := act (splitEffect .rx p n) s

end Sys2Proof.Machine
end

