-- ==== Sys2Proof/Machine/ResetLine.lean ====
section
/-!
DEFINITION. The reset input (70_reset_and_hazards.md R195, R196). The settle step that ends a
hardware reset is in Machine/Engine.lean.
-/

namespace Sys2Proof.Machine

/-- Asserting the reset input (70 R195). While asserted, another assertion has no effect. -/
def assertEffect (s : State) : State :=
  if s.phase = .hwReset then s
  else { abortSend s with phase := .hwReset, cmdPending := none, openPending := false }

/-- Releasing the reset input: HW_RESET becomes SETTLING, any other phase stays (70 R196). -/
def releaseEffect (s : State) : State :=
  if s.phase = .hwReset then { s with phase := .settling } else s

/-- RST_ASSERT (70 R195). -/
def execRstAssert (s : State) : Result := act assertEffect s

/-- RST_RELEASE (70 R196). -/
def execRstRelease (s : State) : Result := act releaseEffect s

end Sys2Proof.Machine
end

