-- ==== Sys2Proof/Machine/Operands.lean ====
section
/-!
DEFINITION. What a read of each mapped byte returns and what a write of each stores
(41_bus_transactions.md R118 to R138, 20_memory.md R79 to R82). A register byte is a register and
an offset from its address.
-/

namespace Sys2Proof.Machine

/-- The code of a command (00 R14). -/
def Cmd.code (b : Binding) : Cmd → Byte
  | .openSock => b.cmdOpen
  | .closeSock => b.cmdClose
  | .send => b.cmdSend
  | .recv => b.cmdRecv

/-- The command of a code, none for any other value (42 R142). -/
def cmdOfCode (b : Binding) (v : Byte) : Option Cmd :=
  if v = b.cmdOpen then some .openSock
  else if v = b.cmdClose then some .closeSock
  else if v = b.cmdSend then some .send
  else if v = b.cmdRecv then some .recv
  else none

/-- S0_CR as read (41 R126). -/
def s0crValue (s : State) : Byte :=
  match s.cmdPending with
  | none => 0
  | some c => c.code s.cfg

/-- The state without the latest answer, the transport's report and the host's own state: what the
open values of TX_FSR and RX_RSR depend on (20 R69, log entry 37). -/
def State.block (s : State) : State :=
  { s with resp := .none, busFails := false, env := Env.idle }

/-- TX_FSR as read (40 R107, 41 R132). Above SIZE it is a free value by the number of the read, which a
read repeated with no step between keeps (20 R69, log entry 37). -/
def txFsrValue (s : State) : Word :=
  s.txFree.getD (Config.freeSize s.env.readNo s.block)

/-- RX_RSR as read (40 R108, 41 R135). While RX_RD and rx_rd_acc differ, the pointer it counts from is
a fresh draw at each step that reads; only a read repeated with no step between keeps it (20 R69, log
entry 37). -/
def rxRsrValue (s : State) : Word :=
  if s.rxRd = s.rxRdAcc then s.rxWr - s.rxRdAcc
  else s.rxWr - (if Config.freeBase s.env.readNo s.block then s.rxRdAcc else s.rxRd)

/-- The byte a read of a register byte returns, and the draws it took (41 R118 to R137). -/
def readReg (s : State) (r : Reg) (i : Nat) : Byte × Nat :=
  match r with
  | .mr => (mrValue s, 0)
  | .gar => (s.gar[i]?.getD 0, 0)
  | .shar => (s.shar[i]?.getD 0, 0)
  | .ir => (irValue s (Config.freeByte s.draws), 1)
  | .imr => (s.imr, 0)
  | .rtr => (byteOf s.rtr i, 0)
  | .s0mr => (s.s0mr, 0)
  | .s0cr => (s0crValue s, 0)
  | .s0ir => (s.s0ir, 0)
  | .s0sr => (s.s0sr, 0)
  | .s0imr => (s.s0imr, 0)
  | .txFsr => (byteOf (txFsrValue s) i, 0)
  | .txRd => (byteOf s.txRd i, 0)
  | .txWr => (byteOf s.txWr i, 0)
  | .rxRsr => (byteOf (rxRsrValue s) i, 0)
  | .rxRd => (byteOf s.rxRd i, 0)
  | .rxWr => (byteOf s.rxWr i, 0)

/-- The byte a read of a window byte returns, and the draws it took (20 R79, R81). -/
def readWin (s : State) (w : Win) (a : Addr) : Byte × Nat :=
  match w with
  | .tx => (s.ringByte a, 0)
  | .rx => if s.rxOccupied a then (s.ringByte a, 0) else (Config.freeByte s.draws, 1)

/-- The byte a read returns, and the draws it took. -/
def readLoc (s : State) (a : Addr) : Loc → Byte × Nat
  | .reg r i => readReg s r i
  | .win w => readWin s w a

/-- The registers of class RO (41 R138). -/
def Reg.readOnly : Reg → Bool
  | .ir | .s0sr | .txFsr | .txRd | .rxRsr | .rxWr => true
  | .mr | .gar | .shar | .imr | .rtr | .s0mr | .s0cr | .s0ir | .s0imr | .txWr | .rxRd => false

/-- A write to MR: bit MR_RST set starts a software reset and discards the other bits, bit MR_RST
clear stores them (41 R118, R119). -/
def writeMr (s : State) (v : Byte) : State :=
  if bitAt v s.cfg.mrRst then { s with phase := .swReset } else { s with mr := v }

/-- A write to a TX window byte, which races when the byte is in flight (20 R80). -/
def writeTx (s : State) (a : Addr) (v : Byte) : State :=
  { s with
    mem := Memory.write s.mem a.toNat v
    raced :=
      match s.inFlight a with
      | some p => insertWord p s.raced
      | none => s.raced }

end Sys2Proof.Machine
end

