-- ==== Sys2Proof/Machine/Command.lean ====
section
/-!
DEFINITION. Writing a command to S0_CR: the checks of 42_socket_commands.md R142, R143, R146, R148
and R151.
-/

namespace Sys2Proof.Machine

/-- The length of the frame a SEND would send: OCC(TX_WR, TX_RD) (42 R148). -/
def State.sendSize (s : State) : Nat := occ s.txWr s.txRd

/-- The SEND length is 0 or above min(SIZE, MAX_FRAME) (42 R148, R149). -/
def State.badSendSize (s : State) : Bool :=
  s.sendSize == 0 || min s.cfg.size s.cfg.maxFrame < s.sendSize

/-- RX_RD has been advanced past RX_WR (42 R151, R152). -/
def State.recvPast (s : State) : Bool := occ s.rxWr s.rxRdAcc < occ s.rxRd s.rxRdAcc

/-- The first write check of a command that fails, in the order its rule lists them
(42 R143, R146, R148, R151). -/
def cmdCheck (s : State) : Cmd → Option FaultRecord
  | .openSock =>
    if s.s0sr ≠ s.cfg.srClosed then some (.openState s.s0sr)
    else if s.macrawMode = false then some (.openMode s.s0mr)
    else none
  | .closeSock => if s.sendBusy then some (.closeBusy s.sendStart s.sendEnd) else none
  | .send =>
    if s.s0sr ≠ s.cfg.srMacraw then some (.sendState s.s0sr)
    else if s.sendBusy then some (.sendBusy s.sendStart s.sendEnd)
    else if s.badSendSize then some (.sendLen s.txWr s.txRd)
    else none
  | .recv =>
    if s.s0sr ≠ s.cfg.srMacraw then some (.recvState s.s0sr)
    else if s.recvPast then some (.recvOver s.rxRd s.rxWr s.rxRdAcc)
    else none

/-- A write of `v` to S0_CR (42 R142): an unknown code, a pending command and the command's own
checks fault in this order; otherwise the command is pending. -/
def writeS0Cr (s : State) (v : Byte) : State :=
  match cmdOfCode s.cfg v with
  | none => raise s (.cmdUnknown v)
  | some c =>
    match s.cmdPending with
    | some p => raise s (.cmdOverrun v p)
    | none =>
      match cmdCheck s c with
      | some f => raise s f
      | none => { s with cmdPending := some c }

end Sys2Proof.Machine
end

