-- ==== Sys2Proof/Machine/Bus.lean ====
section
/-!
DEFINITION. The host's byte transactions (41_bus_transactions.md R116, R117): the meanings of RD8,
WR8, SWRESET and W1C over the two base operations. Their checks run in the order of 60 R184.
-/

namespace Sys2Proof.Machine

/-- The effect of reading the byte at `a` (41 R116). -/
def readEffect (a : Addr) (s : State) : State :=
  if s.busFails then raise s (.bus a false)
  else if s.phase = .hwReset ∨ s.phase = .settling then raise s (.notReady a s.phase)
  else if s.phase = .swReset ∧ a ≠ s.cfg.aMr then raise s (.notReady a s.phase)
  else
    match locate s.cfg a with
    | none => raise s (.unmapped a)
    | some l => answer s (.byte (readLoc s a l).1) (readLoc s a l).2

/-- A write to a byte of register `r` (41 R118 to R138). -/
def writeReg (s : State) (a : Addr) (v : Byte) (r : Reg) (i : Nat) : State :=
  match r with
  | .mr => writeMr s v
  | .gar => { s with gar := s.gar.setIfInBounds i v }
  | .shar => { s with shar := s.shar.setIfInBounds i v }
  | .ir => raise s (.roWrite a v)
  | .imr => { s with imr := v }
  | .rtr => { s with rtr := setByteOf s.rtr i v }
  | .s0mr => { s with s0mr := v }
  | .s0cr => writeS0Cr s v
  | .s0ir => { s with s0ir := w1cBits s.s0ir v }
  | .s0sr => raise s (.roWrite a v)
  | .s0imr => { s with s0imr := v }
  | .txFsr => raise s (.roWrite a v)
  | .txRd => raise s (.roWrite a v)
  | .txWr => { s with txWr := setByteOf s.txWr i v }
  | .rxRsr => raise s (.roWrite a v)
  | .rxRd => { s with rxRd := setByteOf s.rxRd i v }
  | .rxWr => raise s (.roWrite a v)

/-- A write to the byte a mapped address names (41 R117, 20 R80, R82). -/
def writeLoc (s : State) (a : Addr) (v : Byte) : Loc → State
  | .reg r i => writeReg s a v r i
  | .win .tx => writeTx s a v
  | .win .rx => raise s (.rxWrite a v)

/-- The effect of writing `v` to the byte at `a` (41 R117). -/
def writeEffect (a : Addr) (v : Byte) (s : State) : State :=
  if s.busFails then raise s (.bus a true)
  else if s.phase ≠ .ready then raise s (.notReady a s.phase)
  else
    match locate s.cfg a with
    | none => raise s (.unmapped a)
    | some l => writeLoc s a v l

/-- One host read of a byte. -/
def hostRead (a : Addr) (s : State) : Result := act (readEffect a) s

/-- One host write of a byte. -/
def hostWrite (a : Addr) (v : Byte) (s : State) : Result := act (writeEffect a v) s

/-- RD8 (41 R116). -/
def execRd8 (a : Addr) (s : State) : Result := hostRead a s

/-- WR8 (41 R117). -/
def execWr8 (a : Addr) (v : Byte) (s : State) : Result := hostWrite a v s

/-- SWRESET: a write to MR with bit MR_RST set (41 R119, 70 R197). -/
def execSwReset (v : Byte) (s : State) : Result := hostWrite s.cfg.aMr v s

/-- W1C: a write to S0_IR (41 R129). -/
def execW1c (v : Byte) (s : State) : Result := hostWrite s.cfg.aS0Ir v s

end Sys2Proof.Machine
end

