-- ==== Sys2Proof/Machine/SocketCommand.lean ====
section
/-!
DEFINITION. The socket commands: writes to S0_CR (42_socket_commands.md R142 to R151). What the
engine does with a pending command is in Machine/Engine.lean.
-/

namespace Sys2Proof.Machine

/-- OPEN (42 R143). -/
def execOpen (s : State) : Result := hostWrite s.cfg.aS0Cr s.cfg.cmdOpen s

/-- CLOSE (42 R146). -/
def execClose (s : State) : Result := hostWrite s.cfg.aS0Cr s.cfg.cmdClose s

/-- SEND (42 R148). -/
def execSend (s : State) : Result := hostWrite s.cfg.aS0Cr s.cfg.cmdSend s

/-- RECV (42 R151). -/
def execRecv (s : State) : Result := hostWrite s.cfg.aS0Cr s.cfg.cmdRecv s

/-- CMD_ILLEGAL: a write to S0_CR of a code that is none of the four (42 R142; a `v` that is
one of them: log entry 27). -/
def execCmdIllegal (v : Byte) (s : State) : Result := hostWrite s.cfg.aS0Cr v s

end Sys2Proof.Machine
end

