-- ==== Sys2Proof/Machine/Dispatch.lean ====
section
/-!
DEFINITION. One arm per operation of spec/opcode_table.json.
-/

namespace Sys2Proof.Machine

/-- The meaning of an operation. -/
def exec (i : Instr) (s : State) : Host.Outcome State Fault Refusal :=
  match i with
  | .rd8 a => Sys2Proof.Machine.execRd8 a s
  | .openSock => Sys2Proof.Machine.execOpen s
  | .closeSock => Sys2Proof.Machine.execClose s
  | .send => Sys2Proof.Machine.execSend s
  | .recv => Sys2Proof.Machine.execRecv s
  | .cmdIllegal v => Sys2Proof.Machine.execCmdIllegal v s
  | .swReset v => Sys2Proof.Machine.execSwReset v s
  | .w1c v => Sys2Proof.Machine.execW1c v s
  | .wr8 a v => Sys2Proof.Machine.execWr8 a v s
  | .mapTx p => Sys2Proof.Machine.execMapTx p s
  | .mapRx p => Sys2Proof.Machine.execMapRx p s
  | .splitTx p n => Sys2Proof.Machine.execSplitTx p n s
  | .splitRx p n => Sys2Proof.Machine.execSplitRx p n s
  | .rstAssert => Sys2Proof.Machine.execRstAssert s
  | .rstRelease => Sys2Proof.Machine.execRstRelease s

end Sys2Proof.Machine
end

