-- ==== Sys2Proof/Machine/Engine.lean ====
section
/-!
DEFINITION. The steps of the engine and of the network (42_socket_commands.md R144 to R156,
70_reset_and_hazards.md R196, R198). A step that is not enabled has no effect (log entry 9).
-/

namespace Sys2Proof.Machine

/-- OPEN acceptance (42 R144). The start pointers and the status are draws. -/
def acceptOpen (s : State) : State :=
  if s.macrawMode = false then raise s (.openMode s.s0mr)
  else
    let t := Config.freeWord s.draws
    let r := Config.freeWord (s.draws + 1)
    let init := Config.freeBool (s.draws + 2)
    { s with
      txRd := t
      txWr := t
      rxRd := r
      rxWr := r
      rxRdAcc := r
      mfLatched := bitAt s.s0mr s.cfg.s0MrMf
      s0sr := if init then s.cfg.srInit else s.cfg.srMacraw
      openPending := init
      cmdPending := none
      draws := s.draws + 3 }

/-- CLOSE acceptance (42 R147). -/
def acceptClose (s : State) : State :=
  { s with s0sr := s.cfg.srClosed, openPending := false, cmdPending := none }

/-- SEND acceptance (42 R149): the pointers are latched. -/
def acceptSend (s : State) : State :=
  if s.badSendSize then raise s (.sendLen s.txWr s.txRd)
  else
    { s with
      sendStart := s.txRd
      sendEnd := s.txWr
      raced := []
      sendBusy := true
      cmdPending := none }

/-- RECV acceptance (42 R152): the space up to RX_RD is free. When data remains, whether IR_RECV is
set again is a draw. -/
def acceptRecv (s : State) : State :=
  if s.recvPast then raise s (.recvOver s.rxRd s.rxWr s.rxRdAcc)
  else
    let t := { s with rxRdAcc := s.rxRd, cmdPending := none }
    if occ s.rxWr s.rxRd = 0 then t
    else if Config.freeBool s.draws then
      { setIr t s.cfg.irRecv with draws := s.draws + 1 }
    else { t with draws := s.draws + 1 }

/-- Acceptance of a pending command. -/
def acceptCmd (s : State) : Cmd → State
  | .openSock => acceptOpen s
  | .closeSock => acceptClose s
  | .send => acceptSend s
  | .recv => acceptRecv s

/-- OPEN completion (42 R145). -/
def openDone (s : State) : State := { s with s0sr := s.cfg.srMacraw, openPending := false }

/-- SEND completion (42 R150): the frame goes out, TX_RD moves, SENDOK is set. -/
def sendDone (s : State) : State :=
  setIr
    { s with
      netOut := s.netOut ++ [s.flightFrame s.draws]
      draws := s.draws + occ s.sendEnd s.sendStart
      txRd := s.sendEnd
      sendBusy := false
      raced := [] }
    s.cfg.irSendok

/-- The engine step is enabled: outside the resets in READY alone (42 R160, log entry 22). The
reserved-bit step is so whatever bits it sets, none included (42 R156). -/
def EngineStep.enabled (s : State) : EngineStep → Bool
  | .accept => s.cmdPending.isSome && s.phase == .ready
  | .openDone => s.openPending && s.phase == .ready
  | .sendDone => s.sendBusy && s.phase == .ready
  | .reservedIr _ => !s.cfg.otherIrQuiet && s.phase == .ready
  | .settle => s.phase == .settling
  | .resetDone => s.phase == .swReset

/-- The effect of an engine step, none when it is not enabled: outside the resets the engine moves
only in READY (42 R160, log entry 22). -/
def engineEffect (e : EngineStep) (s : State) : State :=
  match e with
  | .accept =>
    match s.cmdPending with
    | some c => if s.phase = .ready then acceptCmd s c else s
    | none => s
  | .openDone => if s.openPending = true ∧ s.phase = .ready then openDone s else s
  | .sendDone => if s.sendBusy = true ∧ s.phase = .ready then sendDone s else s
  | .reservedIr bits =>
    if s.cfg.otherIrQuiet = false ∧ s.phase = .ready then
      { s with s0ir := s.s0ir ||| (bits &&& reservedMask s.cfg) }
    else s
  | .settle => if s.phase = .settling then resetItems s else s
  | .resetDone => if s.phase = .swReset then resetItems (abortSend s) else s

/-- One engine step. -/
def engineStep (e : EngineStep) (s : State) : Result := act (engineEffect e) s

/-- A weakly fair engine step that is enabled, if any (42 R158). Of several, acceptance goes before
open completion and that before SEND completion: the model's choice, since 20 R72 lets any enabled
step come next (log entry 9). -/
def fairStep (s : State) : Option EngineStep :=
  match s.phase with
  | .hwReset => none
  | .settling => some .settle
  | .swReset => some .resetDone
  | .ready =>
    if s.cmdPending.isSome then some .accept
    else if s.openPending then some .openDone
    else if s.sendBusy then some .sendDone
    else none

/-- The MAC filter lets the frame through whatever the chip does: no filter is latched, or the
frame starts with SHAR (42 R155; shorter frames: log entry 19). -/
def filterPasses (s : State) (f : Frame) : Bool :=
  !s.mfLatched || (f.take 6 == s.shar.toList)

/-- A dropped frame (42 R153). -/
def dropFrame (s : State) : State := { s with netDrop := s.netDrop + 1 }

/-- A frame put into the RX ring, or dropped whole when it does not fit (42 R153, R154). -/
def deposit (f : Frame) (s : State) : State :=
  let total := hdrLen + f.length
  let h := prefixOf s.cfg f.length
  if s.rxFree < total then dropFrame s
  else
    setIr
      { s with
        mem := ringStore s.cfg .rx s.rxWr (hi8 h :: lo8 h :: f) s.mem
        rxWr := advance s.rxWr total }
      s.cfg.irRecv

/-- The list of bytes is a frame the network may offer (42 R153, log entry 17). -/
def offerEnabled (s : State) (f : Frame) : Bool := 0 < f.length && f.length ≤ s.cfg.maxFrame

/-- The network offers a frame of 1 to MAX_FRAME bytes (42 R153); any other list of bytes is no
offer (log entry 17). Whether the filter drops a frame not addressed to SHAR is a draw (42 R155). -/
def offerEffect (f : Frame) (s : State) : State :=
  if f.length = 0 ∨ s.cfg.maxFrame < f.length then s
  else if s.phase ≠ .ready ∨ s.s0sr ≠ s.cfg.srMacraw then dropFrame s
  else if filterPasses s f then deposit f s
  else if Config.freeBool s.draws then { dropFrame s with draws := s.draws + 1 }
  else deposit f { s with draws := s.draws + 1 }

/-- One network step. -/
def networkStep (f : Frame) (s : State) : Result := act (offerEffect f) s

end Sys2Proof.Machine
end

