-- ==== Sys2Proof/Machine/HostAgent.lean ====
section
/-!
DEFINITION. The host as an agent: words on ports, n-byte transactions (20_memory.md R67, R68;
41_bus_transactions.md R139, R140), the pseudo-instructions of 30_encoding.md R99 and the sequences
of 43_host_sequences.md R161 to R172; and the choice of the agent that moves (20_memory.md R72,
42_socket_commands.md R158). The host is not hardware: a host-only line changes `env` alone.
-/

namespace Sys2Proof.Machine

/-! ### Threads -/

/-- A host context's thread. -/
def Env.thread (e : Env) : Ctx → Thread
  | .app => e.app
  | .worker => e.worker

/-- The other context. -/
def Ctx.other : Ctx → Ctx
  | .app => .worker
  | .worker => .app

/-- Replace the world outside the block. -/
def State.withEnv (s : State) (e : Env) : State := { s with env := e }

/-- Replace a context's thread. -/
def State.withThread (s : State) (c : Ctx) (t : Thread) : State :=
  match c with
  | .app => s.withEnv { s.env with app := t }
  | .worker => s.withEnv { s.env with worker := t }

/-- A context's thread. -/
def State.thread (s : State) (c : Ctx) : Thread := s.env.thread c

/-- Put lines in front of a context's program. -/
def push (c : Ctx) (ops : List HostOp) (s : State) : State :=
  s.withThread c { s.thread c with prog := ops ++ (s.thread c).prog }

/-- The context may put a byte on the bus: the other one holds no lock and has no n-byte
transaction in progress (43 R161, 20 R68). -/
def busFree (s : State) (c : Ctx) : Bool :=
  (s.env.lock == none || s.env.lock == some c) && (s.thread c.other).xfer.isEmpty

/-- The line need not wait. `DELAY T_RST_SETTLE` ends only once the settle step has been taken
(70 R196), also where the reset input is asserted again meanwhile (log entry 20). -/
def opReady (s : State) (c : Ctx) : HostOp → Bool
  | .word (.tw _) => busFree s c
  | .block _ _ _ => busFree s c
  | .lock => busFree s c
  | .delaySettle => s.phase == .ready || s.phase == .swReset
  | .waitEdge seen => seen < s.intEdges
  | .acquireTx => !s.env.txGate
  | .waitRx => s.env.rxGate
  | .joinWorker => s.env.worker.prog.isEmpty && s.env.worker.xfer.isEmpty
  | _ => true

/-- The context has something to do and need not wait for it. -/
def canMove (s : State) (c : Ctx) : Bool :=
  match (s.thread c).xfer, (s.thread c).prog with
  | _ :: _, _ => busFree s c
  | [], op :: _ => opReady s c op
  | [], [] => false

/-! ### Words and transactions -/

/-- Take the transport's draw for the byte going on the bus (20 R85). -/
def drawBus (s : State) : State :=
  { s with
    busFails := s.env.busFaults.headD false
    env := { s.env with busFaults := s.env.busFaults.tail } }

/-- A byte or an atomic transaction goes on the bus. A read of the same bytes as the step before it
keeps the number of that read; any other takes the next one (20 R69, 41 R135, log entry 37). -/
def busStep (write : Bool) (a : Addr) (n : Nat) (s : State) : State :=
  s.withEnv
    { s.env with
      readNo := if s.env.lastRead = some (a, n) then s.env.readNo else s.env.readNo + 1
      lastRead := if write then none else some (a, n) }

/-- A step that is no read. -/
def otherStep (s : State) : State := s.withEnv { s.env with lastRead := none }

/-- A raw word takes a step. -/
def wordStep (w : RawWord) (s : State) : State :=
  match w with
  | .tw x => busStep (twWrite x) (twAddr x) 1 s
  | .mw _ => otherStep s
  | .ms _ => otherStep s
  | .pin _ => otherStep s

/-- A turn of the engine or the network is a step that is no read, if it is enabled. -/
def agentStep (enabled : Bool) : Result → Result
  | .next t =>
    .next (t.withEnv { t.env with lastRead := if enabled then none else t.env.lastRead })
  | .fault f => .fault f
  | .refused r => .refused r

/-- The state an operation decoded from a raw word starts in: a bus word takes its transport
draw. -/
def presented (w : RawWord) (s : State) : State :=
  match w with
  | .tw _ => drawBus s
  | .mw _ => s
  | .ms _ => s
  | .pin _ => s

/-- A raw word on its port: the operation it decodes to runs; an ill-formed word is refused before
any step (30 R96, 60 R186). -/
def runWord (w : RawWord) (s : State) : Result :=
  match decode s.cfg w with
  | .ok i => exec i (presented w s)
  | .error _ => .next (refuse s)

/-- The byte the port last answered. -/
def respByte : Response → Byte
  | .byte r => r
  | .none => 0
  | .addr _ => 0
  | .pieces _ => 0

/-- Keep the byte a read returned for the context that asked for it, unless the step stopped the
run. -/
def keepRead (c : Ctx) (w : BitVec 25) (t : State) : State :=
  if t.faults = [] ∧ t.refused = false ∧ twWrite w = false then
    t.withThread c { t.thread c with rdata := (t.thread c).rdata ++ [respByte t.resp] }
  else t

/-- One byte of an n-byte transaction (20 R67). -/
def blockByte (c : Ctx) (w : BitVec 25) (s : State) : Result :=
  match runWord (.tw w) s with
  | .next t => .next (keepRead c w t)
  | .fault f => .fault f
  | .refused r => .refused r

/-- The bytes of an n-byte transaction with WIDE_ATOMIC, up to the first that stops the run
(20 R68, 41 R140). -/
def blockBytes (c : Ctx) : List (BitVec 25) → State → Result
  | [], s => .next s
  | w :: ws, s =>
    match blockByte c w s with
    | .next t =>
      if t.faults = [] ∧ t.refused = false then blockBytes c ws t else .next t
    | .fault f => .fault f
    | .refused r => .refused r

/-- An atomic n-byte transaction is one step, with at most one edge (20 R68, 60 R177, log entry
23). -/
def atomically (s : State) : Result → Result
  | .next t => .next (noteEdge s { t with intEdges := s.intEdges })
  | .fault f => .fault f
  | .refused r => .refused r

/-- The words of an n-byte transaction: addresses a, a+1, ... in that order, with no mapping
(20 R67, 30 R91). -/
def blockWords (write : Bool) (a : Addr) : List Byte → List (BitVec 25)
  | [] => []
  | v :: vs => twWord write a v :: blockWords write (a + 1) vs

/-- An n-byte transaction begins: F_ADDR_WRAP past 0xFFFF before any byte (20 R67), all bytes at
once with WIDE_ATOMIC, the first byte now and the others in later steps without (20 R68). One of 0
bytes, for which no rule gives an outcome, has no effect (log entry 28). -/
def beginBlock (c : Ctx) (write : Bool) (a : Addr) (data : List Byte) (s : State) : Result :=
  if 65536 < a.toNat + data.length then .next (raise s (.addrWrap a data.length))
  else if s.cfg.wideAtomic then
    atomically s (blockBytes c (blockWords write a data) (busStep write a data.length s))
  else
    match blockWords write a data with
    | [] => .next s
    | w :: ws => blockByte c w (busStep write a 1 (s.withThread c { s.thread c with xfer := ws }))

/-! ### The lines of a host program -/

/-- `RD a, n` into empty read data (30 R99). -/
def rd (a : Addr) (n : Nat) : List HostOp := [.clear, .block false a (List.replicate n 0)]

/-- `WR16 a, x` (30 R99). -/
def wr16 (a : Addr) (x : Word) : HostOp := .block true a [hi8 x, lo8 x]

/-- `RDRING s, p, n`: one RD per piece of SPLIT(s, p, n) (30 R99, 40 R113). For n > SIZE, see `wrRing`. -/
def rdRing (b : Binding) (w : Win) (p : Word) (n : Nat) : List HostOp :=
  .clear :: (split b w p n).map fun x => .block false x.1 (List.replicate x.2 0)

/-- The WR blocks of the pieces of a split, each with its part of the bytes. -/
def wrPieces : List (Addr × Nat) → List Byte → List HostOp
  | [], _ => []
  | x :: xs, bytes => .block true x.1 (bytes.take x.2) :: wrPieces xs (bytes.drop x.2)

/-- `WRRING s, p, bytes`: one WR per piece of SPLIT(s, p, n) (30 R99, 40 R112). For n > SIZE, where
R112 gives no meaning, the pieces are those the formula of R104 gives, and the second runs past the
window end (log entry 29). -/
def wrRing (b : Binding) (w : Win) (p : Word) (bytes : List Byte) : List HostOp :=
  wrPieces (split b w p bytes.length) bytes

/-- be16 of the first two bytes read. -/
def Thread.word (t : Thread) : Word := be16 (t.rdata.headD 0) ((t.rdata.drop 1).headD 0)

/-- The first byte read. -/
def Thread.byte (t : Thread) : Byte := t.rdata.headD 0

/-- The WAITCMD poll of a command write and the end of its unit under the bus lock (30 R99, 43 R161). -/
def waitCmd (b : Binding) : List HostOp := [.poll b.aS0Cr 0xFF 0 none, .unlock]

/-- Give up the current operation: its result is reported and its remaining lines, up to its
`finish`, are dropped (43 R172). A context that holds the bus lock has written a command: it still
waits for the acceptance before it releases the lock, so that no second command can be written before
(43 R161, log entry 33). -/
def giveUp (c : Ctx) (r : HostResult) (s : State) : State :=
  let rest := ((s.thread c).prog.dropWhile fun op => match op with | .finish _ => false | _ => true).tail
  let unit := if s.env.lock = some c then waitCmd s.cfg else []
  let t := s.withThread c { s.thread c with prog := unit ++ rest }
  t.withEnv { t.env with results := t.env.results ++ [r] }

/-- The effect of a host-only line, already taken off the program of context `c`. -/
def hostLine (c : Ctx) (op : HostOp) (s : State) : State :=
  match op with
  | .word _ => s
  | .block _ _ _ => s
  | .clear => s.withThread c { s.thread c with rdata := [] }
  -- POLL8: read until (r AND m) = x, or give up after the reads of its bound (30 R99, 43 R172).
  | .poll _ _ _ (some (0, late)) => giveUp c late s
  | .poll a m x (some (k + 1, late)) => push c (rd a 1 ++ [.pollTest a m x (some (k, late))]) s
  | .poll a m x none => push c (rd a 1 ++ [.pollTest a m x none]) s
  | .pollTest a m x bound =>
    if (s.thread c).byte &&& m = x then s else push c [.poll a m x bound] s
  -- RD16S: repeat RD16 until two successive results are equal (30 R99, 70 R207).
  | .stable a prev => push c (rd a 2 ++ [.stableTest a prev]) s
  | .stableTest a prev =>
    let x := (s.thread c).word
    if prev = some x then s.withThread c { s.thread c with val := x }
    else push c [.stable a (some x)] s
  | .lock => s.withEnv { s.env with lock := some c }
  | .unlock => s.withEnv { s.env with lock := none }
  -- A command with its WAITCMD poll, one unit under the bus lock (43 R161).
  | .cmd k =>
    push c ([.lock, .block true s.cfg.aS0Cr [k.code s.cfg]] ++ waitCmd s.cfg) s
  | .delay => s
  | .delaySettle => s
  | .waitInt => push c [.waitEdge s.intEdges] s
  | .waitEdge _ => s
  | .acquireTx => s.withEnv { s.env with txGate := true }
  | .releaseTx => s.withEnv { s.env with txGate := false }
  -- The TX timeout path (43 R168), only if the gate is still held. It is taken where the program has
  -- this line: R168 says neither which context takes it nor when (log entry 32).
  | .txTimeout =>
    if s.env.txGate then s.withEnv { s.env with txGate := false, results := s.env.results ++ [.txTimeout] }
    else s
  -- The TX path (43 R166). A frame outside 1 to MAX_FRAME bytes is not checked here (log entry 29).
  | .send f =>
    push c ([.acquireTx] ++ rd s.cfg.aTxWr 2 ++ [.keepW, .stable s.cfg.aTxFsr none, .txCheck f]) s
  | .keepW => s.withThread c { s.thread c with w := (s.thread c).word }
  | .txCheck f =>
    if (s.thread c).val.toNat < f.length then push c [.releaseTx, .finish .txBufferFull] s
    else
      push c
        (wrRing s.cfg .tx (s.thread c).w f ++
          [wr16 s.cfg.aTxWr (advance (s.thread c).w f.length), .cmd .send, .finish .ok]) s
  -- The worker's pass (43 R170, and R167 on SENDOK).
  | .workerPass => push c (rd s.cfg.aS0Ir 1 ++ [.workerTest]) s
  | .workerTest =>
    let ir := (s.thread c).byte
    if ir = 0 then push c [.waitRx] s
    else
      push c
        ([.block true s.cfg.aS0Ir [ir]] ++
          (if bitAt ir s.cfg.irSendok then [.releaseTx] else []) ++
          (if bitAt ir s.cfg.irRecv then [.drain] else []) ++ [.workerPass]) s
  | .waitRx =>
    -- With the termination flag the worker ends without another pass (43 R171, log entry 31).
    let t := s.withEnv { s.env with rxGate := false }
    if s.env.stop then t else push c [.workerPass] t
  -- The RX drain (43 R169). A corrupt ring ends the drain, not the worker (log entry 30).
  | .drain => push c [.stable s.cfg.aRxRsr none, .drainSize] s
  | .drainSize =>
    if (s.thread c).val = 0 then s
    else
      push c (rd s.cfg.aRxRd 2 ++ [.drainHdr])
        (s.withThread c { s.thread c with n := (s.thread c).val })
  | .drainHdr =>
    push c (rdRing s.cfg .rx (s.thread c).word hdrLen ++ [.drainBody])
      (s.withThread c { s.thread c with q := (s.thread c).word })
  | .drainBody =>
    let body := (frameLen s.cfg (s.thread c).word).1
    let consumed := (frameLen s.cfg (s.thread c).word).2
    if body < 1 ∨ s.cfg.maxFrame < body ∨ (s.thread c).n.toNat < consumed then
      push c [.finish .corruptRing] s
    else
      push c
        (rdRing s.cfg .rx (advance (s.thread c).q hdrLen) body ++
          [.drainDone (BitVec.ofNat 16 consumed)]) s
  | .drainDone consumed =>
    push c
      [wr16 s.cfg.aRxRd ((s.thread c).q + consumed), .cmd .recv, .deliver (s.thread c).rdata, .drain] s
  | .deliver f => s.withEnv { s.env with delivered := s.env.delivered ++ [f] }
  -- MR.FD set in the byte just read, MR_RST kept clear (43 R163 step 3).
  | .setFd =>
    match s.cfg.mrFd with
    | some i =>
      push c [.block true s.cfg.aMr [setBit (setBit (s.thread c).byte s.cfg.mrRst false) i true]] s
    | none => s
  -- The worker starts with one pass (70 R214), and the callback is registered (43 R163 step 8), both in
  -- one host-only step (log entry 41). The termination flag of an earlier teardown is cleared, since the
  -- worker now runs again. A worker that still runs is replaced where it stands (log entry 42).
  | .startWorker =>
    s.withEnv
      { s.env with
        stop := false
        callback := true
        worker := { s.env.worker with prog := [.workerPass] } }
  -- Teardown: signal the RX gate with the termination flag, then join the worker (43 R171). The
  -- callback stays registered, so a later edge still signals the RX gate (log entry 36).
  | .teardown => s.withEnv { s.env with stop := true, rxGate := true }
  | .joinWorker => s
  | .finish r => s.withEnv { s.env with results := s.env.results ++ [r] }

/-- A line of a program runs: a word or an n-byte transaction on the bus, or a host-only line. -/
def runOp (c : Ctx) (op : HostOp) (s : State) : Result :=
  match op with
  | .word w => runWord w (wordStep w s)
  | .block write a data => beginBlock c write a data s
  | op => .next (hostLine c op s)

/-- A host context's turn: the next byte of its transaction in progress, else its next line. A
context that must wait lets its turn pass. -/
def hostTurn (c : Ctx) (s : State) : Result :=
  if canMove s c = false then .next s
  else
    match (s.thread c).xfer, (s.thread c).prog with
    | w :: ws, _ =>
      blockByte c w
        (busStep (twWrite w) (twAddr w) 1 (s.withThread c { s.thread c with xfer := ws }))
    | [], op :: rest => runOp c op (s.withThread c { s.thread c with prog := rest })
    | [], [] => .next s

/-! ### The sequences of 43 -/

/-- Open socket 0 (43 R164), as a part of an operation that ends in a `finish`. PROTO_MACRAW is written
as the value of the field S0_MR_PROTO, at the place of that field (00 R13, log entry 38). The S0_SR poll
comes right after the write, and the WAITCMD of 43 R161 after that poll, under the same lock (log entry
33). -/
def openSeq (b : Binding) (filter : Bool) (tries : Nat) : List HostOp :=
  [.block true b.aS0Mr [setBit (b.protoMacraw <<< b.protoLo.val) b.s0MrMf filter],
   .lock, .block true b.aS0Cr [b.cmdOpen],
   .poll b.aS0Sr 0xFF b.srMacraw (some (tries, .socketOpenTimeout))] ++ waitCmd b

/-- Close socket 0 (43 R165). The host takes the TX gate first, and releases it whether or not the
S0_SR poll is given up (log entry 34). -/
def closeSeq (b : Binding) (tries : Nat) : List HostOp :=
  [.acquireTx, .cmd .closeSock, .poll b.aS0Sr 0xFF b.srClosed (some (tries, .socketCloseTimeout)),
   .finish .ok, .releaseTx]

/-- Set the duplex bit, where the binding has one (43 R163 step 3). -/
def duplexSeq (b : Binding) (fullDuplex : Bool) : List HostOp :=
  if fullDuplex && b.mrFd.isSome then rd b.aMr 1 ++ [.setFd] else []

/-- Bring-up (43 R163, 70 R201): `mac` in transmission order, all of it written from A_SHAR whatever its
length, which is not checked (log entry 39); `fullDuplex` and `filter` the
options, the counts how many reads the two polls make before the host gives up. -/
def bringUpSeq (b : Binding) (mac : List Byte) (fullDuplex filter : Bool) (resetTries openTries : Nat) :
    List HostOp :=
  [.word (encode b .rstAssert), .delay, .word (encode b .rstRelease), .delaySettle,
   .block true b.aMr [maskOf b.mrRst],
   .poll b.aMr (maskOf b.mrRst) 0 (some (resetTries, .initTimeout))] ++
  duplexSeq b fullDuplex ++
  [.block true b.aShar mac, wr16 b.aRtr rtrDefault] ++
  openSeq b filter openTries ++
  [.block true b.aImr [maskOf b.irS0], .startWorker, .finish .ok]

/-- Teardown (43 R171). Once the worker has ended, no SENDOK is seen any more, so a TX gate still
held takes its timeout (43 R168, log entry 31). The socket is not closed: R171 says that is not in the
source and leaves it open; a program may put `closeSeq` before it (log entry 35). -/
def teardownSeq : List HostOp := [.teardown, .joinWorker, .txTimeout, .finish .ok]

/-- The host's results, with the BusError of a transaction that raised F_BUS (60 R187). -/
def State.hostResults (s : State) : List HostResult :=
  s.env.results ++ s.faults.filterMap fun f => match f with | .bus _ _ => some .busError | _ => none

/-! ### Whose turn -/

/-- A turn of the schedule (20 R72). -/
def takeTurn (t : Turn) (s : State) : Result :=
  match t with
  | .host c => hostTurn c s
  | .engine e => agentStep (e.enabled s) (engineStep e s)
  | .network f => agentStep (offerEnabled s f) (networkStep f s)

/-- The next move: the turn the schedule lists; with none listed, a fair engine step if one is
enabled (42 R158), else a host context that can move, else nothing (log entry 9). -/
def nextMove (s : State) : Result :=
  match s.env.turns with
  | t :: ts => takeTurn t (s.withEnv { s.env with turns := ts })
  | [] =>
    match fairStep s with
    | some e => agentStep (e.enabled s) (engineStep e s)
    | none => if canMove s .app then hostTurn .app s else hostTurn .worker s

/-- The host's interrupt callback on an edge of the line: it signals the RX gate, unless it is not
registered yet or the host's GPIO misses the edge (43 R162, 70 R214, log entry 25). -/
def onEdge (s t : State) : State :=
  if s.intEdges < t.intEdges then
    t.withEnv
      { t.env with
        rxGate := t.env.rxGate || (t.env.callback && !t.env.edgeMisses.headD false)
        edgeMisses := t.env.edgeMisses.tail }
  else t

/-- The callback runs after a step that makes an edge. -/
def signal (s : State) : Result → Result
  | .next t => .next (onEdge s t)
  | .fault f => .fault f
  | .refused r => .refused r

/-- `s` with a raw word as the very next thing the host does: its turn is next, the word is the
first line of its program, and nothing holds the bus. -/
def State.withWord (s : State) (w : RawWord) : State :=
  s.withEnv
    { s.env with
      turns := .host .app :: s.env.turns
      app := { s.env.app with prog := .word w :: s.env.app.prog, xfer := [] }
      worker := { s.env.worker with xfer := [] }
      lock := none }

end Sys2Proof.Machine
end

