-- ==== Sys2Proof/Machine/Step.lean ====
section
/-!
DEFINITION. One step of the machine, and where its next word is put.
-/

namespace Sys2Proof.Machine

/-- One step: the next agent moves, unless the run is over (60 R185, R186). -/
def step (s : State) : Host.Outcome State Fault Refusal := gate s (signal s (nextMove s))

/-- `s` with the word numbered `w` of the opcode table put where the next step takes it. The block
fetches no program: its host puts words on its ports (10 R57, log entry 14). -/
def State.withFetchWord (s : State) (nbits w : Nat) : State := s.withWord (rawOfTable nbits w)

end Sys2Proof.Machine
end

