-- ==== Sys2Proof/Safety.lean ====
section
/-!
DEFINITION. The terms claims use: when the machine can still step, what the host's duties keep, and
the invariant of the block.
-/

namespace Sys2Proof.Machine

/-- A step can be taken: no fault is recorded, nothing was refused, and the binding keeps its
constraints (60 R185, R186). -/
abbrev State.live (s : State) : Prop :=
  s.faults = [] ∧ s.refused = false ∧ bindingValid s.cfg = true

/-- The byte on the bus reaches a block that admits writes: the transport does not fail it and the
phase is READY (41 R117, 60 R184). -/
abbrev State.admitsWrite (s : State) : Prop := s.busFails = false ∧ s.phase = .ready

/-- As `admitsWrite` for a read at `a`, which SW_RESET admits at A_MR only (41 R116, 70 R200). -/
abbrev State.admitsRead (s : State) (a : Addr) : Prop :=
  s.busFails = false ∧ (s.phase = .ready ∨ s.phase = .swReset ∧ a = s.cfg.aMr)

/-- The host's TX duty (43 R166, 10 R59): the TX occupancy is at most SIZE. -/
abbrev State.txDuty (s : State) : Prop := occ s.txWr s.txRd ≤ s.cfg.size

/-- An address of a ring window, as a memory key. -/
abbrev windowKey (b : Binding) (k : Nat) : Prop :=
  b.txBase.toNat ≤ k ∧ k < b.txBase.toNat + b.size ∨ b.rxBase.toNat ≤ k ∧ k < b.rxBase.toNat + b.size

/-- The phase is one in which the registers are live: READY, or SW_RESET before completion. -/
abbrev State.running (s : State) : Prop := s.phase = .ready ∨ s.phase = .swReset

/-- A strictly rising list of positions. -/
def rising : List Word → Bool
  | [] => true
  | [_] => true
  | x :: y :: rest => x < y && rising (y :: rest)

/-- S0_SR holds one of its three codes (10 R38). -/
abbrev State.statusOk (s : State) : Prop :=
  s.s0sr = s.cfg.srClosed ∨ s.s0sr = s.cfg.srInit ∨ s.s0sr = s.cfg.srMacraw

/-- Ring memory is canonical and lies in the windows (10 R46, R47). -/
abbrev State.memOk (s : State) : Prop :=
  Memory.wf s.mem = true ∧ ∀ c ∈ s.mem, windowKey s.cfg c.1

/-- The stored MR has bit MR_RST clear (41 R118). -/
abbrev State.mrOk (s : State) : Prop := bitAt s.mr s.cfg.mrRst = false

/-- The RX occupancy is at most SIZE while the socket is not CLOSED (10 R59). -/
abbrev State.rxBound (s : State) : Prop :=
  s.s0sr ≠ s.cfg.srClosed → occ s.rxWr s.rxRdAcc ≤ s.cfg.size

/-- In HW_RESET and SETTLING nothing is pending (70 R195). -/
abbrev State.resetOk (s : State) : Prop :=
  s.running ∨ (s.sendBusy = false ∧ s.cmdPending = none ∧ s.openPending = false)

/-- open_pending holds exactly while S0_SR = SR_INIT, outside a hardware reset (10 R51). -/
abbrev State.openOk (s : State) : Prop :=
  s.openPending = true ↔ s.s0sr = s.cfg.srInit ∧ s.running

/-- What a pending command's write checks leave true until its acceptance (42 R143, R146, R148,
R151). -/
abbrev State.pendingOk (s : State) : Prop :=
  (s.cmdPending = some .openSock → s.s0sr = s.cfg.srClosed) ∧
  (s.cmdPending = some .closeSock → s.sendBusy = false) ∧
  (s.cmdPending = some .send → s.s0sr = s.cfg.srMacraw ∧ s.sendBusy = false) ∧
  (s.cmdPending = some .recv → s.s0sr = s.cfg.srMacraw)

/-- A SEND in flight has 1 to min(SIZE, MAX_FRAME) bytes, starts at TX_RD, and its raced positions
lie in it; with none in flight nothing is raced (10 R50, 42 R149). -/
abbrev State.flightOk (s : State) : Prop :=
  (s.sendBusy = true → s.s0sr = s.cfg.srMacraw ∧ s.txRd = s.sendStart ∧
    0 < occ s.sendEnd s.sendStart ∧ occ s.sendEnd s.sendStart ≤ min s.cfg.size s.cfg.maxFrame ∧
    ∀ p ∈ s.raced, occ p s.sendStart < occ s.sendEnd s.sendStart) ∧
  (s.sendBusy = false → s.raced = []) ∧ rising s.raced = true

/-- Every frame sent has 1 to MAX_FRAME bytes (10 R55). -/
abbrev State.outOk (s : State) : Prop :=
  ∀ f ∈ s.netOut, 1 ≤ f.length ∧ f.length ≤ s.cfg.maxFrame

/-- At most one fault is ever recorded (60 R185). -/
abbrev State.faultsOk (s : State) : Prop := s.faults.length ≤ 1

/-- The chip address a bus write stores to, none for a read, a mapper word or a reset level. -/
def writeTarget (b : Binding) : Instr → Option Addr
  | .rd8 _ => none
  | .openSock => some b.aS0Cr
  | .closeSock => some b.aS0Cr
  | .send => some b.aS0Cr
  | .recv => some b.aS0Cr
  | .cmdIllegal _ => some b.aS0Cr
  | .swReset _ => some b.aMr
  | .w1c _ => some b.aS0Ir
  | .wr8 a _ => some a
  | .mapTx _ => none
  | .mapRx _ => none
  | .splitTx _ _ => none
  | .splitRx _ _ => none
  | .rstAssert => none
  | .rstRelease => none

/-- The operation that writes a command to S0_CR (30 R92). -/
def cmdInstr : Cmd → Instr
  | .openSock => .openSock
  | .closeSock => .closeSock
  | .send => .send
  | .recv => .recv

/-- The address is in no region of 20 R62: in no bound register and in neither window. -/
abbrev unmapped (b : Binding) (a : Addr) : Prop :=
  (∀ r : Reg, ∀ x, r.base b = some x → ¬(x.toNat ≤ a.toNat ∧ a.toNat < x.toNat + r.len)) ∧
  inWindow b .tx a = false ∧ inWindow b .rx a = false

/-- Do the second step where the first answers a next state. -/
def thenDo (r : Result) (k : State → Result) : Result :=
  match r with
  | .next t => k t
  | .fault f => .fault f
  | .refused e => .refused e

/-- The WR8 of each byte of RINGWRITE(TX, p, bytes), in order, with no other step between
(40 R112). -/
def ringWrites (p : Word) : List Byte → State → Result
  | [], s => .next s
  | v :: vs, s => thenDo (exec (.wr8 (mapAt s.cfg .tx p) v) s) (ringWrites (p + 1) vs)

/-- The TX path of 43 R166 from an empty TX ring, steps 4 to 6, then the acceptance and the
completion of the SEND, with no other step between. -/
def txPath (f : Frame) (s : State) : Result :=
  let w := s.txWr
  let x := advance w f.length
  thenDo (ringWrites w f s) fun s =>
  thenDo (exec (.wr8 s.cfg.aTxWr (hi8 x)) s) fun s =>
  thenDo (exec (.wr8 (s.cfg.aTxWr + 1) (lo8 x)) s) fun s =>
  thenDo (exec .send s) fun s =>
  thenDo (engineStep .accept s) fun s => engineStep .sendDone s

/-- The invariant of the block. -/
abbrev State.Inv (s : State) : Prop :=
  s.statusOk ∧ s.memOk ∧ s.mrOk ∧ s.rxBound ∧ s.resetOk ∧ s.openOk ∧ s.pendingOk ∧ s.flightOk ∧
  s.outOk ∧ s.faultsOk

end Sys2Proof.Machine
end

