-- ==== Sys2Proof/Certificates/Slice0/Obligations.lean ====
section
/-!
DEFINITION. The statements for the provers. Each docstring names the rules of spec/ it formalises.
`State.live` is a state in which a step may be taken (60 R185, R186), `admitsWrite` and `admitsRead`
are the checks of 41 R116 and R117 that come before the address is looked up, and `noteEdge s t` is
`t` with the edge of the interrupt line from `s` to `t` counted (60 R177).
-/

open Sys2Proof Sys2Proof.Machine

/-! ### Encoding -/

/-- 30 R95: the words of the spec's decode table decode to the operations it names. -/
def Obligations.SampleWordsDecode : Prop :=
  decodeTableWord 32 0x0042400 = some (.rd8 0x0424) ∧
  decodeTableWord 32 0x1040101 = some .openSock ∧
  decodeTableWord 32 0x1040110 = some .closeSock ∧
  decodeTableWord 32 0x1040120 = some .send ∧
  decodeTableWord 32 0x1040140 = some .recv ∧
  decodeTableWord 32 0x1040102 = some (.cmdIllegal 0x02) ∧
  decodeTableWord 32 0x10000FF = some (.swReset 0xFF) ∧
  decodeTableWord 32 0x100007F = some (.wr8 0x0000 0x7F) ∧
  decodeTableWord 32 0x1040210 = some (.w1c 0x10) ∧
  decodeTableWord 32 0x1042554 = some (.wr8 0x0425 0x54) ∧
  decodeTableWord 32 0x0040201 = none ∧
  decodeTableWord 24 0x0ABCD = some (.mapTx 0xABCD) ∧
  decodeTableWord 24 0x1ABCD = some (.mapRx 0xABCD) ∧
  decodeTableWord 40 0x01FF00064 = some (.splitTx 0x1FF0 100) ∧
  decodeTableWord 40 0x11FFF0002 = some (.splitRx 0x1FFF 2) ∧
  decodeTableWord 40 0x012342001 = none ∧
  decodeTableWord 8 0 = some .rstAssert ∧
  decodeTableWord 8 1 = some .rstRelease

/-- 30 R95: under every valid binding, decoding the word of a well-formed operation gives it back,
with every operand at every value. -/
def Obligations.DecodeOfEncode : Prop :=
  ∀ (b : Binding) (i : Instr), bindingValid b = true → i.wf b = true → decode b (encode b i) = .ok i

/-- 30 R95, R97: a word that decodes is the one word of what it decodes to, which is well-formed. -/
def Obligations.EncodeOfDecode : Prop :=
  ∀ (b : Binding) (w : RawWord) (i : Instr), decode b w = .ok i → i.wf b = true ∧ encode b i = w

/-- 30 R96: the ill-formed words are the read words with data and the split words with n > SIZE. -/
def Obligations.IllFormedWords : Prop :=
  ∀ (b : Binding) (w : RawWord), (∃ e, decode b w = .error e) ↔
    (∃ x, w = .tw x ∧ x.getLsbD 24 = false ∧ x.extractLsb' 0 8 ≠ 0) ∨
    (∃ x, w = .ms x ∧ b.size < (x.extractLsb' 0 16).toNat)

/-- 60 R186: an ill-formed word is refused before any step of the block and sets `refused`, and so
does an operation the spec gives no meaning. The rest is the model's choice: that a split longer than
SIZE and every operation and step under an invalid binding count as such, that the refusing step is a
next state, and that nothing moves afterwards (log entry 2); and that a binding with overlapping
registers, or one that breaks 92 D4, is invalid (log entry 16). -/
def Obligations.RefusalStopsTheRun : Prop :=
  (∀ (s : State) (w : RawWord) (e : Reject), s.live → decode s.cfg w = .error e →
    ∃ t, step (s.withWord w) = .next t ∧ t = { s with refused := true, env := t.env }) ∧
  (∀ (s : State) (p : Word) (n : BitVec 16), s.live → s.cfg.size < n.toNat →
    exec (.splitTx p n) s = .next { s with refused := true } ∧
    exec (.splitRx p n) s = .next { s with refused := true }) ∧
  (∀ s : State, s.faults = [] → s.refused = false → bindingValid s.cfg = false →
    step s = .next { s with refused := true } ∧
    ∀ i, exec i s = .next { s with refused := true }) ∧
  (∀ s : State, s.faults = [] → s.refused = true →
    step s = .refused .declined ∧ ∀ i, exec i s = .refused .declined)

/-- 30 R95: when a raw word that decodes to `i` is placed as the next thing the TX calling context
does, a step is `exec i` on the state with the word taken off the program. The surroundings are the
model's: how the word is placed, with the lock and any transaction in progress taken off the bus
(log entry 14), the transport's report from a list (log entry 10), the number of the read (`wordStep`,
log entry 37), and the host's interrupt callback in the same step (`signal`, log entry 25), which
changes the host's gate alone. -/
def Obligations.StepRunsDecodedWord : Prop :=
  ∀ (s : State) (w : RawWord) (i : Instr), s.live → decode s.cfg w = .ok i →
    let taken := s.withEnv
      { s.env with
        app := { s.env.app with xfer := [] }
        worker := { s.env.worker with xfer := [] }
        lock := none }
    step (s.withWord w) = signal taken (exec i (presented w (wordStep w taken)))

/-! ### The mapper -/

/-- 40 R101, R102, R103: MAP(s, p) = BASE(s) + (p mod SIZE), inside the window, in every phase; the
port changes nothing but its answer. -/
def Obligations.MapTranslates : Prop :=
  ∀ (s : State) (p : Word), s.live →
    (∃ a : Addr, exec (.mapTx p) s = .next { s with resp := .addr a } ∧
      a.toNat = s.cfg.txBase.toNat + p.toNat % s.cfg.size ∧
      s.cfg.txBase.toNat ≤ a.toNat ∧ a.toNat < s.cfg.txBase.toNat + s.cfg.size) ∧
    (∃ a : Addr, exec (.mapRx p) s = .next { s with resp := .addr a } ∧
      a.toNat = s.cfg.rxBase.toNat + p.toNat % s.cfg.size ∧
      s.cfg.rxBase.toNat ≤ a.toNat ∧ a.toNat < s.cfg.rxBase.toNat + s.cfg.size)

/-- 40 R104: the pieces of a split of at most SIZE bytes, at most two, and byte i of the transfer, in
piece order, is at MAP(s, p +16 i). The port changes nothing but its answer. A longer split is
refused: `RefusalStopsTheRun`. -/
def Obligations.SplitPieces : Prop :=
  ∀ (s : State) (w : Win) (p : Word) (n : BitVec 16), s.live → n.toNat ≤ s.cfg.size →
    let i : Instr := match w with
      | .tx => .splitTx p n
      | .rx => .splitRx p n
    let off := p.toNat % s.cfg.size
    let base := winBase s.cfg w
    ∃ ps : List (Addr × Nat),
      exec i s = .next { s with resp := .pieces ps } ∧
      ps = (if n.toNat = 0 then []
        else if off + n.toNat ≤ s.cfg.size then [(base + BitVec.ofNat 16 off, n.toNat)]
        else [(base + BitVec.ofNat 16 off, s.cfg.size - off), (base, n.toNat - (s.cfg.size - off))]) ∧
      ps.flatMap (fun x => (List.range x.2).map fun k => x.1 + BitVec.ofNat 16 k) =
        (List.range n.toNat).map fun k => mapAt s.cfg w (p + BitVec.ofNat 16 k)

/-- 40 R105, R106, R110: ADVANCE and OCC are arithmetic mod 2^16, a full ring differs from an empty
one, and the wrap at 2^16 agrees with the wrap at SIZE. -/
def Obligations.PointerArithmetic : Prop :=
  ∀ b : Binding, bindingValid b = true →
    (∀ (p : Word) (n : Nat), (advance p n).toNat = (p.toNat + n) % 65536) ∧
    (∀ wr rd : Word, occ wr rd = (wr.toNat + (65536 - rd.toNat)) % 65536) ∧
    (∀ p : Word, occ p p = 0 ∧ occ (advance p b.size) p = b.size ∧ 0 < b.size) ∧
    (∀ x : Nat, x % 65536 % b.size = x % b.size) ∧
    (∀ (w : Win) (p : Word) (n : Nat),
      (mapAt b w (advance p n)).toNat = (winBase b w).toNat + (p.toNat % b.size + n) % b.size)

/-- 40 R112, R113: RINGWRITE(TX, p, bytes) completes, stores each byte at MAP(TX, p +16 i), changes
no other byte and nothing else but `raced`, and RINGREAD returns the bytes written, whatever the
wrap. -/
def Obligations.RingWriteReadsBack : Prop :=
  ∀ (s : State) (p : Word) (bytes : List Byte), s.live → s.admitsWrite →
    bytes.length ≤ s.cfg.size →
    ∃ t, ringWrites p bytes s = .next t ∧ t = { s with mem := t.mem, raced := t.raced } ∧
      (∀ (i : Nat) (h : i < bytes.length),
        exec (.rd8 (mapAt s.cfg .tx (p + BitVec.ofNat 16 i))) t =
          .next { t with resp := .byte bytes[i] }) ∧
      (∀ a : Addr, (∀ i < bytes.length, mapAt s.cfg .tx (p + BitVec.ofNat 16 i) ≠ a) →
        t.ringByte a = s.ringByte a)

/-! ### Register reads and writes -/

/-- 41 R120, R124, R125: GAR, SHAR, RTR (big-endian) and S0_MR return the stored byte and store the
written one, and nothing else changes. -/
def Obligations.ConfigBytesReadAndWrite : Prop :=
  ∀ (s : State) (v : Byte), s.live → s.admitsWrite →
    (∀ i : Fin 4,
      exec (.rd8 (s.cfg.aGar + BitVec.ofNat 16 i)) s = .next { s with resp := .byte s.gar[i] } ∧
      exec (.wr8 (s.cfg.aGar + BitVec.ofNat 16 i) v) s = .next { s with gar := s.gar.set i v }) ∧
    (∀ i : Fin 6,
      exec (.rd8 (s.cfg.aShar + BitVec.ofNat 16 i)) s = .next { s with resp := .byte s.shar[i] } ∧
      exec (.wr8 (s.cfg.aShar + BitVec.ofNat 16 i) v) s = .next { s with shar := s.shar.set i v }) ∧
    exec (.rd8 s.cfg.aRtr) s = .next { s with resp := .byte (s.rtr.extractLsb' 8 8) } ∧
    exec (.rd8 (s.cfg.aRtr + 1)) s = .next { s with resp := .byte (s.rtr.extractLsb' 0 8) } ∧
    exec (.wr8 s.cfg.aRtr v) s = .next { s with rtr := v ++ s.rtr.extractLsb' 0 8 } ∧
    exec (.wr8 (s.cfg.aRtr + 1) v) s = .next { s with rtr := s.rtr.extractLsb' 8 8 ++ v } ∧
    exec (.rd8 s.cfg.aS0Mr) s = .next { s with resp := .byte s.s0mr } ∧
    exec (.wr8 s.cfg.aS0Mr v) s = .next { s with s0mr := v }

/-- 41 R123, R131: IMR and S0_IMR return the stored byte and store the written one; the write may
move the interrupt line and changes nothing else. Setting IMR.IR_S0 while s0_int holds asserts the
line at once, an edge if it was deasserted. Where the binding has no S0_IMR every S0_IR bit is
unmasked. -/
def Obligations.MaskRegistersReadAndWrite : Prop :=
  ∀ (s : State) (v : Byte), s.live → s.admitsWrite →
    exec (.rd8 s.cfg.aImr) s = .next { s with resp := .byte s.imr } ∧
    exec (.wr8 s.cfg.aImr v) s = .next (noteEdge s { s with imr := v }) ∧
    (v.getLsbD s.cfg.irS0 = true → s.s0Int = true →
      ∃ t, exec (.wr8 s.cfg.aImr v) s = .next t ∧ t.intAsserted = true ∧
        t.intEdges = s.intEdges + if s.intAsserted then 0 else 1) ∧
    (∀ a, s.cfg.aS0Imr = some a →
      exec (.rd8 a) s = .next { s with resp := .byte s.s0imr } ∧
      exec (.wr8 a v) s = .next (noteEdge s { s with s0imr := v })) ∧
    (s.cfg.aS0Imr = none → s.s0Int = (s.s0ir != 0))

/-- 41 R134, R136: TX_WR and RX_RD, big-endian: a read returns the selected byte, a write replaces
it and keeps the other, with no bound check, and nothing else changes. -/
def Obligations.PointerRegistersReadAndWrite : Prop :=
  ∀ (s : State) (v : Byte), s.live → s.admitsWrite →
    exec (.rd8 s.cfg.aTxWr) s = .next { s with resp := .byte (s.txWr.extractLsb' 8 8) } ∧
    exec (.rd8 (s.cfg.aTxWr + 1)) s = .next { s with resp := .byte (s.txWr.extractLsb' 0 8) } ∧
    exec (.wr8 s.cfg.aTxWr v) s = .next { s with txWr := v ++ s.txWr.extractLsb' 0 8 } ∧
    exec (.wr8 (s.cfg.aTxWr + 1) v) s = .next { s with txWr := s.txWr.extractLsb' 8 8 ++ v } ∧
    exec (.rd8 s.cfg.aRxRd) s = .next { s with resp := .byte (s.rxRd.extractLsb' 8 8) } ∧
    exec (.rd8 (s.cfg.aRxRd + 1)) s = .next { s with resp := .byte (s.rxRd.extractLsb' 0 8) } ∧
    exec (.wr8 s.cfg.aRxRd v) s = .next { s with rxRd := v ++ s.rxRd.extractLsb' 0 8 } ∧
    exec (.wr8 (s.cfg.aRxRd + 1) v) s = .next { s with rxRd := s.rxRd.extractLsb' 8 8 ++ v }

/-- 41 R130, R133, R137: S0_SR, TX_RD and RX_WR (where bound) return the register's byte and
nothing else changes; S0_SR holds one of its three codes in every state that keeps 10 R38. -/
def Obligations.EngineRegistersRead : Prop :=
  ∀ s : State, s.live → s.admitsWrite →
    exec (.rd8 s.cfg.aS0Sr) s = .next { s with resp := .byte s.s0sr } ∧
    (s.statusOk → s.s0sr ∈ [s.cfg.srClosed, s.cfg.srInit, s.cfg.srMacraw]) ∧
    exec (.rd8 s.cfg.aTxRd) s = .next { s with resp := .byte (s.txRd.extractLsb' 8 8) } ∧
    exec (.rd8 (s.cfg.aTxRd + 1)) s = .next { s with resp := .byte (s.txRd.extractLsb' 0 8) } ∧
    ∀ a, s.cfg.aRxWr = some a →
      exec (.rd8 a) s = .next { s with resp := .byte (s.rxWr.extractLsb' 8 8) } ∧
      exec (.rd8 (a + 1)) s = .next { s with resp := .byte (s.rxWr.extractLsb' 0 8) }

/-- 41 R138, R122: a write to any byte of IR, S0_SR, TX_FSR, TX_RD, RX_RSR or RX_WR records
F_RO_WRITE and does nothing else. -/
def Obligations.ReadOnlyWriteFaults : Prop :=
  ∀ (s : State) (r : Reg) (x a : Addr) (v : Byte), s.live → s.admitsWrite →
    r ∈ [Reg.ir, .s0sr, .txFsr, .txRd, .rxRsr, .rxWr] → r.base s.cfg = some x →
    x.toNat ≤ a.toNat → a.toNat < x.toNat + r.len →
    exec (.wr8 a v) s = .next { s with faults := [.roWrite a v] }

/-- 40 R107, R108 and 41 R132, R135: TX_FSR and RX_RSR as read, big-endian. Above SIZE the free size
is any value; while RX_RD and rx_rd_acc differ the received size is counted from either. A read changes
nothing but the answer, and made again as the very next step it answers the same (20 R69). That such a
repetition is no fresh draw, where R107 and R135 draw, is the model's reading (log entry 37). -/
def Obligations.SizeRegistersRead : Prop :=
  ∀ s : State, s.live → s.admitsWrite →
    (∃ x : Word, (occ s.txWr s.txRd ≤ s.cfg.size → x.toNat = s.cfg.size - occ s.txWr s.txRd) ∧
      exec (.rd8 s.cfg.aTxFsr) s = .next { s with resp := .byte (x.extractLsb' 8 8) } ∧
      exec (.rd8 (s.cfg.aTxFsr + 1)) s = .next { s with resp := .byte (x.extractLsb' 0 8) }) ∧
    (s.rxRd = s.rxRdAcc →
      exec (.rd8 s.cfg.aRxRsr) s =
        .next { s with resp := .byte ((s.rxWr - s.rxRdAcc).extractLsb' 8 8) } ∧
      exec (.rd8 (s.cfg.aRxRsr + 1)) s =
        .next { s with resp := .byte ((s.rxWr - s.rxRdAcc).extractLsb' 0 8) }) ∧
    (s.rxRd ≠ s.rxRdAcc → ∃ r : Word, (r = s.rxRdAcc ∨ r = s.rxRd) ∧
      exec (.rd8 s.cfg.aRxRsr) s =
        .next { s with resp := .byte ((s.rxWr - r).extractLsb' 8 8) } ∧
      exec (.rd8 (s.cfg.aRxRsr + 1)) s =
        .next { s with resp := .byte ((s.rxWr - r).extractLsb' 0 8) }) ∧
    (s.env.busFaults = [] →
      ∀ a ∈ [s.cfg.aTxFsr, s.cfg.aTxFsr + 1, s.cfg.aRxRsr, s.cfg.aRxRsr + 1], ∃ t u,
        step (s.withWord (.tw (twWord false a 0))) = .next t ∧
        step (t.withWord (.tw (twWord false a 0))) = .next u ∧ u.resp = t.resp)

/-- 41 R121, 60 R174, R175: IR reads the socket-0 summary at bit IR_S0, which holds exactly when an
S0_IR bit is set that S0_IMR lets through (any, where the binding has no S0_IMR); its other bits are
a fresh draw. Nothing else changes. -/
def Obligations.InterruptRegisterRead : Prop :=
  ∀ s : State, s.live → s.admitsWrite →
    (∃ r : Byte, exec (.rd8 s.cfg.aIr) s = .next { s with resp := .byte r, draws := s.draws + 1 } ∧
      r.getLsbD s.cfg.irS0 = s.s0Int) ∧
    (s.s0Int = true ↔
      ∃ j < 8, s.s0ir.getLsbD j = true ∧ (s.cfg.aS0Imr = none ∨ s.s0imr.getLsbD j = true))

/-- 41 R126: S0_CR reads the code of the pending command, or 0, and nothing changes. -/
def Obligations.CommandRegisterRead : Prop :=
  ∀ s : State, s.live → s.admitsWrite →
    let code : Byte := match s.cmdPending with
      | none => 0
      | some .openSock => s.cfg.cmdOpen
      | some .closeSock => s.cfg.cmdClose
      | some .send => s.cfg.cmdSend
      | some .recv => s.cfg.cmdRecv
    exec (.rd8 s.cfg.aS0Cr) s = .next { s with resp := .byte code }

/-- 41 R118: a read of MR gives the stored bits with bit MR_RST replaced, 1 exactly in SW_RESET, and
changes nothing; a write in READY with MR_RST clear stores every bit and starts nothing. -/
def Obligations.ModeRegisterReadAndWrite : Prop :=
  ∀ s : State, s.live → s.busFails = false →
    (s.phase = .ready ∨ s.phase = .swReset → ∃ r : Byte,
      exec (.rd8 s.cfg.aMr) s = .next { s with resp := .byte r } ∧
      ∀ j < 8, r.getLsbD j = if j = s.cfg.mrRst.val then s.phase == .swReset else s.mr.getLsbD j) ∧
    (s.phase = .ready → ∀ v : Byte, v.getLsbD s.cfg.mrRst = false →
      exec (.wr8 s.cfg.aMr v) s = .next { s with mr := v })

/-- 41 R119, 70 R197: in READY a write of MR with MR_RST set starts a software reset and does nothing
else: the other bits are discarded. In any other phase it records F_NOT_READY. -/
def Obligations.SoftwareResetStarts : Prop :=
  ∀ (s : State) (v : Byte), s.live → s.busFails = false → v.getLsbD s.cfg.mrRst = true →
    exec (.swReset v) s =
      .next (if s.phase = .ready then { s with phase := .swReset }
        else { s with faults := [.notReady s.cfg.aMr s.phase] })

/-- 41 R128, R129, 60 R178: a read of S0_IR returns it and changes nothing; W1C clears exactly the
bits set in `v` and changes nothing else. It never makes an edge, and leaves the line asserted
exactly when it was and an unmasked bit remains. -/
def Obligations.SocketInterruptReadAndClear : Prop :=
  ∀ (s : State) (v : Byte), s.live → s.admitsWrite →
    exec (.rd8 s.cfg.aS0Ir) s = .next { s with resp := .byte s.s0ir } ∧
    ∃ t, exec (.w1c v) s = .next t ∧ t = { s with s0ir := t.s0ir } ∧
      (∀ j < 8, t.s0ir.getLsbD j = (s.s0ir.getLsbD j && !v.getLsbD j)) ∧
      t.intAsserted = (s.intAsserted && t.s0Int)

/-! ### The windows and the faults of an access -/

/-- 20 R79, R81: a read of a TX window byte returns M[a]. A read of an RX window byte returns M[a]
when a position between rx_rd_acc and RX_WR maps to it, else any value, a fresh draw. Nothing else
changes. -/
def Obligations.WindowReads : Prop :=
  ∀ (s : State) (a : Addr), s.live → s.admitsWrite →
    (inWindow s.cfg .tx a = true → exec (.rd8 a) s = .next { s with resp := .byte (s.ringByte a) }) ∧
    (inWindow s.cfg .rx a = true →
      ((∃ p : Word, occ p s.rxRdAcc < occ s.rxWr s.rxRdAcc ∧ mapAt s.cfg .rx p = a) →
        exec (.rd8 a) s = .next { s with resp := .byte (s.ringByte a) }) ∧
      ((¬∃ p : Word, occ p s.rxRdAcc < occ s.rxWr s.rxRdAcc ∧ mapAt s.cfg .rx p = a) →
        ∃ x, exec (.rd8 a) s = .next { s with resp := .byte x, draws := s.draws + 1 }))

/-- 20 R80: a write to a TX window byte stores it, leaves every other byte, adds to `raced` exactly
the position of the SEND in flight that maps to it, and changes nothing else. The premise that the
flight has at most SIZE bytes is part of the invariant. -/
def Obligations.TxWindowWrite : Prop :=
  ∀ (s : State) (a : Addr) (v : Byte), s.live → s.admitsWrite → s.flightOk →
    inWindow s.cfg .tx a = true →
    ∃ t, exec (.wr8 a v) s = .next t ∧ t = { s with mem := t.mem, raced := t.raced } ∧
      t.ringByte a = v ∧ (∀ a' : Addr, a' ≠ a → t.ringByte a' = s.ringByte a') ∧
      ∀ p : Word, p ∈ t.raced ↔ p ∈ s.raced ∨
        (s.sendBusy = true ∧ occ p s.sendStart < occ s.sendEnd s.sendStart ∧ mapAt s.cfg .tx p = a)

/-- 20 R63, R82: a byte at an unmapped address records F_UNMAPPED, a write to the RX window records
F_RX_WRITE, and nothing else changes. -/
def Obligations.UnmappedAndRxWriteFaults : Prop :=
  ∀ (s : State) (a : Addr) (v : Byte), s.live → s.admitsWrite →
    (unmapped s.cfg a →
      exec (.rd8 a) s = .next { s with faults := [.unmapped a] } ∧
      exec (.wr8 a v) s = .next { s with faults := [.unmapped a] }) ∧
    (inWindow s.cfg .rx a = true → exec (.wr8 a v) s = .next { s with faults := [.rxWrite a v] })

/-- 70 R200: outside READY every bus access records F_NOT_READY and does nothing else, but a read of
MR in SW_RESET, which returns MR with bit MR_RST set and changes nothing. -/
def Obligations.AccessDuringReset : Prop :=
  ∀ s : State, s.live → s.busFails = false → s.phase ≠ .ready →
    (∀ i a, writeTarget s.cfg i = some a →
      exec i s = .next { s with faults := [.notReady a s.phase] }) ∧
    (∀ a, ¬(s.phase = .swReset ∧ a = s.cfg.aMr) →
      exec (.rd8 a) s = .next { s with faults := [.notReady a s.phase] }) ∧
    (s.phase = .swReset → ∃ r : Byte,
      exec (.rd8 s.cfg.aMr) s = .next { s with resp := .byte r } ∧ r.getLsbD s.cfg.mrRst = true)

/-- 60 R184, 20 R85: a transport failure is recorded before any other check, for every bus access,
and nothing else changes. -/
def Obligations.BusFaultComesFirst : Prop :=
  ∀ s : State, s.live → s.busFails = true →
    (∀ i a, writeTarget s.cfg i = some a → exec i s = .next { s with faults := [.bus a true] }) ∧
    (∀ a, exec (.rd8 a) s = .next { s with faults := [.bus a false] })

/-- 20 R67, 30 R91: an n-byte transaction whose last address is above 0xFFFF records F_ADDR_WRAP and
touches no byte. Otherwise its words are those of a, a+1, ... in that order, with no mapping; without
WIDE_ATOMIC the first runs when the transaction begins and the others wait in the context's thread,
whose later turns run them one by one; and each runs as the single-byte operation it decodes to, with
the transport's draw taken, changing nothing else but the host's own state. -/
def Obligations.BlockAddresses : Prop :=
  (∀ (s : State) (c : Ctx) (write : Bool) (a : Addr) (data : List Byte), s.live →
    0xFFFF < a.toNat + data.length - 1 →
    beginBlock c write a data s = .next { s with faults := [.addrWrap a data.length] }) ∧
  (∀ (write : Bool) (a : Addr) (data : List Byte) (k : Nat) (h : k < data.length),
    (blockWords write a data).length = data.length ∧
    (blockWords write a data)[k]? = some (twWord write (a + BitVec.ofNat 16 k) data[k])) ∧
  (∀ (s : State) (c : Ctx) (write : Bool) (a : Addr) (v : Byte) (vs : List Byte),
    a.toNat + vs.length ≤ 0xFFFF → s.cfg.wideAtomic = false →
    beginBlock c write a (v :: vs) s = blockByte c (twWord write a v)
      (busStep write a 1 (s.withThread c { s.thread c with xfer := blockWords write (a + 1) vs }))) ∧
  (∀ (s : State) (c : Ctx) (w : BitVec 25) (ws : List (BitVec 25)),
    (s.thread c).xfer = w :: ws → busFree s c = true →
    hostTurn c s = blockByte c w
      (busStep (twWrite w) (twAddr w) 1 (s.withThread c { s.thread c with xfer := ws }))) ∧
  (∀ (s : State) (c : Ctx) (w : BitVec 25) (i : Instr) (t : State),
    decode s.cfg (.tw w) = .ok i → exec i (drawBus s) = .next t →
    ∃ u, blockByte c w s = .next u ∧ u = { t with env := u.env } ∧
      (u.thread c).xfer = (t.thread c).xfer ∧ u.thread c.other = t.thread c.other)

/-- 20 R61, R68, 41 R139, R140: with WIDE_ATOMIC, and no transport failure, a two-byte write of TX_WR
is one step that stores both bytes, high byte first, and a two-byte read of TX_WR, TX_FSR or RX_RSR
is one step that returns both bytes of one value the register may show. Nothing else changes but the
answer, the report of the last byte and the host's own state. That an open value of TX_FSR or RX_RSR
goes by the number of the read (`busStep`) is the model's reading (log entry 37). -/
def Obligations.AtomicWordAccess : Prop :=
  ∀ (s : State) (c : Ctx) (x : Word), s.live → s.phase = .ready → s.cfg.wideAtomic = true →
    s.env.busFaults = [] →
    (∃ t, beginBlock c true s.cfg.aTxWr [x.extractLsb' 8 8, x.extractLsb' 0 8] s = .next t ∧
      t = { s with txWr := x, busFails := false, env := t.env }) ∧
    (∃ t, beginBlock c false s.cfg.aTxWr [0, 0] s = .next t ∧
      t = { s with resp := t.resp, busFails := false, env := t.env } ∧
      (t.thread c).rdata =
        (s.thread c).rdata ++ [s.txWr.extractLsb' 8 8, s.txWr.extractLsb' 0 8]) ∧
    (∃ (t : State) (y : Word), beginBlock c false s.cfg.aTxFsr [0, 0] s = .next t ∧
      t = { s with resp := t.resp, busFails := false, env := t.env } ∧
      (t.thread c).rdata = (s.thread c).rdata ++ [y.extractLsb' 8 8, y.extractLsb' 0 8] ∧
      (occ s.txWr s.txRd ≤ s.cfg.size → y.toNat = s.cfg.size - occ s.txWr s.txRd)) ∧
    (∃ (t : State) (y : Word), beginBlock c false s.cfg.aRxRsr [0, 0] s = .next t ∧
      t = { s with resp := t.resp, busFails := false, env := t.env } ∧
      (t.thread c).rdata = (s.thread c).rdata ++ [y.extractLsb' 8 8, y.extractLsb' 0 8] ∧
      (y = s.rxWr - s.rxRdAcc ∨ y = s.rxWr - s.rxRd))

/-- 20 R68, 41 R139, R140: without WIDE_ATOMIC each byte of a two-byte read is taken at its own step,
so the two bytes of TX_FSR, TX_RD, RX_RSR or RX_WR are those the register shows at the two steps.
Between them engine, network and table operations leave the rest of the transaction waiting, and the
other context puts nothing on the bus and takes no lock. After a fault on a byte no later byte is
accessed, with WIDE_ATOMIC or without. That an open value of TX_FSR or RX_RSR goes by the number of the
read (`busStep`) is the model's reading (log entry 37). -/
def Obligations.TransactionByteSteps : Prop :=
  (∀ (s : State) (c : Ctx) (r : Reg) (x : Addr), s.live → s.phase = .ready →
    s.env.busFaults = [] → r ∈ [Reg.txFsr, .txRd, .rxRsr, .rxWr] → r.base s.cfg = some x →
    (s.cfg.wideAtomic = false → ∃ t, beginBlock c false x [0, 0] s = .next t ∧
      t = { s with resp := t.resp, busFails := false, env := t.env } ∧
      (t.thread c).rdata = (s.thread c).rdata ++ [(readReg (busStep false x 1 s) r 0).1] ∧
      (t.thread c).xfer = [twWord false (x + 1) 0]) ∧
    ((s.thread c).xfer = [twWord false (x + 1) 0] → busFree s c = true →
      ∃ t, hostTurn c s = .next t ∧
        t = { s with resp := t.resp, busFails := false, env := t.env } ∧
        (t.thread c).rdata =
          (s.thread c).rdata ++ [(readReg (busStep false (x + 1) 1 s) r 1).1] ∧
        (t.thread c).xfer = [])) ∧
  (∀ s t : State, (∃ e, engineStep e s = .next t) ∨ (∃ f, networkStep f s = .next t) ∨
    (∃ i, exec i s = .next t) → t.env = s.env) ∧
  (∀ (s : State) (c : Ctx), (s.thread c).xfer ≠ [] →
    ((s.thread c.other).xfer ≠ [] ∨ ∃ op rest, (s.thread c.other).prog = op :: rest ∧
      ((∃ w, op = .word (.tw w)) ∨ (∃ write a data, op = .block write a data) ∨ op = .lock)) →
    hostTurn c.other s = .next s) ∧
  (∀ (s t : State) (c : Ctx) (w : BitVec 25) (ws : List (BitVec 25)),
    blockByte c w s = .next t → t.faults ≠ [] →
    step t = .fault .quiescent ∧ blockBytes c (w :: ws) s = .next t)

/-! ### The commands -/

/-- 42 R142: a write to S0_CR, in the rule's order: an unknown code and a pending command fault;
else a command whose own checks pass is pending. Nothing else changes. -/
def Obligations.CommandWriteChecks : Prop :=
  ∀ s : State, s.live → s.admitsWrite →
    (∀ v, (Instr.cmdIllegal v).wf s.cfg = true →
      exec (.cmdIllegal v) s = .next { s with faults := [.cmdUnknown v] }) ∧
    (∀ c p, s.cmdPending = some p →
      exec (cmdInstr c) s = .next { s with faults := [.cmdOverrun (c.code s.cfg) p] }) ∧
    (∀ c, s.cmdPending = none → exec (cmdInstr c) s = .next
      (match cmdCheck s c with
        | some f => { s with faults := [f] }
        | none => { s with cmdPending := some c }))

/-- 42 R143: OPEN is pending when the socket is CLOSED and S0_MR selects MACRAW; otherwise
F_OPEN_STATE is recorded, or F_OPEN_MODE. Nothing else changes. -/
def Obligations.OpenWrite : Prop :=
  ∀ s : State, s.live → s.admitsWrite → s.cmdPending = none →
    let proto := fieldOf s.s0mr s.cfg.protoHi s.cfg.protoLo
    (s.s0sr = s.cfg.srClosed → proto = s.cfg.protoMacraw →
      exec .openSock s = .next { s with cmdPending := some .openSock }) ∧
    (s.s0sr ≠ s.cfg.srClosed → exec .openSock s = .next { s with faults := [.openState s.s0sr] }) ∧
    (s.s0sr = s.cfg.srClosed → proto ≠ s.cfg.protoMacraw →
      exec .openSock s = .next { s with faults := [.openMode s.s0mr] })

/-- 42 R146: CLOSE is pending in every status when no SEND is in flight; otherwise F_CLOSE_BUSY is
recorded. Nothing else changes. -/
def Obligations.CloseWrite : Prop :=
  ∀ s : State, s.live → s.admitsWrite → s.cmdPending = none →
    (s.sendBusy = false → exec .closeSock s = .next { s with cmdPending := some .closeSock }) ∧
    (s.sendBusy = true →
      exec .closeSock s = .next { s with faults := [.closeBusy s.sendStart s.sendEnd] })

/-- 42 R148: SEND is pending when the socket is open, no SEND is in flight and the TX occupancy is
from 1 to min(SIZE, MAX_FRAME); otherwise the first check that fails is recorded. Nothing else
changes. -/
def Obligations.SendWrite : Prop :=
  ∀ s : State, s.live → s.admitsWrite → s.cmdPending = none →
    let n := occ s.txWr s.txRd
    let fits := 0 < n ∧ n ≤ min s.cfg.size s.cfg.maxFrame
    (s.s0sr = s.cfg.srMacraw → s.sendBusy = false → fits →
      exec .send s = .next { s with cmdPending := some .send }) ∧
    (s.s0sr ≠ s.cfg.srMacraw → exec .send s = .next { s with faults := [.sendState s.s0sr] }) ∧
    (s.s0sr = s.cfg.srMacraw → s.sendBusy = true →
      exec .send s = .next { s with faults := [.sendBusy s.sendStart s.sendEnd] }) ∧
    (s.s0sr = s.cfg.srMacraw → s.sendBusy = false → ¬fits →
      exec .send s = .next { s with faults := [.sendLen s.txWr s.txRd] })

/-- 42 R151: RECV is pending when the socket is open and RX_RD has not been advanced past RX_WR,
whether or not a SEND is in flight; otherwise the first check that fails is recorded. Nothing else
changes. -/
def Obligations.RecvWrite : Prop :=
  ∀ s : State, s.live → s.admitsWrite → s.cmdPending = none →
    let past := occ s.rxWr s.rxRdAcc < occ s.rxRd s.rxRdAcc
    (s.s0sr = s.cfg.srMacraw → ¬past → exec .recv s = .next { s with cmdPending := some .recv }) ∧
    (s.s0sr ≠ s.cfg.srMacraw → exec .recv s = .next { s with faults := [.recvState s.s0sr] }) ∧
    (s.s0sr = s.cfg.srMacraw → past →
      exec .recv s = .next { s with faults := [.recvOver s.rxRd s.rxWr s.rxRdAcc] })

/-! ### The engine and the network -/

/-- 42 R144: OPEN acceptance starts both rings empty at pointers of the chip's choice, latches the
filter bit and moves the status to INIT or MACRAW-OPEN, a draw; a protocol other than MACRAW faults.
Nothing else changes. -/
def Obligations.OpenAccepted : Prop :=
  ∀ s : State, s.live → s.phase = .ready → s.cmdPending = some .openSock →
    (s.macrawMode = true → ∃ (t r : Word) (st : Byte) (d : Nat) (u : State),
      engineStep .accept s = .next u ∧ (st = s.cfg.srInit ∨ st = s.cfg.srMacraw) ∧
      u = { s with
        txRd := t, txWr := t, rxRd := r, rxWr := r, rxRdAcc := r
        mfLatched := s.s0mr.getLsbD s.cfg.s0MrMf
        s0sr := st, openPending := st == s.cfg.srInit, cmdPending := none, draws := d } ∧
      (∃ x, u.txFree = some x ∧ x.toNat = s.cfg.size) ∧ rxRsrValue u = 0) ∧
    (s.macrawMode = false → engineStep .accept s = .next { s with faults := [.openMode s.s0mr] })

/-- 42 R145, R147: open completion sets S0_SR to SR_MACRAW and ends the opening; CLOSE acceptance
sets S0_SR to SR_CLOSED, ends an opening and the command. Nothing else changes. -/
def Obligations.OpenCompletedAndCloseAccepted : Prop :=
  ∀ s : State, s.live → s.phase = .ready →
    (s.openPending = true → engineStep .openDone s =
      .next { s with s0sr := s.cfg.srMacraw, openPending := false }) ∧
    (s.cmdPending = some .closeSock → engineStep .accept s =
      .next { s with s0sr := s.cfg.srClosed, openPending := false, cmdPending := none })

/-- 42 R149: SEND acceptance latches TX_RD and TX_WR and starts the flight with nothing raced; a TX
occupancy of 0 or above min(SIZE, MAX_FRAME) faults. Nothing else changes. -/
def Obligations.SendAccepted : Prop :=
  ∀ s : State, s.live → s.phase = .ready → s.cmdPending = some .send →
    let n := occ s.txWr s.txRd
    let fits := 0 < n ∧ n ≤ min s.cfg.size s.cfg.maxFrame
    (fits → engineStep .accept s = .next { s with
      sendStart := s.txRd, sendEnd := s.txWr, raced := [], sendBusy := true, cmdPending := none }) ∧
    (¬fits → engineStep .accept s = .next { s with faults := [.sendLen s.txWr s.txRd] })

/-- 42 R150: SEND completion emits the n bytes from send_start on, each the ring byte at its mapped
position unless that position raced, advances TX_RD to send_end, ends the flight and sets SENDOK.
Nothing else changes but the draws taken. -/
def Obligations.SendCompleted : Prop :=
  ∀ s : State, s.live → s.phase = .ready → s.sendBusy = true →
    ∃ (f : Frame) (d : Nat),
      engineStep .sendDone s = .next (noteEdge s { s with
        netOut := s.netOut ++ [f], txRd := s.sendEnd, sendBusy := false, raced := []
        s0ir := s.s0ir ||| maskOf s.cfg.irSendok, draws := d }) ∧
      f.length = occ s.sendEnd s.sendStart ∧
      ∀ i < f.length, s.sendStart + BitVec.ofNat 16 i ∉ s.raced →
        f[i]? = some (s.ringByte (mapAt s.cfg .tx (s.sendStart + BitVec.ofNat 16 i)))

/-- 42 R152: RECV acceptance takes RX_RD as the accepted read pointer; when data remains it may set
IR_RECV again. RX_RD advanced past RX_WR faults. Nothing else changes. -/
def Obligations.RecvAccepted : Prop :=
  ∀ s : State, s.live → s.phase = .ready → s.cmdPending = some .recv →
    (¬occ s.rxWr s.rxRdAcc < occ s.rxRd s.rxRdAcc → ∃ (ir : Byte) (d : Nat),
      engineStep .accept s = .next (noteEdge s { s with
        rxRdAcc := s.rxRd, cmdPending := none, s0ir := ir, draws := d }) ∧
      (ir = s.s0ir ∨ (0 < occ s.rxWr s.rxRd ∧ ir = s.s0ir ||| maskOf s.cfg.irRecv))) ∧
    (occ s.rxWr s.rxRdAcc < occ s.rxRd s.rxRdAcc →
      engineStep .accept s = .next { s with faults := [.recvOver s.rxRd s.rxWr s.rxRdAcc] })

/-- 42 R153, R154, R155: an offered frame is dropped whole outside READY, outside MACRAW-OPEN, when
it does not fit, and when the filter drops it; otherwise the prefix and the frame go to MAP_RX(RX_WR
+16 i), RX_WR advances, IR_RECV is set, and no other byte changes. The filter may drop (a draw) only
a frame whose first six bytes are not SHAR, and only when it was latched. -/
def Obligations.FrameOffered : Prop :=
  ∀ (s : State) (f : Frame), s.live → 1 ≤ f.length → f.length ≤ s.cfg.maxFrame →
    let total := hdrLen + f.length
    let prefixBytes := prefixOf s.cfg f.length
    let bytes := prefixBytes.extractLsb' 8 8 :: prefixBytes.extractLsb' 0 8 :: f
    let opened := s.phase = .ready ∧ s.s0sr = s.cfg.srMacraw
    let fits := total ≤ s.cfg.size - occ s.rxWr s.rxRdAcc
    let mine := s.mfLatched = false ∨ f.take 6 = s.shar.toList
    (∃ t d, networkStep f s = .next t ∧ (mine → d = s.draws) ∧
      (t = { s with netDrop := s.netDrop + 1, draws := d } ∨
        ∃ m, t = noteEdge s { s with
            mem := m, rxWr := s.rxWr + BitVec.ofNat 16 total
            s0ir := s.s0ir ||| maskOf s.cfg.irRecv, draws := d } ∧
          opened ∧ fits ∧
          (∀ i < total, some (t.ringByte (mapAt s.cfg .rx (s.rxWr + BitVec.ofNat 16 i))) = bytes[i]?) ∧
          ∀ a : Addr, (∀ i < total, mapAt s.cfg .rx (s.rxWr + BitVec.ofNat 16 i) ≠ a) →
            t.ringByte a = s.ringByte a) ∧
      (opened → fits → mine → t.netDrop = s.netDrop)) ∧
    prefixBytes.toNat = (if s.cfg.hdrIncludesSelf then total else f.length) % 65536

/-- 42 R154, 20 R79: no network step and no engine step outside the two reset completions changes a
TX window byte, or an RX window byte between rx_rd_acc and RX_WR. -/
def Obligations.EngineLeavesRingBytes : Prop :=
  ∀ (s t : State) (a : Addr), s.live →
    (∃ f, networkStep f s = .next t) ∨
      (∃ e, e ≠ .settle ∧ e ≠ .resetDone ∧ engineStep e s = .next t) →
    inWindow s.cfg .tx a = true ∨
      (∃ p : Word, occ p s.rxRdAcc < occ s.rxWr s.rxRdAcc ∧ mapAt s.cfg .rx p = a) →
    occ s.rxWr s.rxRdAcc ≤ s.cfg.size →
    t.ringByte a = s.ringByte a

/-- 40 R114, R115 and 42 R153: after a deposit, the prefix read at the old RX_WR gives by FRAMELEN
the frame's length and the bytes to consume, and reading the body through the mapper returns the
frame, whatever the wrap. -/
def Obligations.DepositedFrameReadsBack : Prop :=
  ∀ (s t : State) (f : Frame), s.live → s.busFails = false →
    networkStep f s = .next t → t.rxWr ≠ s.rxWr →
    frameLen t.cfg (t.header s.rxWr) = (f.length, hdrLen + f.length) ∧
    ∀ (i : Nat) (h : i < f.length),
      exec (.rd8 (mapAt t.cfg .rx (s.rxWr + BitVec.ofNat 16 (hdrLen + i)))) t =
        .next { t with resp := .byte f[i] }

/-- 42 R156: unless OTHER_IR_QUIET holds, the reserved-bit step sets the chosen S0_IR bits other than
IR_SENDOK and IR_RECV, and nothing else changes; where it holds the step has no effect. That it runs
in READY alone follows 42 R160. -/
def Obligations.ReservedInterruptBits : Prop :=
  ∀ (s : State) (bits : Byte), s.live → s.phase = .ready → ∃ t,
    engineStep (.reservedIr bits) s = .next t ∧ t = noteEdge s { s with s0ir := t.s0ir } ∧
    ∀ j < 8, t.s0ir.getLsbD j = (s.s0ir.getLsbD j ||
      (bits.getLsbD j && !s.cfg.otherIrQuiet && j != s.cfg.irSendok.val && j != s.cfg.irRecv.val))

/-- 42 R160: outside READY no engine step but the reset completions does anything, and every offered
frame is dropped. -/
def Obligations.OnlyResetsOutsideReady : Prop :=
  ∀ s : State, s.live → s.phase ≠ .ready →
    (∀ e, e ≠ .settle → e ≠ .resetDone → engineStep e s = .next s) ∧
    (s.phase ≠ .settling → engineStep .settle s = .next s) ∧
    (s.phase ≠ .swReset → engineStep .resetDone s = .next s) ∧
    (∀ f : Frame, 1 ≤ f.length → f.length ≤ s.cfg.maxFrame →
      networkStep f s = .next { s with netDrop := s.netDrop + 1 })

/-- 42 R158: when the schedule lists no turn, a step takes an enabled weakly fair engine step: a
pending command is accepted or faults, and each reset ends in READY. That an empty schedule runs the
engine first is the model's choice (log entry 9). -/
def Obligations.IdleScheduleIsFair : Prop :=
  ∀ s : State, s.live → s.env.turns = [] →
    (s.phase = .ready → s.cmdPending ≠ none →
      ∃ t, step s = .next t ∧ (t.cmdPending = none ∨ t.faults ≠ [])) ∧
    (s.phase = .ready → s.cmdPending = none → s.openPending = true →
      ∃ t, step s = .next t ∧ t.openPending = false) ∧
    (s.phase = .ready → s.cmdPending = none → s.openPending = false → s.sendBusy = true →
      ∃ t, step s = .next t ∧ t.sendBusy = false) ∧
    (s.phase = .swReset ∨ s.phase = .settling → ∃ t, step s = .next t ∧ t.phase = .ready)

/-! ### Resets -/

/-- 70 R195: asserting the reset input enters HW_RESET and ends the pending command, the opening and
the flight, whose frame goes out whole or not at all. Another assertion has no effect. Nothing else
changes but the draws taken, and no edge is made. -/
def Obligations.ResetAsserted : Prop :=
  ∀ s : State, s.live →
    (s.phase = .hwReset → exec .rstAssert s = .next s) ∧
    (s.phase ≠ .hwReset → ∃ (out : List Frame) (d : Nat),
      exec .rstAssert s = .next { s with
        phase := .hwReset, cmdPending := none, openPending := false, sendBusy := false
        raced := if s.sendBusy then [] else s.raced, netOut := out, draws := d } ∧
      (s.sendBusy = false → out = s.netOut ∧ d = s.draws) ∧
      (out = s.netOut ∨ ∃ f : Frame, out = s.netOut ++ [f] ∧
        f.length = occ s.sendEnd s.sendStart ∧
        ∀ i < f.length, s.sendStart + BitVec.ofNat 16 i ∉ s.raced →
          f[i]? = some (s.ringByte (mapAt s.cfg .tx (s.sendStart + BitVec.ofNat 16 i)))))

/-- 70 R196: releasing the reset input in HW_RESET enters SETTLING and changes nothing else; in any
other phase it has no effect. -/
def Obligations.ResetReleased : Prop :=
  ∀ s : State, s.live →
    (s.phase = .hwReset → exec .rstRelease s = .next { s with phase := .settling }) ∧
    (s.phase ≠ .hwReset → exec .rstRelease s = .next s)

/-- 10 R60, 70 R196, R198, R199: both reset completions leave the values of 10 R60: READY, CLOSED,
nothing pending or in flight, MR_RST 0, the SENDOK and RECV masks set, no ring byte kept; and they
keep the bookkeeping and the host's state. Where a SEND was in flight at a software reset, its frame
goes out whole or not at all. -/
def Obligations.ResetCompletes : Prop :=
  ∀ (s : State) (e : EngineStep), s.live →
    (e = .settle ∧ s.phase = .settling) ∨ (e = .resetDone ∧ s.phase = .swReset) →
    ∃ t, engineStep e s = .next t ∧ t.phase = .ready ∧ t.mr.getLsbD t.cfg.mrRst = false ∧
      t.cmdPending = none ∧ t.s0sr = t.cfg.srClosed ∧
      t.s0imr.getLsbD t.cfg.irSendok = true ∧ t.s0imr.getLsbD t.cfg.irRecv = true ∧
      t.sendBusy = false ∧ t.openPending = false ∧ t.mfLatched = false ∧ t.raced = [] ∧ t.mem = [] ∧
      t.faults = s.faults ∧ t.refused = s.refused ∧ t.netDrop = s.netDrop ∧ t.cfg = s.cfg ∧
      t.env = s.env ∧ (e = .settle ∨ s.sendBusy = false → t.netOut = s.netOut) ∧
      (t.netOut = s.netOut ∨ ∃ f : Frame, t.netOut = s.netOut ++ [f] ∧
        f.length = occ s.sendEnd s.sendStart ∧
        ∀ i < f.length, s.sendStart + BitVec.ofNat 16 i ∉ s.raced →
          f[i]? = some (s.ringByte (mapAt s.cfg .tx (s.sendStart + BitVec.ofNat 16 i))))

/-- 10 R60: the values the spec gives the state after reset, and 10 R54, R55: the bookkeeping is
initially empty. `int_edges = 0` is the model's choice (log entry 12), and so is the binding, which is
valid (log entry 3). The values the spec leaves open are the model's (log entries 4 and 5) and are not
stated. -/
def Obligations.ResetStateValues : Prop :=
  let s := State.reset
  s.phase = .ready ∧ s.mr.getLsbD s.cfg.mrRst = false ∧ s.cmdPending = none ∧
  s.s0sr = s.cfg.srClosed ∧ s.s0imr.getLsbD s.cfg.irSendok = true ∧
  s.s0imr.getLsbD s.cfg.irRecv = true ∧ s.sendBusy = false ∧ s.openPending = false ∧
  s.mfLatched = false ∧ s.raced = [] ∧ s.faults = [] ∧ s.refused = false ∧ s.netOut = [] ∧
  s.netDrop = 0 ∧ s.intEdges = 0 ∧ bindingValid s.cfg = true

/-! ### The interrupt line -/

/-- 60 R176: the line is asserted exactly in READY with s0_int and IMR.IR_S0 set; asserted is low
when INT_ACTIVE_LOW, high otherwise. -/
def Obligations.InterruptLineLevel : Prop :=
  ∀ s : State,
    (s.intAsserted = true ↔
      s.phase = .ready ∧ s.s0Int = true ∧ s.imr.getLsbD s.cfg.irS0 = true) ∧
    (s.cfg.intActiveLow = true → (s.intPin = false ↔ s.intAsserted = true)) ∧
    (s.cfg.intActiveLow = false → (s.intPin = true ↔ s.intAsserted = true))

/-- 60 R177: every step of the machine counts an edge exactly when the line was deasserted before it
and is asserted after it. -/
def Obligations.EdgesAreCounted : Prop :=
  ∀ s t : State, step s = .next t →
    t.intEdges = s.intEdges + if s.intAsserted = false ∧ t.intAsserted = true then 1 else 0

/-! ### Rules of the whole machine -/

/-- 42 R141: the status moves only as the table says: at an OPEN acceptance from CLOSED, at an open
completion from INIT, at a CLOSE acceptance, and at a reset completion. -/
def Obligations.StatusMoves : Prop :=
  ∀ s t : State, s.Inv →
    (∀ i, exec i s = .next t → t.s0sr = s.s0sr) ∧
    (∀ f, networkStep f s = .next t → t.s0sr = s.s0sr) ∧
    (∀ e, engineStep e s = .next t → t.s0sr = s.s0sr ∨
      (e = .accept ∧ s.cmdPending = some .openSock ∧ s.s0sr = s.cfg.srClosed ∧
        (t.s0sr = s.cfg.srInit ∧ t.openPending = true ∨ t.s0sr = s.cfg.srMacraw)) ∨
      (e = .openDone ∧ s.s0sr = s.cfg.srInit ∧ t.s0sr = s.cfg.srMacraw) ∨
      (e = .accept ∧ s.cmdPending = some .closeSock ∧ t.s0sr = s.cfg.srClosed) ∨
      ((e = .settle ∨ e = .resetDone) ∧ t.s0sr = s.cfg.srClosed))

/-- 10 R41, R42, R44, R45, R49: outside the reset completions, a network step moves RX_WR alone of
the five ring pointers; an engine step moves TX_RD only at OPEN acceptance and SEND completion,
rx_rd_acc only at OPEN and RECV acceptance, and the other three only at OPEN acceptance. -/
def Obligations.EnginePointersMove : Prop :=
  ∀ s t : State,
    (∀ f, networkStep f s = .next t →
      t.txRd = s.txRd ∧ t.txWr = s.txWr ∧ t.rxRd = s.rxRd ∧ t.rxRdAcc = s.rxRdAcc) ∧
    (∀ e, e ≠ .settle → e ≠ .resetDone → engineStep e s = .next t →
      ¬(e = .accept ∧ s.cmdPending = some .openSock) →
      t.txWr = s.txWr ∧ t.rxRd = s.rxRd ∧ t.rxWr = s.rxWr ∧
      (t.txRd = s.txRd ∨ e = .sendDone ∧ t.txRd = s.sendEnd) ∧
      (t.rxRdAcc = s.rxRdAcc ∨
        e = .accept ∧ s.cmdPending = some .recv ∧ t.rxRdAcc = s.rxRd))

/-- 10 R58, 60 R173: no host operation sets an S0_IR bit, and the only well-formed one that clears
one is W1C, of the bits set in its operand. -/
def Obligations.HostNeverSetsFlags : Prop :=
  ∀ (i : Instr) (s t : State), i.wf s.cfg = true → exec i s = .next t →
    ∀ j < 8, (t.s0ir.getLsbD j = true → s.s0ir.getLsbD j = true) ∧
      (t.s0ir.getLsbD j = false → s.s0ir.getLsbD j = true →
        ∃ v : Byte, i = .w1c v ∧ v.getLsbD j = true)

/-- 10 R38, R41, R45, R49, R50, R52, R55: no host operation writes the binding, S0_SR, TX_RD, RX_WR,
rx_rd_acc, send_start, send_end, mf_latched, net_drop or the host's own state. -/
def Obligations.HostLeavesEngineState : Prop :=
  ∀ (i : Instr) (s t : State), exec i s = .next t →
    t.cfg = s.cfg ∧ t.s0sr = s.s0sr ∧ t.txRd = s.txRd ∧ t.rxWr = s.rxWr ∧ t.rxRdAcc = s.rxRdAcc ∧
    t.sendStart = s.sendStart ∧ t.sendEnd = s.sendEnd ∧ t.mfLatched = s.mfLatched ∧
    t.netDrop = s.netDrop ∧ t.env = s.env

/-- 20 R69, R70, 40 R101 to R104: the frames of the operations. A read and a mapper word change at
most the answer, the draw counter and the two stop fields; a command changes at most the pending
command and the stop fields; no operation changes a ring byte but a WR8 into the TX window, and that
one only at its own address. A read that answers answers the same when it is repeated at once, but at
IR and at an RX window byte outside the occupied region (20 R69; for TX_FSR and RX_RSR, log entry 37). -/
def Obligations.OperationFrames : Prop :=
  ∀ (i : Instr) (s t : State), exec i s = .next t →
    ((∃ a, i = .rd8 a) ∨ (∃ p, i = .mapTx p ∨ i = .mapRx p) ∨
      (∃ p n, i = .splitTx p n ∨ i = .splitRx p n) →
      t = { s with resp := t.resp, draws := t.draws, faults := t.faults, refused := t.refused }) ∧
    ((∃ c, i = cmdInstr c) ∨ (∃ v, i = .cmdIllegal v) →
      t = { s with cmdPending := t.cmdPending, faults := t.faults, refused := t.refused }) ∧
    (∀ a : Addr, t.ringByte a = s.ringByte a ∨
      (inWindow s.cfg .tx a = true ∧ writeTarget s.cfg i = some a)) ∧
    (∀ a : Addr, i = .rd8 a → t.faults = [] → t.refused = false → a ≠ s.cfg.aIr →
      (inWindow s.cfg .rx a = true → s.rxOccupied a = true) → exec i t = .next t)

/-- 60 R185: a step of any agent that raises a fault has no other effect, and after a fault no
further step of any agent is taken. -/
def Obligations.FaultRecordsAndStops : Prop :=
  (∀ s t : State, s.live →
    (∃ i, exec i s = .next t) ∨ (∃ e, engineStep e s = .next t) ∨ (∃ f, networkStep f s = .next t) →
    t.faults = [] ∨ ∃ f, t = { s with faults := [f] }) ∧
  (∀ s : State, s.faults ≠ [] →
    step s = .fault .quiescent ∧ (∀ i, exec i s = .fault .quiescent) ∧
    (∀ e, engineStep e s = .fault .quiescent) ∧ ∀ f, networkStep f s = .fault .quiescent)

/-- 10 R59 and the fields of 10 R38, R46 to R55: the invariant of the block holds after reset. -/
def Obligations.InvariantAtReset : Prop := State.reset.Inv

/-- 10 R59 and the fields of 10 R38, R46 to R55: every step of the machine keeps the invariant of
the block, from every state. -/
def Obligations.InvariantKept : Prop :=
  ∀ s t : State, s.Inv → step s = .next t → t.Inv

/-- 43 R166, R167, 42 R148 to R150: from an open socket with an empty TX ring, writing a frame by
RINGWRITE at TX_WR, then the advanced TX_WR, then SEND, ends with exactly that frame transmitted,
TX_WR advanced by its length, TX_RD equal to it, and SENDOK set; no TX byte outside the frame's
positions changes. -/
def Obligations.SendEmitsTheFrameWritten : Prop :=
  ∀ (s : State) (f : Frame), s.live → s.admitsWrite → s.s0sr = s.cfg.srMacraw →
    s.txRd = s.txWr → s.sendBusy = false → s.cmdPending = none →
    0 < f.length → f.length ≤ min s.cfg.size s.cfg.maxFrame →
    ∃ t, txPath f s = .next t ∧ t.netOut = s.netOut ++ [f] ∧
      t.txWr.toNat = (s.txWr.toNat + f.length) % 65536 ∧ t.txRd = t.txWr ∧
      t.sendBusy = false ∧ t.cmdPending = none ∧ t.s0ir.getLsbD s.cfg.irSendok = true ∧
      ∀ a : Addr, (∀ i < f.length, mapAt s.cfg .tx (s.txWr + BitVec.ofNat 16 i) ≠ a) →
        t.ringByte a = s.ringByte a
end

