-- ==== Sys2Proof/Laws/Decode.lean ====
section
/-!
SUPPORT. The fields of an assembled TW, MW and MS word (30_encoding.md R86, R93).
-/

namespace Sys2Proof.Laws

/-- Bit `i` of an assembled TW word: v in bits 7:0, a in bits 23:8, d in bit 24 (30 R86). -/
theorem getLsbD_twWord (d : Bool) (a : Addr) (v : Byte) (i : Nat) :
    (twWord d a v).getLsbD i =
      if i < 8 then v.getLsbD i else if i < 24 then a.getLsbD (i - 8) else (decide (i = 24) && d) := by
  have h : (twWord d a v).getLsbD i = ((BitVec.ofBool d ++ a) ++ v).getLsbD i := rfl
  rw [h, BitVec.getLsbD_append]
  split
  · rfl
  · rw [BitVec.getLsbD_append]
    split <;> split <;> first | omega | rfl | skip
    rw [BitVec.getLsbD_ofBool]
    congr 1
    rw [decide_eq_decide]
    omega

@[simp] theorem twWrite_twWord (d : Bool) (a : Addr) (v : Byte) : twWrite (twWord d a v) = d := by
  simp only [twWrite, getLsbD_twWord]
  simp

@[simp] theorem twAddr_twWord (d : Bool) (a : Addr) (v : Byte) : twAddr (twWord d a v) = a := by
  apply BitVec.eq_of_getLsbD_eq
  intro i hi
  simp only [twAddr, BitVec.getLsbD_extractLsb', getLsbD_twWord]
  rw [if_neg (by omega), if_pos (by omega), show 8 + i - 8 = i by omega]
  simp [hi]

@[simp] theorem twData_twWord (d : Bool) (a : Addr) (v : Byte) : twData (twWord d a v) = v := by
  apply BitVec.eq_of_getLsbD_eq
  intro i hi
  simp only [twData, BitVec.getLsbD_extractLsb', getLsbD_twWord]
  rw [if_pos (by omega)]
  simp [hi]

/-- A TW word is its three fields. -/
theorem twWord_fields (w : BitVec 25) : twWord (twWrite w) (twAddr w) (twData w) = w := by
  apply BitVec.eq_of_getLsbD_eq
  intro i hi
  simp only [getLsbD_twWord, twData, twAddr, twWrite, BitVec.getLsbD_extractLsb']
  split
  · rename_i h; simp [h]
  · split
    · rw [show 8 + (i - 8) = i by omega]
      simp only [Bool.and_eq_right_iff_imp, decide_eq_true_eq]
      intro _; omega
    · obtain rfl : i = 24 := by omega
      simp

/-! ### Mapper words -/

theorem getLsbD_mw (s : BitVec 1) (p : Word) (i : Nat) :
    BitVec.getLsbD (w := 17) (s ++ p) i = if i < 16 then p.getLsbD i else s.getLsbD (i - 16) := by
  have h : BitVec.getLsbD (w := 17) (s ++ p) i = BitVec.getLsbD (w := 1 + 16) (s ++ p) i := rfl
  rw [h, BitVec.getLsbD_append]

theorem getLsbD_ms (s : BitVec 1) (p : Word) (n : BitVec 16) (i : Nat) :
    BitVec.getLsbD (w := 33) (s ++ p ++ n) i =
      if i < 16 then n.getLsbD i else if i < 32 then p.getLsbD (i - 16) else s.getLsbD (i - 32) := by
  have h : BitVec.getLsbD (w := 33) (s ++ p ++ n) i =
      BitVec.getLsbD (w := 1 + 16 + 16) (s ++ p ++ n) i := rfl
  rw [h, BitVec.getLsbD_append]
  split
  · rfl
  · rw [BitVec.getLsbD_append]
    split <;> split
    · rfl
    · omega
    · omega
    · congr 1

/-- The fields of an MW word (30 R93). -/
theorem mw_fields (s : BitVec 1) (p : Word) :
    BitVec.getLsbD (w := 17) (s ++ p) 16 = s.getLsbD 0 ∧
    BitVec.extractLsb' (n := 17) 0 16 (s ++ p) = p := by
  refine ⟨by rw [getLsbD_mw]; simp, BitVec.eq_of_getLsbD_eq fun i hi => ?_⟩
  rw [BitVec.getLsbD_extractLsb', getLsbD_mw, if_pos (by omega)]
  simp [hi]

/-- The fields of an MS word (30 R93). -/
theorem ms_fields (s : BitVec 1) (p : Word) (n : BitVec 16) :
    BitVec.getLsbD (w := 33) (s ++ p ++ n) 32 = s.getLsbD 0 ∧
    BitVec.extractLsb' (n := 33) 16 16 (s ++ p ++ n) = p ∧
    BitVec.extractLsb' (n := 33) 0 16 (s ++ p ++ n) = n := by
  refine ⟨by rw [getLsbD_ms]; simp, BitVec.eq_of_getLsbD_eq fun i hi => ?_,
    BitVec.eq_of_getLsbD_eq fun i hi => ?_⟩
  · rw [BitVec.getLsbD_extractLsb', getLsbD_ms, if_neg (by omega), if_pos (by omega)]
    simp [hi]
  · rw [BitVec.getLsbD_extractLsb', getLsbD_ms, if_pos (by omega)]
    simp [hi]

/-- An MW word is its fields. -/
theorem mw_eq (w : BitVec 17) :
    (BitVec.ofBool (w.getLsbD 16) ++ w.extractLsb' 0 16 : BitVec 17) = w := by
  refine BitVec.eq_of_getLsbD_eq fun i hi => ?_
  rw [getLsbD_mw]
  split
  · simp [*]
  · rw [show i = 16 by omega]; cases w.getLsbD 16 <;> simp

/-- An MS word is its fields. -/
theorem ms_eq (w : BitVec 33) :
    (BitVec.ofBool (w.getLsbD 32) ++ w.extractLsb' 16 16 ++ w.extractLsb' 0 16 : BitVec 33) = w := by
  refine BitVec.eq_of_getLsbD_eq fun i hi => ?_
  rw [getLsbD_ms]
  split
  · simp [*]
  · split
    · rw [BitVec.getLsbD_extractLsb', show 16 + (i - 16) = i by omega]
      simp; omega
    · rw [show i = 32 by omega]; cases w.getLsbD 32 <;> simp

end Sys2Proof.Laws
end

