-- ==== Sys2Proof/Laws/State.lean ====
section
/-!
SUPPORT. What each named update leaves of each field of the state, so that no later proof unfolds a
record update.
-/

namespace Sys2Proof.Laws

open Sys2Proof.Machine

/-! ### raise -/

@[simp] theorem raise_cfg (s : State) (f : FaultRecord) : (raise s f).cfg = s.cfg := rfl
@[simp] theorem raise_phase (s : State) (f : FaultRecord) : (raise s f).phase = s.phase := rfl
@[simp] theorem raise_mr (s : State) (f : FaultRecord) : (raise s f).mr = s.mr := rfl
@[simp] theorem raise_gar (s : State) (f : FaultRecord) : (raise s f).gar = s.gar := rfl
@[simp] theorem raise_shar (s : State) (f : FaultRecord) : (raise s f).shar = s.shar := rfl
@[simp] theorem raise_imr (s : State) (f : FaultRecord) : (raise s f).imr = s.imr := rfl
@[simp] theorem raise_rtr (s : State) (f : FaultRecord) : (raise s f).rtr = s.rtr := rfl
@[simp] theorem raise_s0mr (s : State) (f : FaultRecord) : (raise s f).s0mr = s.s0mr := rfl
@[simp] theorem raise_cmdPending (s : State) (f : FaultRecord) :
    (raise s f).cmdPending = s.cmdPending := rfl
@[simp] theorem raise_s0ir (s : State) (f : FaultRecord) : (raise s f).s0ir = s.s0ir := rfl
@[simp] theorem raise_s0sr (s : State) (f : FaultRecord) : (raise s f).s0sr = s.s0sr := rfl
@[simp] theorem raise_s0imr (s : State) (f : FaultRecord) : (raise s f).s0imr = s.s0imr := rfl
@[simp] theorem raise_txRd (s : State) (f : FaultRecord) : (raise s f).txRd = s.txRd := rfl
@[simp] theorem raise_txWr (s : State) (f : FaultRecord) : (raise s f).txWr = s.txWr := rfl
@[simp] theorem raise_rxRd (s : State) (f : FaultRecord) : (raise s f).rxRd = s.rxRd := rfl
@[simp] theorem raise_rxWr (s : State) (f : FaultRecord) : (raise s f).rxWr = s.rxWr := rfl
@[simp] theorem raise_mem (s : State) (f : FaultRecord) : (raise s f).mem = s.mem := rfl
@[simp] theorem raise_rxRdAcc (s : State) (f : FaultRecord) : (raise s f).rxRdAcc = s.rxRdAcc := rfl
@[simp] theorem raise_sendBusy (s : State) (f : FaultRecord) :
    (raise s f).sendBusy = s.sendBusy := rfl
@[simp] theorem raise_sendStart (s : State) (f : FaultRecord) :
    (raise s f).sendStart = s.sendStart := rfl
@[simp] theorem raise_sendEnd (s : State) (f : FaultRecord) : (raise s f).sendEnd = s.sendEnd := rfl
@[simp] theorem raise_raced (s : State) (f : FaultRecord) : (raise s f).raced = s.raced := rfl
@[simp] theorem raise_openPending (s : State) (f : FaultRecord) :
    (raise s f).openPending = s.openPending := rfl
@[simp] theorem raise_mfLatched (s : State) (f : FaultRecord) :
    (raise s f).mfLatched = s.mfLatched := rfl
@[simp] theorem raise_faults (s : State) (f : FaultRecord) :
    (raise s f).faults = s.faults ++ [f] := rfl
@[simp] theorem raise_refused (s : State) (f : FaultRecord) : (raise s f).refused = s.refused := rfl
@[simp] theorem raise_netOut (s : State) (f : FaultRecord) : (raise s f).netOut = s.netOut := rfl
@[simp] theorem raise_netDrop (s : State) (f : FaultRecord) : (raise s f).netDrop = s.netDrop := rfl
@[simp] theorem raise_intEdges (s : State) (f : FaultRecord) :
    (raise s f).intEdges = s.intEdges := rfl
@[simp] theorem raise_draws (s : State) (f : FaultRecord) : (raise s f).draws = s.draws := rfl
@[simp] theorem raise_memEpoch (s : State) (f : FaultRecord) :
    (raise s f).memEpoch = s.memEpoch := rfl
@[simp] theorem raise_resp (s : State) (f : FaultRecord) : (raise s f).resp = s.resp := rfl
@[simp] theorem raise_busFails (s : State) (f : FaultRecord) :
    (raise s f).busFails = s.busFails := rfl
@[simp] theorem raise_env (s : State) (f : FaultRecord) : (raise s f).env = s.env := rfl

/-! ### refuse -/

@[simp] theorem refuse_cfg (s : State) : (refuse s).cfg = s.cfg := rfl
@[simp] theorem refuse_phase (s : State) : (refuse s).phase = s.phase := rfl
@[simp] theorem refuse_mr (s : State) : (refuse s).mr = s.mr := rfl
@[simp] theorem refuse_gar (s : State) : (refuse s).gar = s.gar := rfl
@[simp] theorem refuse_shar (s : State) : (refuse s).shar = s.shar := rfl
@[simp] theorem refuse_imr (s : State) : (refuse s).imr = s.imr := rfl
@[simp] theorem refuse_rtr (s : State) : (refuse s).rtr = s.rtr := rfl
@[simp] theorem refuse_s0mr (s : State) : (refuse s).s0mr = s.s0mr := rfl
@[simp] theorem refuse_cmdPending (s : State) : (refuse s).cmdPending = s.cmdPending := rfl
@[simp] theorem refuse_s0ir (s : State) : (refuse s).s0ir = s.s0ir := rfl
@[simp] theorem refuse_s0sr (s : State) : (refuse s).s0sr = s.s0sr := rfl
@[simp] theorem refuse_s0imr (s : State) : (refuse s).s0imr = s.s0imr := rfl
@[simp] theorem refuse_txRd (s : State) : (refuse s).txRd = s.txRd := rfl
@[simp] theorem refuse_txWr (s : State) : (refuse s).txWr = s.txWr := rfl
@[simp] theorem refuse_rxRd (s : State) : (refuse s).rxRd = s.rxRd := rfl
@[simp] theorem refuse_rxWr (s : State) : (refuse s).rxWr = s.rxWr := rfl
@[simp] theorem refuse_mem (s : State) : (refuse s).mem = s.mem := rfl
@[simp] theorem refuse_rxRdAcc (s : State) : (refuse s).rxRdAcc = s.rxRdAcc := rfl
@[simp] theorem refuse_sendBusy (s : State) : (refuse s).sendBusy = s.sendBusy := rfl
@[simp] theorem refuse_sendStart (s : State) : (refuse s).sendStart = s.sendStart := rfl
@[simp] theorem refuse_sendEnd (s : State) : (refuse s).sendEnd = s.sendEnd := rfl
@[simp] theorem refuse_raced (s : State) : (refuse s).raced = s.raced := rfl
@[simp] theorem refuse_openPending (s : State) : (refuse s).openPending = s.openPending := rfl
@[simp] theorem refuse_mfLatched (s : State) : (refuse s).mfLatched = s.mfLatched := rfl
@[simp] theorem refuse_faults (s : State) : (refuse s).faults = s.faults := rfl
@[simp] theorem refuse_refused (s : State) : (refuse s).refused = true := rfl
@[simp] theorem refuse_netOut (s : State) : (refuse s).netOut = s.netOut := rfl
@[simp] theorem refuse_netDrop (s : State) : (refuse s).netDrop = s.netDrop := rfl
@[simp] theorem refuse_intEdges (s : State) : (refuse s).intEdges = s.intEdges := rfl
@[simp] theorem refuse_draws (s : State) : (refuse s).draws = s.draws := rfl
@[simp] theorem refuse_memEpoch (s : State) : (refuse s).memEpoch = s.memEpoch := rfl
@[simp] theorem refuse_resp (s : State) : (refuse s).resp = s.resp := rfl
@[simp] theorem refuse_busFails (s : State) : (refuse s).busFails = s.busFails := rfl
@[simp] theorem refuse_env (s : State) : (refuse s).env = s.env := rfl

/-! ### answer -/

@[simp] theorem answer_cfg (s : State) (r : Response) (n : Nat) : (answer s r n).cfg = s.cfg := rfl
@[simp] theorem answer_phase (s : State) (r : Response) (n : Nat) :
    (answer s r n).phase = s.phase := rfl
@[simp] theorem answer_mr (s : State) (r : Response) (n : Nat) : (answer s r n).mr = s.mr := rfl
@[simp] theorem answer_gar (s : State) (r : Response) (n : Nat) : (answer s r n).gar = s.gar := rfl
@[simp] theorem answer_shar (s : State) (r : Response) (n : Nat) :
    (answer s r n).shar = s.shar := rfl
@[simp] theorem answer_imr (s : State) (r : Response) (n : Nat) : (answer s r n).imr = s.imr := rfl
@[simp] theorem answer_rtr (s : State) (r : Response) (n : Nat) : (answer s r n).rtr = s.rtr := rfl
@[simp] theorem answer_s0mr (s : State) (r : Response) (n : Nat) :
    (answer s r n).s0mr = s.s0mr := rfl
@[simp] theorem answer_cmdPending (s : State) (r : Response) (n : Nat) :
    (answer s r n).cmdPending = s.cmdPending := rfl
@[simp] theorem answer_s0ir (s : State) (r : Response) (n : Nat) :
    (answer s r n).s0ir = s.s0ir := rfl
@[simp] theorem answer_s0sr (s : State) (r : Response) (n : Nat) :
    (answer s r n).s0sr = s.s0sr := rfl
@[simp] theorem answer_s0imr (s : State) (r : Response) (n : Nat) :
    (answer s r n).s0imr = s.s0imr := rfl
@[simp] theorem answer_txRd (s : State) (r : Response) (n : Nat) :
    (answer s r n).txRd = s.txRd := rfl
@[simp] theorem answer_txWr (s : State) (r : Response) (n : Nat) :
    (answer s r n).txWr = s.txWr := rfl
@[simp] theorem answer_rxRd (s : State) (r : Response) (n : Nat) :
    (answer s r n).rxRd = s.rxRd := rfl
@[simp] theorem answer_rxWr (s : State) (r : Response) (n : Nat) :
    (answer s r n).rxWr = s.rxWr := rfl
@[simp] theorem answer_mem (s : State) (r : Response) (n : Nat) : (answer s r n).mem = s.mem := rfl
@[simp] theorem answer_rxRdAcc (s : State) (r : Response) (n : Nat) :
    (answer s r n).rxRdAcc = s.rxRdAcc := rfl
@[simp] theorem answer_sendBusy (s : State) (r : Response) (n : Nat) :
    (answer s r n).sendBusy = s.sendBusy := rfl
@[simp] theorem answer_sendStart (s : State) (r : Response) (n : Nat) :
    (answer s r n).sendStart = s.sendStart := rfl
@[simp] theorem answer_sendEnd (s : State) (r : Response) (n : Nat) :
    (answer s r n).sendEnd = s.sendEnd := rfl
@[simp] theorem answer_raced (s : State) (r : Response) (n : Nat) :
    (answer s r n).raced = s.raced := rfl
@[simp] theorem answer_openPending (s : State) (r : Response) (n : Nat) :
    (answer s r n).openPending = s.openPending := rfl
@[simp] theorem answer_mfLatched (s : State) (r : Response) (n : Nat) :
    (answer s r n).mfLatched = s.mfLatched := rfl
@[simp] theorem answer_faults (s : State) (r : Response) (n : Nat) :
    (answer s r n).faults = s.faults := rfl
@[simp] theorem answer_refused (s : State) (r : Response) (n : Nat) :
    (answer s r n).refused = s.refused := rfl
@[simp] theorem answer_netOut (s : State) (r : Response) (n : Nat) :
    (answer s r n).netOut = s.netOut := rfl
@[simp] theorem answer_netDrop (s : State) (r : Response) (n : Nat) :
    (answer s r n).netDrop = s.netDrop := rfl
@[simp] theorem answer_intEdges (s : State) (r : Response) (n : Nat) :
    (answer s r n).intEdges = s.intEdges := rfl
@[simp] theorem answer_draws (s : State) (r : Response) (n : Nat) :
    (answer s r n).draws = s.draws + n := rfl
@[simp] theorem answer_memEpoch (s : State) (r : Response) (n : Nat) :
    (answer s r n).memEpoch = s.memEpoch := rfl
@[simp] theorem answer_resp (s : State) (r : Response) (n : Nat) : (answer s r n).resp = r := rfl
@[simp] theorem answer_busFails (s : State) (r : Response) (n : Nat) :
    (answer s r n).busFails = s.busFails := rfl
@[simp] theorem answer_env (s : State) (r : Response) (n : Nat) : (answer s r n).env = s.env := rfl

/-! ### setIr -/

@[simp] theorem setIr_cfg (s : State) (i : Fin 8) : (setIr s i).cfg = s.cfg := rfl
@[simp] theorem setIr_phase (s : State) (i : Fin 8) : (setIr s i).phase = s.phase := rfl
@[simp] theorem setIr_mr (s : State) (i : Fin 8) : (setIr s i).mr = s.mr := rfl
@[simp] theorem setIr_gar (s : State) (i : Fin 8) : (setIr s i).gar = s.gar := rfl
@[simp] theorem setIr_shar (s : State) (i : Fin 8) : (setIr s i).shar = s.shar := rfl
@[simp] theorem setIr_imr (s : State) (i : Fin 8) : (setIr s i).imr = s.imr := rfl
@[simp] theorem setIr_rtr (s : State) (i : Fin 8) : (setIr s i).rtr = s.rtr := rfl
@[simp] theorem setIr_s0mr (s : State) (i : Fin 8) : (setIr s i).s0mr = s.s0mr := rfl
@[simp] theorem setIr_cmdPending (s : State) (i : Fin 8) :
    (setIr s i).cmdPending = s.cmdPending := rfl
@[simp] theorem setIr_s0ir (s : State) (i : Fin 8) : (setIr s i).s0ir = s.s0ir ||| maskOf i := rfl
@[simp] theorem setIr_s0sr (s : State) (i : Fin 8) : (setIr s i).s0sr = s.s0sr := rfl
@[simp] theorem setIr_s0imr (s : State) (i : Fin 8) : (setIr s i).s0imr = s.s0imr := rfl
@[simp] theorem setIr_txRd (s : State) (i : Fin 8) : (setIr s i).txRd = s.txRd := rfl
@[simp] theorem setIr_txWr (s : State) (i : Fin 8) : (setIr s i).txWr = s.txWr := rfl
@[simp] theorem setIr_rxRd (s : State) (i : Fin 8) : (setIr s i).rxRd = s.rxRd := rfl
@[simp] theorem setIr_rxWr (s : State) (i : Fin 8) : (setIr s i).rxWr = s.rxWr := rfl
@[simp] theorem setIr_mem (s : State) (i : Fin 8) : (setIr s i).mem = s.mem := rfl
@[simp] theorem setIr_rxRdAcc (s : State) (i : Fin 8) : (setIr s i).rxRdAcc = s.rxRdAcc := rfl
@[simp] theorem setIr_sendBusy (s : State) (i : Fin 8) : (setIr s i).sendBusy = s.sendBusy := rfl
@[simp] theorem setIr_sendStart (s : State) (i : Fin 8) : (setIr s i).sendStart = s.sendStart := rfl
@[simp] theorem setIr_sendEnd (s : State) (i : Fin 8) : (setIr s i).sendEnd = s.sendEnd := rfl
@[simp] theorem setIr_raced (s : State) (i : Fin 8) : (setIr s i).raced = s.raced := rfl
@[simp] theorem setIr_openPending (s : State) (i : Fin 8) :
    (setIr s i).openPending = s.openPending := rfl
@[simp] theorem setIr_mfLatched (s : State) (i : Fin 8) : (setIr s i).mfLatched = s.mfLatched := rfl
@[simp] theorem setIr_faults (s : State) (i : Fin 8) : (setIr s i).faults = s.faults := rfl
@[simp] theorem setIr_refused (s : State) (i : Fin 8) : (setIr s i).refused = s.refused := rfl
@[simp] theorem setIr_netOut (s : State) (i : Fin 8) : (setIr s i).netOut = s.netOut := rfl
@[simp] theorem setIr_netDrop (s : State) (i : Fin 8) : (setIr s i).netDrop = s.netDrop := rfl
@[simp] theorem setIr_intEdges (s : State) (i : Fin 8) : (setIr s i).intEdges = s.intEdges := rfl
@[simp] theorem setIr_draws (s : State) (i : Fin 8) : (setIr s i).draws = s.draws := rfl
@[simp] theorem setIr_memEpoch (s : State) (i : Fin 8) : (setIr s i).memEpoch = s.memEpoch := rfl
@[simp] theorem setIr_resp (s : State) (i : Fin 8) : (setIr s i).resp = s.resp := rfl
@[simp] theorem setIr_busFails (s : State) (i : Fin 8) : (setIr s i).busFails = s.busFails := rfl
@[simp] theorem setIr_env (s : State) (i : Fin 8) : (setIr s i).env = s.env := rfl

/-! ### dropFrame -/

@[simp] theorem dropFrame_cfg (s : State) : (dropFrame s).cfg = s.cfg := rfl
@[simp] theorem dropFrame_phase (s : State) : (dropFrame s).phase = s.phase := rfl
@[simp] theorem dropFrame_mr (s : State) : (dropFrame s).mr = s.mr := rfl
@[simp] theorem dropFrame_gar (s : State) : (dropFrame s).gar = s.gar := rfl
@[simp] theorem dropFrame_shar (s : State) : (dropFrame s).shar = s.shar := rfl
@[simp] theorem dropFrame_imr (s : State) : (dropFrame s).imr = s.imr := rfl
@[simp] theorem dropFrame_rtr (s : State) : (dropFrame s).rtr = s.rtr := rfl
@[simp] theorem dropFrame_s0mr (s : State) : (dropFrame s).s0mr = s.s0mr := rfl
@[simp] theorem dropFrame_cmdPending (s : State) : (dropFrame s).cmdPending = s.cmdPending := rfl
@[simp] theorem dropFrame_s0ir (s : State) : (dropFrame s).s0ir = s.s0ir := rfl
@[simp] theorem dropFrame_s0sr (s : State) : (dropFrame s).s0sr = s.s0sr := rfl
@[simp] theorem dropFrame_s0imr (s : State) : (dropFrame s).s0imr = s.s0imr := rfl
@[simp] theorem dropFrame_txRd (s : State) : (dropFrame s).txRd = s.txRd := rfl
@[simp] theorem dropFrame_txWr (s : State) : (dropFrame s).txWr = s.txWr := rfl
@[simp] theorem dropFrame_rxRd (s : State) : (dropFrame s).rxRd = s.rxRd := rfl
@[simp] theorem dropFrame_rxWr (s : State) : (dropFrame s).rxWr = s.rxWr := rfl
@[simp] theorem dropFrame_mem (s : State) : (dropFrame s).mem = s.mem := rfl
@[simp] theorem dropFrame_rxRdAcc (s : State) : (dropFrame s).rxRdAcc = s.rxRdAcc := rfl
@[simp] theorem dropFrame_sendBusy (s : State) : (dropFrame s).sendBusy = s.sendBusy := rfl
@[simp] theorem dropFrame_sendStart (s : State) : (dropFrame s).sendStart = s.sendStart := rfl
@[simp] theorem dropFrame_sendEnd (s : State) : (dropFrame s).sendEnd = s.sendEnd := rfl
@[simp] theorem dropFrame_raced (s : State) : (dropFrame s).raced = s.raced := rfl
@[simp] theorem dropFrame_openPending (s : State) : (dropFrame s).openPending = s.openPending := rfl
@[simp] theorem dropFrame_mfLatched (s : State) : (dropFrame s).mfLatched = s.mfLatched := rfl
@[simp] theorem dropFrame_faults (s : State) : (dropFrame s).faults = s.faults := rfl
@[simp] theorem dropFrame_refused (s : State) : (dropFrame s).refused = s.refused := rfl
@[simp] theorem dropFrame_netOut (s : State) : (dropFrame s).netOut = s.netOut := rfl
@[simp] theorem dropFrame_netDrop (s : State) : (dropFrame s).netDrop = s.netDrop + 1 := rfl
@[simp] theorem dropFrame_intEdges (s : State) : (dropFrame s).intEdges = s.intEdges := rfl
@[simp] theorem dropFrame_draws (s : State) : (dropFrame s).draws = s.draws := rfl
@[simp] theorem dropFrame_memEpoch (s : State) : (dropFrame s).memEpoch = s.memEpoch := rfl
@[simp] theorem dropFrame_resp (s : State) : (dropFrame s).resp = s.resp := rfl
@[simp] theorem dropFrame_busFails (s : State) : (dropFrame s).busFails = s.busFails := rfl
@[simp] theorem dropFrame_env (s : State) : (dropFrame s).env = s.env := rfl

/-! ### withEnv -/

@[simp] theorem withEnv_cfg (s : State) (e : Env) : (s.withEnv e).cfg = s.cfg := rfl
@[simp] theorem withEnv_phase (s : State) (e : Env) : (s.withEnv e).phase = s.phase := rfl
@[simp] theorem withEnv_mr (s : State) (e : Env) : (s.withEnv e).mr = s.mr := rfl
@[simp] theorem withEnv_gar (s : State) (e : Env) : (s.withEnv e).gar = s.gar := rfl
@[simp] theorem withEnv_shar (s : State) (e : Env) : (s.withEnv e).shar = s.shar := rfl
@[simp] theorem withEnv_imr (s : State) (e : Env) : (s.withEnv e).imr = s.imr := rfl
@[simp] theorem withEnv_rtr (s : State) (e : Env) : (s.withEnv e).rtr = s.rtr := rfl
@[simp] theorem withEnv_s0mr (s : State) (e : Env) : (s.withEnv e).s0mr = s.s0mr := rfl
@[simp] theorem withEnv_cmdPending (s : State) (e : Env) :
    (s.withEnv e).cmdPending = s.cmdPending := rfl
@[simp] theorem withEnv_s0ir (s : State) (e : Env) : (s.withEnv e).s0ir = s.s0ir := rfl
@[simp] theorem withEnv_s0sr (s : State) (e : Env) : (s.withEnv e).s0sr = s.s0sr := rfl
@[simp] theorem withEnv_s0imr (s : State) (e : Env) : (s.withEnv e).s0imr = s.s0imr := rfl
@[simp] theorem withEnv_txRd (s : State) (e : Env) : (s.withEnv e).txRd = s.txRd := rfl
@[simp] theorem withEnv_txWr (s : State) (e : Env) : (s.withEnv e).txWr = s.txWr := rfl
@[simp] theorem withEnv_rxRd (s : State) (e : Env) : (s.withEnv e).rxRd = s.rxRd := rfl
@[simp] theorem withEnv_rxWr (s : State) (e : Env) : (s.withEnv e).rxWr = s.rxWr := rfl
@[simp] theorem withEnv_mem (s : State) (e : Env) : (s.withEnv e).mem = s.mem := rfl
@[simp] theorem withEnv_rxRdAcc (s : State) (e : Env) : (s.withEnv e).rxRdAcc = s.rxRdAcc := rfl
@[simp] theorem withEnv_sendBusy (s : State) (e : Env) : (s.withEnv e).sendBusy = s.sendBusy := rfl
@[simp] theorem withEnv_sendStart (s : State) (e : Env) :
    (s.withEnv e).sendStart = s.sendStart := rfl
@[simp] theorem withEnv_sendEnd (s : State) (e : Env) : (s.withEnv e).sendEnd = s.sendEnd := rfl
@[simp] theorem withEnv_raced (s : State) (e : Env) : (s.withEnv e).raced = s.raced := rfl
@[simp] theorem withEnv_openPending (s : State) (e : Env) :
    (s.withEnv e).openPending = s.openPending := rfl
@[simp] theorem withEnv_mfLatched (s : State) (e : Env) :
    (s.withEnv e).mfLatched = s.mfLatched := rfl
@[simp] theorem withEnv_faults (s : State) (e : Env) : (s.withEnv e).faults = s.faults := rfl
@[simp] theorem withEnv_refused (s : State) (e : Env) : (s.withEnv e).refused = s.refused := rfl
@[simp] theorem withEnv_netOut (s : State) (e : Env) : (s.withEnv e).netOut = s.netOut := rfl
@[simp] theorem withEnv_netDrop (s : State) (e : Env) : (s.withEnv e).netDrop = s.netDrop := rfl
@[simp] theorem withEnv_intEdges (s : State) (e : Env) : (s.withEnv e).intEdges = s.intEdges := rfl
@[simp] theorem withEnv_draws (s : State) (e : Env) : (s.withEnv e).draws = s.draws := rfl
@[simp] theorem withEnv_memEpoch (s : State) (e : Env) : (s.withEnv e).memEpoch = s.memEpoch := rfl
@[simp] theorem withEnv_resp (s : State) (e : Env) : (s.withEnv e).resp = s.resp := rfl
@[simp] theorem withEnv_busFails (s : State) (e : Env) : (s.withEnv e).busFails = s.busFails := rfl
@[simp] theorem withEnv_env (s : State) (e : Env) : (s.withEnv e).env = e := rfl

/-! ### drawBus -/

@[simp] theorem drawBus_cfg (s : State) : (drawBus s).cfg = s.cfg := rfl
@[simp] theorem drawBus_phase (s : State) : (drawBus s).phase = s.phase := rfl
@[simp] theorem drawBus_mr (s : State) : (drawBus s).mr = s.mr := rfl
@[simp] theorem drawBus_gar (s : State) : (drawBus s).gar = s.gar := rfl
@[simp] theorem drawBus_shar (s : State) : (drawBus s).shar = s.shar := rfl
@[simp] theorem drawBus_imr (s : State) : (drawBus s).imr = s.imr := rfl
@[simp] theorem drawBus_rtr (s : State) : (drawBus s).rtr = s.rtr := rfl
@[simp] theorem drawBus_s0mr (s : State) : (drawBus s).s0mr = s.s0mr := rfl
@[simp] theorem drawBus_cmdPending (s : State) : (drawBus s).cmdPending = s.cmdPending := rfl
@[simp] theorem drawBus_s0ir (s : State) : (drawBus s).s0ir = s.s0ir := rfl
@[simp] theorem drawBus_s0sr (s : State) : (drawBus s).s0sr = s.s0sr := rfl
@[simp] theorem drawBus_s0imr (s : State) : (drawBus s).s0imr = s.s0imr := rfl
@[simp] theorem drawBus_txRd (s : State) : (drawBus s).txRd = s.txRd := rfl
@[simp] theorem drawBus_txWr (s : State) : (drawBus s).txWr = s.txWr := rfl
@[simp] theorem drawBus_rxRd (s : State) : (drawBus s).rxRd = s.rxRd := rfl
@[simp] theorem drawBus_rxWr (s : State) : (drawBus s).rxWr = s.rxWr := rfl
@[simp] theorem drawBus_mem (s : State) : (drawBus s).mem = s.mem := rfl
@[simp] theorem drawBus_rxRdAcc (s : State) : (drawBus s).rxRdAcc = s.rxRdAcc := rfl
@[simp] theorem drawBus_sendBusy (s : State) : (drawBus s).sendBusy = s.sendBusy := rfl
@[simp] theorem drawBus_sendStart (s : State) : (drawBus s).sendStart = s.sendStart := rfl
@[simp] theorem drawBus_sendEnd (s : State) : (drawBus s).sendEnd = s.sendEnd := rfl
@[simp] theorem drawBus_raced (s : State) : (drawBus s).raced = s.raced := rfl
@[simp] theorem drawBus_openPending (s : State) : (drawBus s).openPending = s.openPending := rfl
@[simp] theorem drawBus_mfLatched (s : State) : (drawBus s).mfLatched = s.mfLatched := rfl
@[simp] theorem drawBus_faults (s : State) : (drawBus s).faults = s.faults := rfl
@[simp] theorem drawBus_refused (s : State) : (drawBus s).refused = s.refused := rfl
@[simp] theorem drawBus_netOut (s : State) : (drawBus s).netOut = s.netOut := rfl
@[simp] theorem drawBus_netDrop (s : State) : (drawBus s).netDrop = s.netDrop := rfl
@[simp] theorem drawBus_intEdges (s : State) : (drawBus s).intEdges = s.intEdges := rfl
@[simp] theorem drawBus_draws (s : State) : (drawBus s).draws = s.draws := rfl
@[simp] theorem drawBus_memEpoch (s : State) : (drawBus s).memEpoch = s.memEpoch := rfl
@[simp] theorem drawBus_resp (s : State) : (drawBus s).resp = s.resp := rfl
@[simp] theorem drawBus_busFails (s : State) :
    (drawBus s).busFails = s.env.busFaults.headD false := rfl
@[simp] theorem drawBus_env (s : State) :
    (drawBus s).env = { s.env with busFaults := s.env.busFaults.tail } := rfl

/-! ### noteEdge -/

@[simp] theorem noteEdge_cfg (u s : State) : (noteEdge u s).cfg = s.cfg := rfl
@[simp] theorem noteEdge_phase (u s : State) : (noteEdge u s).phase = s.phase := rfl
@[simp] theorem noteEdge_mr (u s : State) : (noteEdge u s).mr = s.mr := rfl
@[simp] theorem noteEdge_gar (u s : State) : (noteEdge u s).gar = s.gar := rfl
@[simp] theorem noteEdge_shar (u s : State) : (noteEdge u s).shar = s.shar := rfl
@[simp] theorem noteEdge_imr (u s : State) : (noteEdge u s).imr = s.imr := rfl
@[simp] theorem noteEdge_rtr (u s : State) : (noteEdge u s).rtr = s.rtr := rfl
@[simp] theorem noteEdge_s0mr (u s : State) : (noteEdge u s).s0mr = s.s0mr := rfl
@[simp] theorem noteEdge_cmdPending (u s : State) : (noteEdge u s).cmdPending = s.cmdPending := rfl
@[simp] theorem noteEdge_s0ir (u s : State) : (noteEdge u s).s0ir = s.s0ir := rfl
@[simp] theorem noteEdge_s0sr (u s : State) : (noteEdge u s).s0sr = s.s0sr := rfl
@[simp] theorem noteEdge_s0imr (u s : State) : (noteEdge u s).s0imr = s.s0imr := rfl
@[simp] theorem noteEdge_txRd (u s : State) : (noteEdge u s).txRd = s.txRd := rfl
@[simp] theorem noteEdge_txWr (u s : State) : (noteEdge u s).txWr = s.txWr := rfl
@[simp] theorem noteEdge_rxRd (u s : State) : (noteEdge u s).rxRd = s.rxRd := rfl
@[simp] theorem noteEdge_rxWr (u s : State) : (noteEdge u s).rxWr = s.rxWr := rfl
@[simp] theorem noteEdge_mem (u s : State) : (noteEdge u s).mem = s.mem := rfl
@[simp] theorem noteEdge_rxRdAcc (u s : State) : (noteEdge u s).rxRdAcc = s.rxRdAcc := rfl
@[simp] theorem noteEdge_sendBusy (u s : State) : (noteEdge u s).sendBusy = s.sendBusy := rfl
@[simp] theorem noteEdge_sendStart (u s : State) : (noteEdge u s).sendStart = s.sendStart := rfl
@[simp] theorem noteEdge_sendEnd (u s : State) : (noteEdge u s).sendEnd = s.sendEnd := rfl
@[simp] theorem noteEdge_raced (u s : State) : (noteEdge u s).raced = s.raced := rfl
@[simp] theorem noteEdge_openPending (u s : State) :
    (noteEdge u s).openPending = s.openPending := rfl
@[simp] theorem noteEdge_mfLatched (u s : State) : (noteEdge u s).mfLatched = s.mfLatched := rfl
@[simp] theorem noteEdge_faults (u s : State) : (noteEdge u s).faults = s.faults := rfl
@[simp] theorem noteEdge_refused (u s : State) : (noteEdge u s).refused = s.refused := rfl
@[simp] theorem noteEdge_netOut (u s : State) : (noteEdge u s).netOut = s.netOut := rfl
@[simp] theorem noteEdge_netDrop (u s : State) : (noteEdge u s).netDrop = s.netDrop := rfl
@[simp] theorem noteEdge_intEdges (u s : State) :
    (noteEdge u s).intEdges = s.intEdges + if !u.intAsserted && s.intAsserted then 1 else 0 := rfl
@[simp] theorem noteEdge_draws (u s : State) : (noteEdge u s).draws = s.draws := rfl
@[simp] theorem noteEdge_memEpoch (u s : State) : (noteEdge u s).memEpoch = s.memEpoch := rfl
@[simp] theorem noteEdge_resp (u s : State) : (noteEdge u s).resp = s.resp := rfl
@[simp] theorem noteEdge_busFails (u s : State) : (noteEdge u s).busFails = s.busFails := rfl
@[simp] theorem noteEdge_env (u s : State) : (noteEdge u s).env = s.env := rfl

end Sys2Proof.Laws
end

