-- ==== Sys2Proof/Laws/Ops.lean ====
section
/-!
SUPPORT. The guard of every step, and what each engine, network and host operation can do.
-/

namespace Sys2Proof.Laws

open Sys2Proof.Machine

variable {s t : State} {k : Result}

/-- On a live state the guard lets the step be taken. -/
theorem gate_live (h : s.live) : gate s k = k := by
  obtain ⟨h1, h2, h3⟩ := h
  simp [gate, h1, h2, h3]

/-- A guarded step that answers a next state took its effect on a live state, or refused a binding
that breaks its constraints. -/
theorem gate_next (h : gate s k = .next t) :
    (s.live ∧ k = .next t) ∨ (s.faults = [] ∧ s.refused = false ∧ t = refuse s) := by
  unfold gate at h
  split at h
  · simp at h
  · split at h
    · simp at h
    · rename_i h1 h2
      split at h
      · exact .inl ⟨⟨by simpa using h1, by simpa using h2, ‹_›⟩, h⟩
      · exact .inr ⟨by simpa using h1, by simpa using h2, by simpa using h.symm⟩

/-- After a fault no step is taken (60 R185). -/
theorem gate_faulted (h : s.faults ≠ []) : gate s k = .fault .quiescent := by simp [gate, h]

/-- After a refusal no step is taken (60 R186). -/
theorem gate_refused (h : s.faults = []) (h' : s.refused = true) : gate s k = .refused .declined := by
  simp [gate, h, h']

theorem act_live {f : State → State} (h : s.live) : act f s = .next (noteEdge s (f s)) := gate_live h

theorem act_next {f : State → State} (h : act f s = .next t) :
    (s.live ∧ t = noteEdge s (f s)) ∨ (s.faults = [] ∧ s.refused = false ∧ t = refuse s) := by
  rcases gate_next h with ⟨hl, h⟩ | h
  · exact .inl ⟨hl, by simpa using h.symm⟩
  · exact .inr h

/-- The effect of each operation, without the guard. -/
def effect : Instr → State → State
  | .rd8 a => readEffect a
  | .openSock => fun s => writeEffect s.cfg.aS0Cr s.cfg.cmdOpen s
  | .closeSock => fun s => writeEffect s.cfg.aS0Cr s.cfg.cmdClose s
  | .send => fun s => writeEffect s.cfg.aS0Cr s.cfg.cmdSend s
  | .recv => fun s => writeEffect s.cfg.aS0Cr s.cfg.cmdRecv s
  | .cmdIllegal v => fun s => writeEffect s.cfg.aS0Cr v s
  | .swReset v => fun s => writeEffect s.cfg.aMr v s
  | .w1c v => fun s => writeEffect s.cfg.aS0Ir v s
  | .wr8 a v => writeEffect a v
  | .mapTx p => fun s => answer s (.addr (mapAt s.cfg .tx p)) 0
  | .mapRx p => fun s => answer s (.addr (mapAt s.cfg .rx p)) 0
  | .splitTx p n => splitEffect .tx p n
  | .splitRx p n => splitEffect .rx p n
  | .rstAssert => assertEffect
  | .rstRelease => releaseEffect

/-- Every operation is its effect behind the guard. -/
theorem exec_eq_act (i : Instr) (s : State) : exec i s = act (effect i) s := by cases i <;> rfl

/-- On a live state every operation answers a next state. -/
theorem exec_live (i : Instr) (h : s.live) : exec i s = .next (noteEdge s (effect i s)) := by
  rw [exec_eq_act, act_live h]

theorem exec_next {i : Instr} (h : exec i s = .next t) :
    (s.live ∧ t = noteEdge s (effect i s)) ∨ (s.faults = [] ∧ s.refused = false ∧ t = refuse s) :=
  act_next (exec_eq_act i s ▸ h)

/-- A read keeps every field but the fault record, the answer and the draw counter (20 R69). -/
theorem readEffect_eq (a : Addr) (s : State) :
    readEffect a s = { s with
      faults := (readEffect a s).faults
      resp := (readEffect a s).resp
      draws := (readEffect a s).draws } := by
  unfold readEffect
  repeat' split
  all_goals rfl

/-- What a write to a mapped byte can do: a fault, or one of the stores of its class. -/
theorem writeReg_cases (s : State) (a : Addr) (v : Byte) (r : Reg) (i : Nat) :
    (∃ f, writeReg s a v r i = raise s f) ∨
    writeReg s a v r i = { s with phase := .swReset } ∨
    (bitAt v s.cfg.mrRst = false ∧ writeReg s a v r i = { s with mr := v }) ∨
    (∃ c, s.cmdPending = none ∧ cmdCheck s c = none ∧
      writeReg s a v r i = { s with cmdPending := some c }) ∨
    writeReg s a v r i = { s with s0ir := w1cBits s.s0ir v } ∨
    ∃ g h m r0 m0 im w rd,
      writeReg s a v r i =
        { s with gar := g, shar := h, imr := m, rtr := r0, s0mr := m0, s0imr := im, txWr := w, rxRd := rd } := by
  cases r
  case mr =>
    simp only [writeReg, writeMr]
    split
    · exact .inr (.inl rfl)
    · rename_i h
      exact .inr (.inr (.inl ⟨by simpa using h, rfl⟩))
  case s0cr =>
    simp only [writeReg, writeS0Cr]
    split
    · exact .inl ⟨_, rfl⟩
    · split
      · exact .inl ⟨_, rfl⟩
      · split
        · exact .inl ⟨_, rfl⟩
        · exact .inr (.inr (.inr (.inl ⟨_, ‹_›, ‹_›, rfl⟩)))
  case s0ir => exact .inr (.inr (.inr (.inr (.inl rfl))))
  case ir => exact .inl ⟨_, rfl⟩
  case s0sr => exact .inl ⟨_, rfl⟩
  case txFsr => exact .inl ⟨_, rfl⟩
  case txRd => exact .inl ⟨_, rfl⟩
  case rxRsr => exact .inl ⟨_, rfl⟩
  case rxWr => exact .inl ⟨_, rfl⟩
  case gar => exact .inr (.inr (.inr (.inr (.inr ⟨_, s.shar, s.imr, s.rtr, s.s0mr, s.s0imr, s.txWr, s.rxRd, rfl⟩))))
  case shar => exact .inr (.inr (.inr (.inr (.inr ⟨s.gar, _, s.imr, s.rtr, s.s0mr, s.s0imr, s.txWr, s.rxRd, rfl⟩))))
  case imr => exact .inr (.inr (.inr (.inr (.inr ⟨s.gar, s.shar, _, s.rtr, s.s0mr, s.s0imr, s.txWr, s.rxRd, rfl⟩))))
  case rtr => exact .inr (.inr (.inr (.inr (.inr ⟨s.gar, s.shar, s.imr, _, s.s0mr, s.s0imr, s.txWr, s.rxRd, rfl⟩))))
  case s0mr => exact .inr (.inr (.inr (.inr (.inr ⟨s.gar, s.shar, s.imr, s.rtr, _, s.s0imr, s.txWr, s.rxRd, rfl⟩))))
  case s0imr => exact .inr (.inr (.inr (.inr (.inr ⟨s.gar, s.shar, s.imr, s.rtr, s.s0mr, _, s.txWr, s.rxRd, rfl⟩))))
  case txWr => exact .inr (.inr (.inr (.inr (.inr ⟨s.gar, s.shar, s.imr, s.rtr, s.s0mr, s.s0imr, _, s.rxRd, rfl⟩))))
  case rxRd => exact .inr (.inr (.inr (.inr (.inr ⟨s.gar, s.shar, s.imr, s.rtr, s.s0mr, s.s0imr, s.txWr, _, rfl⟩))))

/-- What a host write can do: a fault, a store of a register's class in READY, or a TX window
byte. -/
theorem writeEffect_cases (a : Addr) (v : Byte) (s : State) :
    (∃ f, writeEffect a v s = raise s f) ∨
    (s.phase = .ready ∧
      ((∃ r i, locate s.cfg a = some (.reg r i) ∧ writeEffect a v s = writeReg s a v r i) ∨
       (locate s.cfg a = some (.win .tx) ∧ writeEffect a v s = writeTx s a v))) := by
  unfold writeEffect
  split
  · exact .inl ⟨_, rfl⟩
  · split
    · exact .inl ⟨_, rfl⟩
    · rename_i hp
      have hp : s.phase = .ready := by simpa using hp
      split
      · exact .inl ⟨_, rfl⟩
      · rename_i l hl
        cases l with
        | reg r i => exact .inr ⟨hp, .inl ⟨r, i, hl, rfl⟩⟩
        | win w =>
          cases w
          · exact .inr ⟨hp, .inr ⟨hl, rfl⟩⟩
          · exact .inl ⟨_, rfl⟩

/-- A host operation is a read, a write, a mapper word or a level on the reset input. -/
theorem effect_cases (i : Instr) (s : State) :
    (∃ a, effect i s = readEffect a s) ∨ (∃ a v, effect i s = writeEffect a v s) ∨
    (∃ r, effect i s = answer s r 0) ∨ effect i s = refuse s ∨
    effect i s = assertEffect s ∨ effect i s = releaseEffect s := by
  cases i
  case rd8 a => exact .inl ⟨a, rfl⟩
  case openSock => exact .inr (.inl ⟨_, _, rfl⟩)
  case closeSock => exact .inr (.inl ⟨_, _, rfl⟩)
  case send => exact .inr (.inl ⟨_, _, rfl⟩)
  case recv => exact .inr (.inl ⟨_, _, rfl⟩)
  case cmdIllegal v => exact .inr (.inl ⟨_, _, rfl⟩)
  case swReset v => exact .inr (.inl ⟨_, _, rfl⟩)
  case w1c v => exact .inr (.inl ⟨_, _, rfl⟩)
  case wr8 a v => exact .inr (.inl ⟨_, _, rfl⟩)
  case mapTx p => exact .inr (.inr (.inl ⟨_, rfl⟩))
  case mapRx p => exact .inr (.inr (.inl ⟨_, rfl⟩))
  case splitTx p n =>
    simp only [effect, splitEffect]
    split
    · exact .inr (.inr (.inr (.inl rfl)))
    · exact .inr (.inr (.inl ⟨_, rfl⟩))
  case splitRx p n =>
    simp only [effect, splitEffect]
    split
    · exact .inr (.inr (.inr (.inl rfl)))
    · exact .inr (.inr (.inl ⟨_, rfl⟩))
  case rstAssert => exact .inr (.inr (.inr (.inr (.inl rfl))))
  case rstRelease => exact .inr (.inr (.inr (.inr (.inr rfl))))

/-- The state the engine or the network owns, and the world's: no host operation changes it. -/
def ownedByEngine (s : State) :=
  (s.cfg, s.s0sr, s.txRd, s.rxWr, s.rxRdAcc, s.sendStart, s.sendEnd, s.mfLatched, s.netDrop, s.intEdges,
    s.memEpoch, s.busFails, s.env)

theorem effect_ownedByEngine (i : Instr) (s : State) : ownedByEngine (effect i s) = ownedByEngine s := by
  rcases effect_cases i s with ⟨a, h⟩ | ⟨a, v, h⟩ | ⟨r, h⟩ | h | h | h
  · rw [h, readEffect_eq]; rfl
  · rw [h]
    rcases writeEffect_cases a v s with ⟨f, h⟩ | ⟨-, ⟨r, j, -, h⟩ | ⟨-, h⟩⟩
    · rw [h]; rfl
    · rw [h]
      rcases writeReg_cases s a v r j with ⟨f, h⟩ | h | ⟨-, h⟩ | ⟨c, -, -, h⟩ | h |
        ⟨g, e, m, r0, m0, im, w, rd, h⟩ <;> rw [h] <;> rfl
    · rw [h]; rfl
  · rw [h]; rfl
  · rw [h]; rfl
  · rw [h]; unfold assertEffect abortSend; repeat' split
    all_goals rfl
  · rw [h]; unfold releaseEffect; split <;> rfl

end Sys2Proof.Laws
end

