-- ==== Sys2Proof/Laws/Engine.lean ====
section
/-!
SUPPORT. What an engine step and a network step can do: one inversion lemma each.
-/

namespace Sys2Proof.Laws

open Sys2Proof.Machine

/-- An engine step that is not enabled has no effect (log entry 9). -/
theorem engineEffect_disabled {e : EngineStep} {s : State} (h : e.enabled s = false) :
    engineEffect e s = s := by
  cases e
  case accept => cases hc : s.cmdPending <;> simp_all [EngineStep.enabled, engineEffect]
  all_goals simp_all [EngineStep.enabled, engineEffect]

/-- A list of bytes that is no frame is no offer (log entry 17). -/
theorem offerEffect_disabled {f : Frame} {s : State} (h : offerEnabled s f = false) :
    offerEffect f s = s := by
  simp only [offerEnabled, Bool.and_eq_false_iff, decide_eq_false_iff_not] at h
  rw [offerEffect, if_pos (by omega)]

/-- The fair step chosen is enabled (42 R158). -/
theorem fairStep_enabled {e : EngineStep} {s : State} (h : fairStep s = some e) :
    e.enabled s = true := by
  unfold fairStep at h
  split at h
  · cases h
  · cases h; simp_all [EngineStep.enabled]
  · cases h; simp_all [EngineStep.enabled]
  · repeat' split at h
    all_goals cases h
    all_goals simp_all [EngineStep.enabled]

/-- An engine step does nothing, or it is the one enabled effect of its rule. -/
theorem engineEffect_cases (e : EngineStep) (s : State) :
    engineEffect e s = s ∨
    (∃ c, e = .accept ∧ s.cmdPending = some c ∧ s.phase = .ready ∧ engineEffect e s = acceptCmd s c) ∨
    (e = .openDone ∧ s.openPending = true ∧ s.phase = .ready ∧ engineEffect e s = openDone s) ∨
    (e = .sendDone ∧ s.sendBusy = true ∧ s.phase = .ready ∧ engineEffect e s = sendDone s) ∨
    (∃ bits, e = .reservedIr bits ∧ s.cfg.otherIrQuiet = false ∧ s.phase = .ready ∧
      engineEffect e s = { s with s0ir := s.s0ir ||| (bits &&& reservedMask s.cfg) }) ∨
    (e = .settle ∧ s.phase = .settling ∧ engineEffect e s = resetItems s) ∨
    (e = .resetDone ∧ s.phase = .swReset ∧ engineEffect e s = resetItems (abortSend s)) := by
  cases e <;> simp only [engineEffect] <;> repeat' split
  all_goals simp_all

/-- The acceptance of a pending command faults, or takes the effect of its rule (42 R144, R147,
R149, R152). -/
theorem acceptCmd_cases (s : State) (c : Cmd) :
    (∃ f, acceptCmd s c = raise s f) ∨
    (c = .openSock ∧ s.macrawMode = true ∧ ∃ t r init,
      acceptCmd s c =
        { s with
          txRd := t, txWr := t, rxRd := r, rxWr := r, rxRdAcc := r,
          mfLatched := bitAt s.s0mr s.cfg.s0MrMf,
          s0sr := if init then s.cfg.srInit else s.cfg.srMacraw,
          openPending := init, cmdPending := none, draws := s.draws + 3 }) ∨
    (c = .closeSock ∧
      acceptCmd s c = { s with s0sr := s.cfg.srClosed, openPending := false, cmdPending := none }) ∨
    (c = .send ∧ s.badSendSize = false ∧
      acceptCmd s c =
        { s with
          sendStart := s.txRd, sendEnd := s.txWr, raced := [], sendBusy := true,
          cmdPending := none }) ∨
    (c = .recv ∧ s.recvPast = false ∧ ∃ ir n,
      (ir = s.s0ir ∨ ir = s.s0ir ||| maskOf s.cfg.irRecv) ∧
      acceptCmd s c =
        { s with rxRdAcc := s.rxRd, cmdPending := none, s0ir := ir, draws := s.draws + n }) := by
  cases c
  case openSock =>
    simp only [acceptCmd, acceptOpen]
    split
    · exact .inl ⟨_, rfl⟩
    · rename_i h
      exact .inr (.inl ⟨trivial, by simpa using h, _, _, _, rfl⟩)
  case closeSock => exact .inr (.inr (.inl ⟨rfl, rfl⟩))
  case send =>
    simp only [acceptCmd, acceptSend]
    split
    · exact .inl ⟨_, rfl⟩
    · rename_i h
      exact .inr (.inr (.inr (.inl ⟨trivial, by simpa using h, rfl⟩)))
  case recv =>
    simp only [acceptCmd, acceptRecv]
    split
    · exact .inl ⟨_, rfl⟩
    · rename_i h
      refine .inr (.inr (.inr (.inr ⟨trivial, by simpa using h, ?_⟩)))
      split
      · exact ⟨s.s0ir, 0, .inl rfl, rfl⟩
      · split
        · exact ⟨_, 1, .inr rfl, rfl⟩
        · exact ⟨s.s0ir, 1, .inl rfl, rfl⟩

/-- A network step does nothing, drops the frame whole, or deposits a frame that fits, in READY with
the socket open (42 R153 to R155). -/
theorem offerEffect_cases (f : Frame) (s : State) :
    offerEffect f s = s ∨
    (∃ n, offerEffect f s = { s with netDrop := s.netDrop + 1, draws := n }) ∨
    (s.phase = .ready ∧ s.s0sr = s.cfg.srMacraw ∧ 1 ≤ f.length ∧ f.length ≤ s.cfg.maxFrame ∧
      hdrLen + f.length ≤ s.rxFree ∧ ∃ n,
      offerEffect f s =
        { s with
          mem := ringStore s.cfg .rx s.rxWr
            (hi8 (prefixOf s.cfg f.length) :: lo8 (prefixOf s.cfg f.length) :: f) s.mem
          rxWr := advance s.rxWr (hdrLen + f.length)
          s0ir := s.s0ir ||| maskOf s.cfg.irRecv
          draws := n }) := by
  have dep (n : Nat) : s.rxFree < hdrLen + f.length ∧
        deposit f { s with draws := n } = { s with netDrop := s.netDrop + 1, draws := n } ∨
      hdrLen + f.length ≤ s.rxFree ∧ deposit f { s with draws := n } =
        { s with
          mem := ringStore s.cfg .rx s.rxWr
            (hi8 (prefixOf s.cfg f.length) :: lo8 (prefixOf s.cfg f.length) :: f) s.mem
          rxWr := advance s.rxWr (hdrLen + f.length)
          s0ir := s.s0ir ||| maskOf s.cfg.irRecv
          draws := n } := by
    by_cases h : s.rxFree < hdrLen + f.length
    · left; exact ⟨h, by simp only [deposit]; rw [if_pos (by exact h)]; rfl⟩
    · right; exact ⟨by omega, by simp only [deposit]; rw [if_neg (by exact h)]; rfl⟩
  unfold offerEffect
  split
  · exact .inl rfl
  · rename_i hlen
    split
    · exact .inr (.inl ⟨s.draws, rfl⟩)
    · rename_i hst
      have hst : s.phase = .ready ∧ s.s0sr = s.cfg.srMacraw := by simpa using hst
      have hl : 1 ≤ f.length ∧ f.length ≤ s.cfg.maxFrame := by omega
      split
      · rcases dep s.draws with ⟨-, h⟩ | ⟨hf, h⟩
        · exact .inr (.inl ⟨s.draws, h⟩)
        · exact .inr (.inr ⟨hst.1, hst.2, hl.1, hl.2, hf, s.draws, h⟩)
      · split
        · exact .inr (.inl ⟨s.draws + 1, rfl⟩)
        · rcases dep (s.draws + 1) with ⟨-, h⟩ | ⟨hf, h⟩
          · exact .inr (.inl ⟨s.draws + 1, h⟩)
          · exact .inr (.inr ⟨hst.1, hst.2, hl.1, hl.2, hf, s.draws + 1, h⟩)

end Sys2Proof.Laws
end

