-- ==== Sys2Proof/Laws/Memory.lean ====
section
/-!
SUPPORT. Ring memory: read after write, and that every memory operation keeps the canonical form.
-/

namespace Sys2Proof.Laws

open Sys2Proof.Machine

@[simp] theorem read_write_same (m : Memory) (a : Nat) (v : Byte) :
    Memory.read (Memory.write m a v) a = some v := by
  induction m with
  | nil => simp [Memory.write, Memory.read]
  | cons c rest ih =>
    obtain ⟨x, u⟩ := c
    simp only [Memory.write]
    split
    · simp [Memory.read]
    · split
      · simp [Memory.read]
      · rename_i h1 h2
        simp [Memory.read, ih, Ne.symm h2]

theorem read_write_other (m : Memory) {a a' : Nat} (v : Byte) (h : a' ≠ a) :
    Memory.read (Memory.write m a v) a' = Memory.read m a' := by
  induction m with
  | nil => simp [Memory.write, Memory.read, Ne.symm h]
  | cons c rest ih =>
    obtain ⟨x, u⟩ := c
    simp only [Memory.write]
    split
    · simp [Memory.read, Ne.symm h]
    · split
      · rename_i h1 h2
        subst h2
        simp [Memory.read, Ne.symm h]
      · by_cases hx : x = a'
        · simp [Memory.read, hx]
        · simp [Memory.read, hx, ih]

/-- Every listed address is above `a`. -/
def allAbove (a : Nat) (m : Memory) : Prop := ∀ c ∈ m, a < c.1

theorem wf_cons (c : Host.Cell) (m : Memory) :
    Memory.wf (c :: m) = true ↔ allAbove c.1 m ∧ Memory.wf m = true := by
  induction m generalizing c with
  | nil => simp [Memory.wf, allAbove]
  | cons d rest ih =>
    obtain ⟨x, u⟩ := c
    obtain ⟨y, v⟩ := d
    simp only [Memory.wf, Bool.and_eq_true, decide_eq_true_eq]
    constructor
    · rintro ⟨hxy, hw⟩
      refine ⟨?_, hw⟩
      intro c hc
      rcases List.mem_cons.1 hc with rfl | hc
      · exact hxy
      · exact Nat.lt_trans hxy (((ih (y, v)).1 hw).1 c hc)
    · rintro ⟨ha, hw⟩
      exact ⟨ha (y, v) (by simp), hw⟩

theorem mem_write {m : Memory} {a : Nat} {v : Byte} {c : Host.Cell}
    (h : c ∈ Memory.write m a v) : c = (a, v) ∨ c ∈ m := by
  induction m with
  | nil => simpa [Memory.write] using h
  | cons d rest ih =>
    obtain ⟨x, u⟩ := d
    simp only [Memory.write] at h
    split at h
    · simpa using h
    · split at h
      · rcases List.mem_cons.1 h with h | h
        · exact .inl h
        · exact .inr (List.mem_cons_of_mem _ h)
      · rcases List.mem_cons.1 h with h | h
        · exact .inr (by simp [h])
        · exact (ih h).imp id (List.mem_cons_of_mem _)

theorem write_wf {m : Memory} (a : Nat) (v : Byte) (h : Memory.wf m = true) :
    Memory.wf (Memory.write m a v) = true := by
  induction m with
  | nil => simp [Memory.write, Memory.wf]
  | cons d rest ih =>
    obtain ⟨x, u⟩ := d
    obtain ⟨ha, hw⟩ := (wf_cons _ _).1 h
    simp only [Memory.write]
    split
    · rename_i hlt
      refine (wf_cons _ _).2 ⟨?_, h⟩
      intro c hc
      rcases List.mem_cons.1 hc with rfl | hc
      · exact hlt
      · exact Nat.lt_trans hlt (ha c hc)
    · split
      · rename_i h1 h2
        subst h2
        exact (wf_cons _ _).2 ⟨ha, hw⟩
      · rename_i h1 h2
        refine (wf_cons _ _).2 ⟨?_, ih hw⟩
        intro c hc
        rcases mem_write hc with rfl | hc
        · show x < a
          omega
        · exact ha c hc

theorem ringStore_wf (b : Binding) (w : Win) (p : Word) (vs : List Byte) {m : Memory}
    (h : Memory.wf m = true) : Memory.wf (ringStore b w p vs m) = true := by
  induction vs generalizing p m with
  | nil => simpa [ringStore] using h
  | cons v vs ih => exact ih (p + 1) (write_wf _ _ h)

/-- A ring store changes no address but those of the positions it stores at. -/
theorem read_ringStore_other (b : Binding) (w : Win) (p : Word) (vs : List Byte) (m : Memory) (a : Nat)
    (h : ∀ i < vs.length, (mapAt b w (p + BitVec.ofNat 16 i)).toNat ≠ a) :
    Memory.read (ringStore b w p vs m) a = Memory.read m a := by
  induction vs generalizing p m with
  | nil => rfl
  | cons v vs ih =>
    rw [ringStore, ih]
    · exact read_write_other _ _ (by simpa using Ne.symm (h 0 (by simp)))
    · intro i hi
      have := h (i + 1) (by simpa using hi)
      rwa [BitVec.ofNat_add, BitVec.add_comm (BitVec.ofNat 16 i), ← BitVec.add_assoc] at this

/-- A ring store stores byte `i` at position p +16 i, when no later position maps to its address. -/
theorem read_ringStore_at (b : Binding) (w : Win) (p : Word) (vs : List Byte) (m : Memory)
    (i : Nat) (hi : i < vs.length)
    (h : ∀ j < vs.length, i < j →
      (mapAt b w (p + BitVec.ofNat 16 j)).toNat ≠ (mapAt b w (p + BitVec.ofNat 16 i)).toNat) :
    Memory.read (ringStore b w p vs m) (mapAt b w (p + BitVec.ofNat 16 i)).toNat = some vs[i] := by
  have step (j : Nat) : p + 1 + BitVec.ofNat 16 j = p + BitVec.ofNat 16 (j + 1) := by
    rw [BitVec.ofNat_add, BitVec.add_comm (BitVec.ofNat 16 j), ← BitVec.add_assoc]; rfl
  induction vs generalizing p m i with
  | nil => simp at hi
  | cons v vs ih =>
    cases i with
    | zero =>
      rw [ringStore, read_ringStore_other]
      · simp
      · intro j hj
        rw [step]
        exact h (j + 1) (by simpa using hj) (by omega)
    | succ i =>
      rw [ringStore, ← step]
      simp only [List.getElem_cons_succ]
      refine ih (p + 1) _ i (by simpa using hi) ?_ ?_
      · intro j hj hij
        rw [step, step]
        exact h (j + 1) (by simpa using hj) (by omega)
      · intro j
        rw [BitVec.add_assoc (p + 1), BitVec.ofNat_add, BitVec.add_comm (BitVec.ofNat 16 j)]; rfl

/-- Reset memory lists nothing, so it is canonical. -/
theorem reset_mem_wf : Memory.wf State.reset.mem = true := rfl

theorem mem_insertWord (p x : Word) (l : List Word) : x ∈ insertWord p l ↔ x = p ∨ x ∈ l := by
  induction l with
  | nil => simp [insertWord]
  | cons y l ih =>
    simp only [insertWord]
    split
    · simp
    · split
      · rename_i h; subst h; simp
      · simp [ih]; tauto

end Sys2Proof.Laws
end

