-- ==== Sys2Proof/Laws/Ring.lean ====
section
/-!
SUPPORT. The arithmetic of the rings under a valid binding: the mapper, the positions of a window
byte, and that the wrap at 2^16 and the wrap at SIZE agree (40_mapper.md R110).
-/

namespace Sys2Proof.Laws

open Sys2Proof.Machine

/-- The parts of a valid binding that the ring arithmetic needs (00 R6, R7). -/
structure RingFacts (b : Binding) : Prop where
  logPos : 1 ≤ b.sizeLog
  logLe : b.sizeLog ≤ 15
  fits : ∀ w, (winBase b w).toNat + b.size ≤ 65536
  disjoint : b.txBase.toNat + b.size ≤ b.rxBase.toNat ∨ b.rxBase.toNat + b.size ≤ b.txBase.toNat

theorem allApart_iff (l : List (Nat × Nat)) :
    allApart l = true ↔ l.Pairwise fun x y => apart x y = true := by
  induction l with
  | nil => simp [allApart]
  | cons x xs ih => simp [allApart, ih, List.pairwise_cons]

theorem ringFacts {b : Binding} (h : bindingValid b = true) : RingFacts b := by
  simp only [bindingValid, placesValid, Bool.and_eq_true, decide_eq_true_eq, List.all_eq_true,
    allApart_iff, spans] at h
  obtain ⟨⟨⟨⟨⟨h1, h2⟩, h3⟩, h4⟩, -⟩, -⟩ := h
  refine ⟨h1, h2, ?_, ?_⟩
  · intro w
    cases w
    · exact h3 (b.txBase.toNat, b.size) (by simp)
    · exact h3 (b.rxBase.toNat, b.size) (by simp)
  · have := (List.pairwise_append.1 h4).2.1
    simpa [apart] using this

variable {b : Binding}

theorem size_pos (b : Binding) : 0 < b.size := Nat.pow_pos (by decide)

theorem size_le (h : RingFacts b) : b.size ≤ 32768 := by
  have := Nat.pow_le_pow_right (show 0 < 2 by decide) h.logLe
  simpa [Binding.size] using this

theorem size_dvd (h : RingFacts b) : b.size ∣ 65536 :=
  Nat.pow_dvd_pow 2 (Nat.le_trans h.logLe (show 15 ≤ 16 by decide))

/-- 40 R110: the wrap at 2^16 does not disturb the remainder mod SIZE. -/
theorem mod_wrap (h : RingFacts b) (x : Nat) : x % 65536 % b.size = x % b.size :=
  Nat.mod_mod_of_dvd x (size_dvd h)

theorem add_mod_size (h : RingFacts b) (p : Word) (i : Nat) :
    (p + BitVec.ofNat 16 i).toNat % b.size = (p.toNat + i) % b.size := by
  rw [BitVec.toNat_add, BitVec.toNat_ofNat]
  simp only [Nat.add_mod_mod, Nat.reducePow]
  exact mod_wrap h _

theorem mapAt_toNat (h : RingFacts b) (w : Win) (p : Word) :
    (mapAt b w p).toNat = (winBase b w).toNat + p.toNat % b.size := by
  have h1 := h.fits w
  have h2 := Nat.mod_lt p.toNat (size_pos b)
  have h3 := size_le h
  rw [mapAt, BitVec.toNat_add, BitVec.toNat_ofNat, Nat.mod_eq_of_lt (a := p.toNat % b.size) (by omega)]
  exact Nat.mod_eq_of_lt (by omega)

theorem mapAt_inWindow (h : RingFacts b) (w : Win) (p : Word) : inWindow b w (mapAt b w p) = true := by
  have := Nat.mod_lt p.toNat (size_pos b)
  simp [inWindow, mapAt_toNat h]
  omega

theorem mapAt_add_toNat (h : RingFacts b) (w : Win) (p : Word) (i : Nat) :
    (mapAt b w (p + BitVec.ofNat 16 i)).toNat = (winBase b w).toNat + (p.toNat + i) % b.size := by
  rw [mapAt_toNat h, add_mod_size h]

/-- Positions less than SIZE apart map to different addresses. -/
theorem mapAt_inj (h : RingFacts b) (w : Win) (p : Word) {i j : Nat} (hij : i < j) (hj : j < b.size) :
    (mapAt b w (p + BitVec.ofNat 16 j)).toNat ≠ (mapAt b w (p + BitVec.ofNat 16 i)).toNat := by
  rw [mapAt_add_toNat h, mapAt_add_toNat h]
  intro he
  have h1 : (p.toNat + j) % b.size = (p.toNat + i) % b.size := by omega
  have h2 : b.size ∣ (p.toNat + j) - (p.toNat + i) :=
    (Nat.modEq_iff_dvd' (by omega)).1 (show (p.toNat + i) ≡ (p.toNat + j) [MOD b.size] from h1.symm)
  have h3 : (p.toNat + j) - (p.toNat + i) = j - i := by omega
  rw [h3] at h2
  exact absurd (Nat.le_of_dvd (by omega) h2) (by omega)

theorem ringIndex_lt (b : Binding) (w : Win) (p : Word) (a : Addr) : ringIndex b w p a < b.size :=
  Nat.mod_lt _ (size_pos b)

/-- In a window, `ringIndex` is the distance from `p` of a position that maps to `a`. -/
theorem ringIndex_spec (h : RingFacts b) (w : Win) (p : Word) (a : Addr) (ha : inWindow b w a = true)
    (j : Nat) : mapAt b w (p + BitVec.ofNat 16 j) = a ↔ j % b.size = ringIndex b w p a := by
  simp only [inWindow, Bool.and_eq_true, decide_eq_true_eq] at ha
  have hs := size_pos b
  have hm := Nat.mod_lt p.toNat hs
  rw [← BitVec.toNat_inj, mapAt_add_toNat h, ringIndex,
    BitVec.toNat_sub_of_le (BitVec.le_def.2 ha.1)]
  have key : (p.toNat + j) % b.size = (p.toNat % b.size + j % b.size) % b.size := Nat.add_mod ..
  have hj := Nat.mod_lt j hs
  rw [key]
  generalize p.toNat % b.size = x at *
  generalize j % b.size = y at *
  generalize b.size = n at *
  obtain ⟨k, hk⟩ : ∃ k, k = a.toNat - (winBase b w).toNat := ⟨_, rfl⟩
  rw [← hk]
  have hk' : a.toNat = (winBase b w).toNat + k := by omega
  have hkn : k < n := by omega
  rw [hk']
  have e1 : (x + y) % n = if x + y < n then x + y else x + y - n := by
    split
    · exact Nat.mod_eq_of_lt ‹_›
    · rw [Nat.mod_eq_sub_mod (by omega)]; exact Nat.mod_eq_of_lt (by omega)
  have e2 : (k + n - x) % n = if k < x then k + n - x else k - x := by
    split
    · exact Nat.mod_eq_of_lt (by omega)
    · rw [Nat.mod_eq_sub_mod (by omega), show k + n - x - n = k - x by omega]
      exact Nat.mod_eq_of_lt (by omega)
  rw [e1, e2]
  split <;> split <;> omega

theorem occ_lt (x y : Word) : occ x y < 65536 := (x - y).isLt

@[simp] theorem occ_self (x : Word) : occ x x = 0 := by simp [occ]

/-- Advancing the write pointer by what still fits below 2^16 adds to the occupancy. -/
theorem occ_advance (w r : Word) (n : Nat) (h : occ w r + n < 65536) :
    occ (advance w n) r = occ w r + n := by
  simp only [occ, advance] at *
  have : w + BitVec.ofNat 16 n - r = (w - r) + BitVec.ofNat 16 n := by ring
  rw [this, BitVec.toNat_add, BitVec.toNat_ofNat]
  simp only [Nat.add_mod_mod, Nat.reducePow]
  exact Nat.mod_eq_of_lt h

/-- Moving the read pointer forward by no more than the occupancy takes that much off it. -/
theorem occ_consume (w r r' : Word) (h : occ r' r ≤ occ w r) : occ w r' = occ w r - occ r' r := by
  simp only [occ] at *
  have : w - r' = (w - r) - (r' - r) := by ring
  rw [this]
  exact BitVec.toNat_sub_of_le (BitVec.le_def.2 h)

/-- The position `i` after `a` is `i` away from it (40 R105, R106). -/
theorem occ_ofNat (a : Word) (i : Nat) (h : i < 65536) : occ (a + BitVec.ofNat 16 i) a = i := by
  have := occ_advance a a i (by simpa using h)
  simpa [advance] using this

/-- A position is its distance away from any other. -/
theorem eq_add_occ (p q : Word) : p = q + BitVec.ofNat 16 (occ p q) := by
  simp only [occ, BitVec.ofNat_toNat, BitVec.setWidth_eq]
  bv_omega

/-- The position `i` after `w`, counted from `r`. -/
theorem add_eq_add_occ (w r : Word) (i : Nat) :
    w + BitVec.ofNat 16 i = r + BitVec.ofNat 16 (occ w r + i) := by
  have : BitVec.ofNat 16 (occ w r) = w - r := by
    simp only [occ, BitVec.ofNat_toNat, BitVec.setWidth_eq]
  rw [BitVec.ofNat_add, this]
  ring

/-- A window byte is one of the `n` positions from `st` on exactly when `ringIndex` says so
(20 R80, R81). -/
theorem exists_position_iff (h : RingFacts b) (w : Win) (st : Word) {n : Nat} (hn : n < 65536)
    {a : Addr} (ha : inWindow b w a = true) :
    (∃ p : Word, occ p st < n ∧ mapAt b w p = a) ↔ ringIndex b w st a < n := by
  constructor
  · rintro ⟨p, hp, hm⟩
    rw [eq_add_occ p st] at hm
    rw [← (ringIndex_spec h w st a ha (occ p st)).1 hm]
    exact Nat.lt_of_le_of_lt (Nat.mod_le _ _) hp
  · intro hi
    refine ⟨st + BitVec.ofNat 16 (ringIndex b w st a), ?_, ?_⟩
    · rw [occ_ofNat _ _ (by omega)]; exact hi
    · exact (ringIndex_spec h w st a ha _).2 (Nat.mod_eq_of_lt (ringIndex_lt _ _ _ _))

/-- The two bytes of a word make the word (30 R98). -/
theorem be16_parts (h : Word) : be16 (hi8 h) (lo8 h) = h := by
  apply BitVec.eq_of_getLsbD_eq
  intro i hi
  simp only [be16, hi8, lo8, BitVec.getLsbD_append, BitVec.getLsbD_extractLsb']
  split
  · simp [*]
  · rw [show 8 + (i - 8) = i by omega]; simp; omega

end Sys2Proof.Laws
end

