-- ==== Sys2Proof/Laws/RegMap.lean ====
section
/-!
SUPPORT. The address map of a valid binding: each register byte and each window byte is located
where the binding puts it (20_memory.md R62).
-/

namespace Sys2Proof.Laws

open Sys2Proof.Machine

variable {b : Binding}

theorem mem_all (r : Reg) : r ∈ Reg.all := by cases r <;> decide

theorem spans_pairwise (h : bindingValid b = true) :
    (spans b).Pairwise (fun x y => apart x y = true) ∧ ∀ x ∈ spans b, x.1 + x.2 ≤ 65536 := by
  simp only [bindingValid, placesValid, Bool.and_eq_true, decide_eq_true_eq, List.all_eq_true,
    allApart_iff] at h
  exact ⟨h.1.1.2, h.1.1.1.2⟩

theorem apart_symm {x y : Nat × Nat} (h : apart x y = true) : apart y x = true := by
  simp [apart] at *; omega

/-- Two registers, where both are bound, share no address. -/
def RegsApart (b : Binding) (r r' : Reg) : Prop :=
  ∀ x, r.base b = some x → ∀ x', r'.base b = some x' →
    apart (x.toNat, r.len) (x'.toNat, r'.len) = true

theorem regs_apart (h : bindingValid b = true) {r r' : Reg} (hr : r ≠ r') : RegsApart b r r' := by
  have : Std.Symm (RegsApart b) := ⟨fun _ _ hs x hx x' hx' => apart_symm (hs x' hx' x hx)⟩
  have hp := (List.pairwise_append.1 (spans_pairwise h).1).1
  rw [List.pairwise_filterMap] at hp
  have hp' : Reg.all.Pairwise (RegsApart b) :=
    hp.imp fun {r r'} hs x hx x' hx' => hs _ (by simp [hx]) _ (by simp [hx'])
  exact hp'.forall (mem_all r) (mem_all r') hr

/-- A bound register shares no address with a window. -/
theorem reg_win_apart (h : bindingValid b = true) {r : Reg} {x : Addr} (hx : r.base b = some x)
    (w : Win) : apart (x.toNat, r.len) ((winBase b w).toNat, b.size) = true := by
  have hp := (List.pairwise_append.1 (spans_pairwise h).1).2.2 (x.toNat, r.len)
    (List.mem_filterMap.2 ⟨r, mem_all r, by simp [hx]⟩)
  cases w
  · exact hp (b.txBase.toNat, b.size) (by simp)
  · exact hp (b.rxBase.toNat, b.size) (by simp)

/-- A bound register ends inside the address space. -/
theorem reg_fits (h : bindingValid b = true) {r : Reg} {x : Addr} (hx : r.base b = some x) :
    x.toNat + r.len ≤ 65536 :=
  (spans_pairwise h).2 (x.toNat, r.len)
    (List.mem_append_left _ (List.mem_filterMap.2 ⟨r, mem_all r, by simp [hx]⟩))

theorem offset_eq_some {r : Reg} {a : Addr} {i : Nat} :
    r.offset b a = some i ↔ ∃ x, r.base b = some x ∧ a.toNat = x.toNat + i ∧ i < r.len := by
  unfold Reg.offset
  split
  · rename_i h; simp [h]
  · rename_i x h
    simp only [h, Option.some.injEq, exists_eq_left']
    split
    · simp; omega
    · simp; omega

theorem locateReg_some {a : Addr} {l : List Reg} {loc : Loc} (h : locateReg b a l = some loc) :
    ∃ r i, loc = .reg r i ∧ r.offset b a = some i := by
  induction l with
  | nil => simp [locateReg] at h
  | cons r rs ih =>
    simp only [locateReg] at h
    split at h
    · rename_i i hi
      exact ⟨r, i, by simpa using h.symm, hi⟩
    · exact ih h

theorem locateReg_eq {a : Addr} {l : List Reg} {r : Reg} {i : Nat} (hr : r ∈ l)
    (hi : r.offset b a = some i) (ho : ∀ r', r' ≠ r → r'.offset b a = none) :
    locateReg b a l = some (.reg r i) := by
  induction l with
  | nil => simp at hr
  | cons x xs ih =>
    by_cases hx : x = r
    · subst hx; simp [locateReg, hi]
    · simp only [locateReg, ho x hx]
      exact ih ((List.mem_cons.1 hr).resolve_left (Ne.symm hx))

theorem locateReg_none {a : Addr} {l : List Reg} (ho : ∀ r : Reg, r.offset b a = none) :
    locateReg b a l = none := by
  induction l with
  | nil => rfl
  | cons x xs ih => simp [locateReg, ho x, ih]

/-- The address of byte `i` of a bound register is located as that byte. -/
theorem locate_reg (h : bindingValid b = true) {r : Reg} {a x : Addr} {i : Nat}
    (hx : r.base b = some x) (ha : a.toNat = x.toNat + i) (hi : i < r.len) :
    locate b a = some (.reg r i) := by
  have hoff : r.offset b a = some i := offset_eq_some.2 ⟨x, hx, ha, hi⟩
  have ho : ∀ r', r' ≠ r → r'.offset b a = none := by
    intro r' hr'
    cases hc : r'.offset b a with
    | none => rfl
    | some j =>
      obtain ⟨x', hx', ha', hj⟩ := offset_eq_some.1 hc
      have := regs_apart h hr' x' hx' x hx
      simp [apart] at this
      omega
  simp [locate, locateReg_eq (mem_all r) hoff ho]

/-- The first address of a bound register. -/
theorem locate_base (h : bindingValid b = true) {r : Reg} {x : Addr} (hx : r.base b = some x) :
    locate b x = some (.reg r 0) :=
  locate_reg h hx (by simp) (by cases r <;> decide)

/-- A window byte is located as one of its window. -/
theorem locate_win (h : bindingValid b = true) {w : Win} {a : Addr} (ha : inWindow b w a = true) :
    locate b a = some (.win w) := by
  have ho : ∀ r : Reg, r.offset b a = none := by
    intro r
    cases hc : r.offset b a with
    | none => rfl
    | some j =>
      obtain ⟨x, hx, hax, hj⟩ := offset_eq_some.1 hc
      have := reg_win_apart h hx w
      simp [apart, inWindow] at this ha
      omega
  have hd := (ringFacts h).disjoint
  cases w with
  | tx => simp [locate, locateReg_none ho, ha]
  | rx =>
    have : inWindow b .tx a = false := by
      refine Bool.eq_false_iff.2 fun hc => ?_
      simp only [inWindow, Bool.and_eq_true, decide_eq_true_eq] at ha hc
      simp only [winBase] at ha hc
      omega
    simp [locate, locateReg_none ho, ha, this]

/-- What is located at an address lies there. -/
theorem locate_some {a : Addr} {l : Loc} (h : locate b a = some l) :
    (∃ r i, l = .reg r i ∧ r.offset b a = some i) ∨ ∃ w, l = .win w ∧ inWindow b w a = true := by
  unfold locate at h
  split at h
  · rename_i l' hl
    rw [Option.some.injEq] at h
    subst h
    exact .inl (locateReg_some hl)
  · split at h
    · exact .inr ⟨.tx, by simpa using h.symm, ‹_›⟩
    · split at h
      · exact .inr ⟨.rx, by simpa using h.symm, ‹_›⟩
      · simp at h

theorem locate_win_iff (h : bindingValid b = true) {w : Win} {a : Addr} :
    locate b a = some (.win w) ↔ inWindow b w a = true := by
  refine ⟨fun hl => ?_, locate_win h⟩
  rcases locate_some hl with ⟨r, i, hr, -⟩ | ⟨w', hw, hi⟩
  · simp at hr
  · simp only [Loc.win.injEq] at hw
    exact hw ▸ hi

/-- The status codes differ (00 R14). -/
theorem status_distinct (h : bindingValid b = true) :
    b.srClosed ≠ b.srInit ∧ b.srClosed ≠ b.srMacraw ∧ b.srInit ≠ b.srMacraw := by
  simp only [bindingValid, codesValid, Bool.and_eq_true, bne_iff_ne] at h
  have := h.1.2
  tauto

end Sys2Proof.Laws
end

