-- ==== Sys2Proof/Laws/Exec.lean ====
section
/-!
SUPPORT. What an admitted bus access answers, and what the interrupt line does: the lemmas that
statements about single operations rest on.
-/

namespace Sys2Proof.Laws

open Sys2Proof.Machine

variable {s t : State} {a : Addr} {l : Loc}

/-! ### The line -/

/-- The line depends on these fields alone (60 R174 to R176). -/
theorem intAsserted_congr (h1 : t.cfg = s.cfg) (h2 : t.phase = s.phase) (h3 : t.s0ir = s.s0ir)
    (h4 : t.s0imr = s.s0imr) (h5 : t.imr = s.imr) : t.intAsserted = s.intAsserted := by
  simp only [State.intAsserted, State.s0Int, State.unmasked, h1, h2, h3, h4, h5]

/-- A step that leaves the line as it was makes no edge (60 R177). -/
theorem noteEdge_same (h : t.intAsserted = s.intAsserted) : noteEdge s t = t := by
  simp only [noteEdge, h, Bool.not_and_self]
  rfl

/-- A step that leaves the line deasserted makes no edge (60 R177). -/
theorem noteEdge_low (h : t.intAsserted = false) : noteEdge s t = t := by
  simp only [noteEdge, h, Bool.and_false]
  rfl

/-- A step that leaves what the line depends on makes no edge (60 R177). -/
theorem noteEdge_frame (h1 : t.cfg = s.cfg) (h2 : t.phase = s.phase) (h3 : t.s0ir = s.s0ir)
    (h4 : t.s0imr = s.s0imr) (h5 : t.imr = s.imr) : noteEdge s t = t :=
  noteEdge_same (intAsserted_congr h1 h2 h3 h4 h5)

@[simp] theorem intAsserted_noteEdge : (noteEdge s t).intAsserted = t.intAsserted := rfl

/-- Outside READY the line is deasserted (60 R176). -/
theorem intAsserted_reset (h : s.phase ≠ .ready) : s.intAsserted = false := by
  simp [State.intAsserted, h]

/-! ### Reads -/

/-- An admitted read of a mapped byte answers it and changes nothing else (41 R116, 20 R69). -/
theorem exec_rd8 (hl : s.live) (ha : s.admitsRead a) (hm : locate s.cfg a = some l) :
    exec (.rd8 a) s = .next (answer s (.byte (readLoc s a l).1) (readLoc s a l).2) := by
  have he : readEffect a s = answer s (.byte (readLoc s a l).1) (readLoc s a l).2 := by
    obtain ⟨hb, hp⟩ := ha
    unfold readEffect
    rw [if_neg (by simp [hb]), if_neg (by rcases hp with h | h <;> simp_all),
      if_neg (by rcases hp with h | h <;> simp_all), hm]
  rw [exec_live _ hl]
  simp only [effect]
  rw [he, noteEdge_same]
  exact intAsserted_congr rfl rfl rfl rfl rfl

/-- An answer that took no draw changes nothing a later read sees (20 R69). -/
@[simp] theorem readLoc_answer (s : State) (r : Response) (a : Addr) (l : Loc) :
    readLoc (answer s r 0) a l = readLoc s a l := by
  cases l with
  | reg r i => cases r <;> rfl
  | win w => cases w <;> rfl

/-- In READY every read passes the phase check. -/
theorem admitsRead_of (h : s.admitsWrite) : s.admitsRead a := ⟨h.1, .inl h.2⟩

/-! ### Writes -/

/-- An admitted write to a mapped byte does what its class says (41 R117). -/
theorem writeEffect_ok (ha : s.admitsWrite) (hm : locate s.cfg a = some l) (v : Byte) :
    writeEffect a v s = writeLoc s a v l := by
  unfold writeEffect
  rw [if_neg (by simp [ha.1]), if_neg (by simp [ha.2]), hm]

theorem exec_wr8 (hl : s.live) (ha : s.admitsWrite) (hm : locate s.cfg a = some l) (v : Byte) :
    exec (.wr8 a v) s = .next (noteEdge s (writeLoc s a v l)) := by
  rw [exec_live _ hl]; simp only [effect]; rw [writeEffect_ok ha hm]

/-- An operation that records a fault changes nothing else (60 R185). -/
theorem noteEdge_raise (f : FaultRecord) (h : s.faults = []) :
    noteEdge s (raise s f) = { s with faults := [f] } := by
  rw [noteEdge_same (s := s) (t := raise s f) (intAsserted_congr rfl rfl rfl rfl rfl)]
  simp [raise, h]

/-- The value a bus write carries. -/
def writeValue (b : Binding) : Instr → Byte
  | .openSock => b.cmdOpen
  | .closeSock => b.cmdClose
  | .send => b.cmdSend
  | .recv => b.cmdRecv
  | .cmdIllegal v => v
  | .swReset v => v
  | .w1c v => v
  | .wr8 _ v => v
  | .rd8 _ => 0
  | .mapTx _ => 0
  | .mapRx _ => 0
  | .splitTx _ _ => 0
  | .splitRx _ _ => 0
  | .rstAssert => 0
  | .rstRelease => 0

/-- Every bus write is the write of its value at its address. -/
theorem effect_write {i : Instr} (h : writeTarget s.cfg i = some a) :
    effect i s = writeEffect a (writeValue s.cfg i) s := by
  cases i <;> simp only [writeTarget, reduceCtorEq, Option.some.injEq] at h <;> subst h <;> rfl

/-! ### Addresses of registers -/

variable {b : Binding} {x : Addr} {r : Reg}

/-- The byte at offset `i` of a register of a valid binding. -/
theorem locate_offset (h : bindingValid b = true) (hx : r.base b = some x) {i : Nat} (hi : i < r.len) :
    locate b (x + BitVec.ofNat 16 i) = some (.reg r i) := by
  refine locate_reg h hx ?_ hi
  have := reg_fits h hx
  rw [BitVec.toNat_add, BitVec.toNat_ofNat]
  omega

/-! ### Ring bytes -/

/-- What a ring store leaves: the bytes at their positions, every other byte as it was (40 R112). -/
theorem ringByte_store (s : State) (hr : RingFacts s.cfg) (w : Win) (p : Word) (bytes : List Byte)
    (hn : bytes.length ≤ s.cfg.size) :
    (∀ (i : Nat) (h : i < bytes.length),
      ({ s with mem := ringStore s.cfg w p bytes s.mem } : State).ringByte
        (mapAt s.cfg w (p + BitVec.ofNat 16 i)) = bytes[i]) ∧
    (∀ a : Addr, (∀ i < bytes.length, mapAt s.cfg w (p + BitVec.ofNat 16 i) ≠ a) →
      ({ s with mem := ringStore s.cfg w p bytes s.mem } : State).ringByte a = s.ringByte a) := by
  constructor
  · intro i h
    simp only [State.ringByte]
    rw [read_ringStore_at _ _ _ _ _ i h fun j hj hij => mapAt_inj hr w p hij (by omega)]
  · intro a h
    simp only [State.ringByte]
    rw [read_ringStore_other]
    intro i hi he
    exact h i hi (BitVec.eq_of_toNat_eq he)

theorem rising_cons (x : Word) (l : List Word) :
    rising (x :: l) = true ↔ (∀ y ∈ l, x < y) ∧ rising l = true := by
  induction l generalizing x with
  | nil => simp [rising]
  | cons y l ih =>
    simp only [rising, Bool.and_eq_true, decide_eq_true_eq, List.mem_cons, forall_eq_or_imp]
    rw [ih y]
    constructor
    · rintro ⟨a, b, c⟩
      exact ⟨⟨a, fun z hz => BitVec.lt_trans a (b z hz)⟩, b, c⟩
    · rintro ⟨⟨a, -⟩, b, c⟩
      exact ⟨a, b, c⟩

theorem rising_insertWord (p : Word) {l : List Word} (h : rising l = true) :
    rising (insertWord p l) = true := by
  induction l with
  | nil => simp [insertWord, rising]
  | cons y l ih =>
    have h' := (rising_cons y l).1 h
    simp only [insertWord]
    split
    · rename_i hlt
      refine (rising_cons _ _).2 ⟨fun z hz => ?_, h⟩
      rcases List.mem_cons.1 hz with rfl | hz
      · exact hlt
      · exact BitVec.lt_trans hlt (h'.1 z hz)
    · split
      · exact h
      · rename_i h1 h2
        refine (rising_cons _ _).2 ⟨fun z hz => ?_, ih h'.2⟩
        rcases (mem_insertWord p z l).1 hz with rfl | hz
        · have := BitVec.not_lt.1 h1
          bv_omega
        · exact h'.1 z hz

end Sys2Proof.Laws
end

