-- ==== Sys2Proof/Laws/PerInstr.lean ====
section
/-!
SUPPORT. Statements made per operation. `TableRow`: the word the encoder gives a well-formed
operation under the reference binding is one that the row of spec/opcode_table.json for its mnemonic
matches (30_encoding.md R95).
-/

namespace Sys2Proof.Laws.TableRow

/-- The word has the row's width, and its bits under the row's mask are the row's match. -/
def Fits (w : RawWord) (width mask pattern : Nat) : Prop :=
  match w with
  | .tw w => width = 25 ∧ w &&& BitVec.ofNat 25 mask = BitVec.ofNat 25 pattern
  | .mw w => width = 17 ∧ w &&& BitVec.ofNat 17 mask = BitVec.ofNat 17 pattern
  | .ms w => width = 33 ∧ w &&& BitVec.ofNat 33 mask = BitVec.ofNat 33 pattern
  | .pin w => width = 1 ∧ w &&& BitVec.ofNat 1 mask = BitVec.ofNat 1 pattern

/-- The row of spec/opcode_table.json of an operation's mnemonic: width, mask, match. -/
def row : Instr → Nat × Nat × Nat
  | .rd8 _ => (25, 0x1000000, 0x0000000)
  | .openSock => (25, 0x1FFFFFF, 0x1040101)
  | .closeSock => (25, 0x1FFFFFF, 0x1040110)
  | .send => (25, 0x1FFFFFF, 0x1040120)
  | .recv => (25, 0x1FFFFFF, 0x1040140)
  | .cmdIllegal _ => (25, 0x1FFFF00, 0x1040100)
  | .swReset _ => (25, 0x1FFFF80, 0x1000080)
  | .w1c _ => (25, 0x1FFFF00, 0x1040200)
  | .wr8 _ _ => (25, 0x1000000, 0x1000000)
  | .mapTx _ => (17, 0x10000, 0x00000)
  | .mapRx _ => (17, 0x10000, 0x10000)
  | .splitTx _ _ => (33, 0x100000000, 0x000000000)
  | .splitRx _ _ => (33, 0x100000000, 0x100000000)
  | .rstAssert => (1, 0x1, 0x0)
  | .rstRelease => (1, 0x1, 0x1)

/-- What is said of each operation. -/
def Statement (i : Instr) : Prop :=
  i.wf Binding.ref = true → Fits (encode Binding.ref i) (row i).1 (row i).2.1 (row i).2.2

/-- Bit 24 of a bus word is its direction. -/
theorem direction (d : Bool) (a : Addr) (v : Byte) :
    twWord d a v &&& BitVec.ofNat 25 0x1000000 = BitVec.ofNat 25 (if d then 0x1000000 else 0) := by
  apply BitVec.eq_of_getLsbD_eq
  intro i hi
  rw [BitVec.getLsbD_and, getLsbD_twWord]
  interval_cases i <;> cases d <;> simp

/-- Bits 24:8 of a write word are 1 and its address. -/
theorem address (a : Addr) (v : Byte) :
    twWord true a v &&& BitVec.ofNat 25 0x1FFFF00 = twWord true a 0 := by
  apply BitVec.eq_of_getLsbD_eq
  intro i hi
  rw [BitVec.getLsbD_and, getLsbD_twWord, getLsbD_twWord]
  interval_cases i <;> simp

theorem rd8 (a : Addr) : Statement (.rd8 a) := fun _ => ⟨rfl, direction false a 0⟩
theorem openSock : Statement .openSock := fun _ => ⟨rfl, by decide⟩
theorem closeSock : Statement .closeSock := fun _ => ⟨rfl, by decide⟩
theorem send : Statement .send := fun _ => ⟨rfl, by decide⟩
theorem recv : Statement .recv := fun _ => ⟨rfl, by decide⟩

theorem cmdIllegal (v : Byte) : Statement (.cmdIllegal v) :=
  fun _ => ⟨rfl, (address _ v).trans (show _ = BitVec.ofNat 25 0x1040100 by decide)⟩

theorem swReset (v : Byte) : Statement (.swReset v) := by
  intro h
  refine ⟨rfl, ?_⟩
  have h7 : v.getLsbD 7 = true := h
  apply BitVec.eq_of_getLsbD_eq
  intro i hi
  simp only [row]
  rw [BitVec.getLsbD_and, getLsbD_twWord]
  interval_cases i <;> simp [h7, Binding.ref]

theorem w1c (v : Byte) : Statement (.w1c v) :=
  fun _ => ⟨rfl, (address _ v).trans (show _ = BitVec.ofNat 25 0x1040200 by decide)⟩

theorem wr8 (a : Addr) (v : Byte) : Statement (.wr8 a v) := fun _ => ⟨rfl, direction true a v⟩

/-- The top bit of a mapper word selects the window. -/
theorem window {n : Nat} (s : BitVec 1) (x : BitVec n) :
    (s ++ x) &&& (1#1 ++ 0#n) = s ++ 0#n := by
  apply BitVec.eq_of_getLsbD_eq
  intro i hi
  simp only [BitVec.getLsbD_and, BitVec.getLsbD_append]
  split
  · simp
  · rw [show i - n = 0 by omega]; simp

theorem window17 (s : BitVec 1) (p : Word) :
    (s ++ p : BitVec 17) &&& BitVec.ofNat 17 0x10000 = s ++ 0#16 := by
  rw [show BitVec.ofNat 17 0x10000 = 1#1 ++ 0#16 by decide]; exact window s p

theorem window33 (s : BitVec 1) (p : Word) (n : BitVec 16) :
    (s ++ p ++ n : BitVec 33) &&& BitVec.ofNat 33 0x100000000 = s ++ 0#32 := by
  have h : (s ++ p ++ n : BitVec 33) = s ++ (p ++ n : BitVec 32) := by
    apply BitVec.eq_of_getLsbD_eq
    intro i hi
    simp only [BitVec.getLsbD_append]
    split <;> split <;> try split
    all_goals first | rfl | omega
  rw [h, show BitVec.ofNat 33 0x100000000 = 1#1 ++ 0#32 by decide]; exact window s (p ++ n)

theorem mapTx (p : Word) : Statement (.mapTx p) :=
  fun _ => ⟨rfl, (window17 0#1 p).trans (show _ = BitVec.ofNat 17 0x00000 by decide)⟩

theorem mapRx (p : Word) : Statement (.mapRx p) :=
  fun _ => ⟨rfl, (window17 1#1 p).trans (show _ = BitVec.ofNat 17 0x10000 by decide)⟩

theorem splitTx (p : Word) (n : BitVec 16) : Statement (.splitTx p n) :=
  fun _ => ⟨rfl, (window33 0#1 p n).trans (show _ = BitVec.ofNat 33 0x000000000 by decide)⟩

theorem splitRx (p : Word) (n : BitVec 16) : Statement (.splitRx p n) :=
  fun _ => ⟨rfl, (window33 1#1 p n).trans (show _ = BitVec.ofNat 33 0x100000000 by decide)⟩

theorem rstAssert : Statement .rstAssert := fun _ => ⟨rfl, by decide⟩
theorem rstRelease : Statement .rstRelease := fun _ => ⟨rfl, by decide⟩

end Sys2Proof.Laws.TableRow
end

