-- ==== Sys2Proof/Laws/Step.lean ====
section
/-!
SUPPORT. What one step of the machine can do: the induction over the moves of all agents, packaged
once, and the step that takes a word from a port.
-/

namespace Sys2Proof.Laws

open Sys2Proof.Machine

/-- A predicate of states that every move of every agent keeps. -/
structure Kept (P : State → Prop) : Prop where
  host : ∀ i s t, P s → exec i s = .next t → P t
  engine : ∀ e s t, P s → engineStep e s = .next t → P t
  network : ∀ f s t, P s → networkStep f s = .next t → P t
  world : ∀ s e, P s → P (s.withEnv e)
  bus : ∀ s b, P s → P { s with busFails := b }
  wrap : ∀ s a n, s.faults = [] → P s → P (raise s (.addrWrap a n))
  refuse : ∀ s, P s → P (refuse s)
  edges : ∀ s n, P s → P { s with intEdges := n }

variable {P : State → Prop} {s t : State}

theorem withThread_world (s : State) (c : Ctx) (x : Thread) :
    ∃ e, s.withThread c x = s.withEnv e := by
  cases c <;> exact ⟨_, rfl⟩

/-- A host-only line changes nothing of the block (43 R163 to R172 are the host's own). -/
theorem hostLine_world (c : Ctx) (op : HostOp) (s : State) : ∃ e, hostLine c op s = s.withEnv e := by
  refine ⟨(hostLine c op s).env, ?_⟩
  cases op
  case poll a m x bound => rcases bound with _ | ⟨_ | k, r⟩ <;> cases c <;> rfl
  all_goals
    simp only [hostLine]
    repeat' split
    all_goals cases c <;> rfl

theorem busStep_world (write : Bool) (a : Addr) (n : Nat) (s : State) :
    ∃ e, busStep write a n s = s.withEnv e := ⟨_, rfl⟩

/-- Numbering a word's step changes nothing of the block. -/
theorem wordStep_world (w : RawWord) (s : State) : ∃ e, wordStep w s = s.withEnv e := by
  cases w <;> exact ⟨_, rfl⟩

theorem agentStep_next {b : Bool} {r : Result} (h : agentStep b r = .next t) :
    ∃ u e, r = .next u ∧ t = u.withEnv e := by
  cases r
  case next u => exact ⟨u, _, rfl, by simpa [agentStep] using h.symm⟩
  all_goals simp [agentStep] at h

theorem presented_kept (h : Kept P) (w : RawWord) (hs : P s) : P (presented w s) := by
  cases w
  case tw w =>
    exact h.world _ { s.env with busFaults := s.env.busFaults.tail }
      (h.bus s (s.env.busFaults.headD false) hs)
  all_goals exact hs

theorem runWord_kept (h : Kept P) (w : RawWord) (hs : P s) (ht : runWord w s = .next t) : P t := by
  unfold runWord at ht
  split at ht
  · exact h.host _ _ _ (presented_kept h w hs) ht
  · simp only [Host.Outcome.next.injEq] at ht
    exact ht ▸ h.refuse s hs

theorem keepRead_kept (h : Kept P) (c : Ctx) (w : BitVec 25) (hs : P s) : P (keepRead c w s) := by
  unfold keepRead
  split
  · obtain ⟨e, he⟩ := withThread_world s c
      { s.thread c with rdata := (s.thread c).rdata ++ [respByte s.resp] }
    rw [he]; exact h.world _ _ hs
  · exact hs

theorem blockByte_kept (h : Kept P) (c : Ctx) (w : BitVec 25) (hs : P s)
    (ht : blockByte c w s = .next t) : P t := by
  unfold blockByte at ht
  split at ht
  · rename_i u hu
    simp only [Host.Outcome.next.injEq] at ht
    exact ht ▸ keepRead_kept h c w (runWord_kept h _ hs hu)
  · simp at ht
  · simp at ht

theorem blockBytes_kept (h : Kept P) (c : Ctx) (ws : List (BitVec 25)) (hs : P s)
    (ht : blockBytes c ws s = .next t) : P t := by
  induction ws generalizing s with
  | nil => simp only [blockBytes, Host.Outcome.next.injEq] at ht; exact ht ▸ hs
  | cons w ws ih =>
    unfold blockBytes at ht
    split at ht
    · rename_i u hu
      have hp := blockByte_kept h c w hs hu
      split at ht
      · exact ih hp ht
      · simp only [Host.Outcome.next.injEq] at ht; exact ht ▸ hp
    · simp at ht
    · simp at ht

theorem withThread_kept (h : Kept P) (c : Ctx) (x : Thread) (hs : P s) : P (s.withThread c x) := by
  obtain ⟨e, he⟩ := withThread_world s c x
  rw [he]; exact h.world _ _ hs

theorem beginBlock_kept (h : Kept P) (c : Ctx) (write : Bool) (a : Addr) (data : List Byte)
    (hf : s.faults = []) (hs : P s) (ht : beginBlock c write a data s = .next t) : P t := by
  unfold beginBlock at ht
  split at ht
  · simp only [Host.Outcome.next.injEq] at ht
    exact ht ▸ h.wrap s _ _ hf hs
  · split at ht
    · cases hu : blockBytes c (blockWords write a data) (busStep write a data.length s) with
      | next u =>
        rw [hu] at ht
        simp only [atomically, Host.Outcome.next.injEq] at ht
        exact ht ▸ h.edges _ _ (h.edges u s.intEdges (blockBytes_kept h c _ (h.world _ _ hs) hu))
      | fault f => rw [hu] at ht; simp [atomically] at ht
      | refused r => rw [hu] at ht; simp [atomically] at ht
    · split at ht
      · simp only [Host.Outcome.next.injEq] at ht; exact ht ▸ hs
      · exact blockByte_kept h c _ (h.world _ _ (withThread_kept h c _ hs)) ht

theorem hostTurn_kept (h : Kept P) (c : Ctx) (hf : s.faults = []) (hs : P s)
    (ht : hostTurn c s = .next t) : P t := by
  have faults (x : Thread) : (s.withThread c x).faults = [] := by cases c <;> exact hf
  unfold hostTurn at ht
  split at ht
  · simp only [Host.Outcome.next.injEq] at ht; exact ht ▸ hs
  · split at ht
    · exact blockByte_kept h c _ (h.world _ _ (withThread_kept h c _ hs)) ht
    · rename_i op rest _ _
      have hp := withThread_kept h c { s.thread c with prog := rest } hs
      cases op
      case word w _ =>
        obtain ⟨e, he⟩ := wordStep_world w (s.withThread c { s.thread c with prog := rest })
        exact runWord_kept h _ (he ▸ h.world _ _ hp) ht
      case block => exact beginBlock_kept h c _ _ _ (faults _) hp ht
      all_goals
        simp only [runOp, Host.Outcome.next.injEq] at ht
        obtain ⟨e, he⟩ := hostLine_world c _ (s.withThread c { s.thread c with prog := rest })
        exact ht ▸ he ▸ h.world _ _ hp
    · simp only [Host.Outcome.next.injEq] at ht; exact ht ▸ hs

theorem nextMove_kept (h : Kept P) (hf : s.faults = []) (hs : P s) (ht : nextMove s = .next t) :
    P t := by
  unfold nextMove at ht
  split at ht
  · rename_i u us _
    have hw := h.world s { s.env with turns := us } hs
    cases u
    case host => exact hostTurn_kept h _ (by exact hf) hw ht
    case engine =>
      obtain ⟨u, e, hu, rfl⟩ := agentStep_next ht
      exact h.world _ _ (h.engine _ _ _ hw hu)
    case network =>
      obtain ⟨u, e, hu, rfl⟩ := agentStep_next ht
      exact h.world _ _ (h.network _ _ _ hw hu)
  · split at ht
    · obtain ⟨u, e, hu, rfl⟩ := agentStep_next ht
      exact h.world _ _ (h.engine _ _ _ hs hu)
    · split at ht <;> exact hostTurn_kept h _ hf hs ht

/-- A predicate that every move keeps is kept by every step (10 R59, 20 R72). -/
theorem step_kept (h : Kept P) (hs : P s) (ht : step s = .next t) : P t := by
  rcases gate_next ht with ⟨hl, hk⟩ | ⟨-, -, hr⟩
  · cases hm : nextMove s with
    | next u =>
      have hp := nextMove_kept h hl.1 hs hm
      rw [hm] at hk
      simp only [signal, Host.Outcome.next.injEq] at hk
      rw [← hk, onEdge]
      split
      · exact h.world _ _ hp
      · exact hp
    | fault f => rw [hm] at hk; simp [signal] at hk
    | refused r => rw [hm] at hk; simp [signal] at hk
  · exact hr ▸ h.refuse s hs

end Sys2Proof.Laws
end

