-- ==== Sys2Proof/Laws/Transaction.lean ====
section
/-!
SUPPORT. The bytes of an n-byte transaction (20_memory.md R67, R68): a thread read back after it is
replaced, and what one read byte does.
-/

namespace Sys2Proof.Laws

open Sys2Proof.Machine

variable {s : State} {a : Addr} {l : Loc}

@[simp] theorem thread_withThread (s : State) (c : Ctx) (x : Thread) :
    (s.withThread c x).thread c = x := by
  cases c <;> rfl

@[simp] theorem thread_other_withThread (s : State) (c : Ctx) (x : Thread) :
    (s.withThread c x).thread c.other = s.thread c.other := by
  cases c <;> rfl

theorem env_tail (e : Env) (h : e.busFaults = []) :
    { e with busFaults := e.busFaults.tail } = e := by
  cases e
  simp only at h
  subst h
  rfl

/-- With no transport failure listed, the byte going on the bus does not fail (20 R85). -/
theorem drawBus_none (h : s.env.busFaults = []) : drawBus s = { s with busFails := false } := by
  have he := env_tail s.env h
  simp only [drawBus, he]
  simp [h]

/-- A read word with no data decodes to RD8 (30 R95 case 1). -/
theorem decode_read (b : Binding) (a : Addr) : decode b (.tw (twWord false a 0)) = .ok (.rd8 a) := by
  simp [decode, decodeTw]

/-- One read byte of a transaction returns the byte to the context that asked for it and changes
nothing else but the answer, the draw counter and the transport's report. -/
theorem blockByte_read (c : Ctx) (hl : s.live) (hp : s.phase = .ready) (hb : s.env.busFaults = [])
    (hm : locate s.cfg a = some l) :
    ∃ t, blockByte c (twWord false a 0) s = .next t ∧
      t = { s with
        resp := .byte (readLoc s a l).1, draws := s.draws + (readLoc s a l).2
        busFails := false, env := t.env } ∧
      t.env.busFaults = [] ∧
      t.thread c = { s.thread c with rdata := (s.thread c).rdata ++ [(readLoc s a l).1] } := by
  have hw : runWord (.tw (twWord false a 0)) s = .next { s with
      busFails := false, resp := .byte (readLoc s a l).1, draws := s.draws + (readLoc s a l).2 } := by
    simp only [runWord, decode_read, presented, drawBus_none hb]
    rw [exec_rd8 (s := { s with busFails := false }) hl ⟨rfl, .inl hp⟩ hm]
    cases l <;> rfl
  simp only [blockByte, hw, keepRead]
  rw [if_pos ⟨hl.1, hl.2.1, by simp⟩]
  refine ⟨_, rfl, ?_, ?_, ?_⟩
  · cases c <;> rfl
  · cases c <;> exact hb
  · rw [thread_withThread]; rfl

end Sys2Proof.Laws
end

