-- ==== Sys2Proof/Tests/Slice0.lean ====
section
/-!
SUPPORT. Tests. The words, states and results are those of 95_test_vectors.md and of the examples of
the rules named in each comment. The `test_hyp_` theorems show states that meet the hypotheses of an
obligation, clause by clause, at a boundary of each range.
-/

namespace Sys2Proof.Tests

open Sys2Proof.Machine

/-! ### Helpers -/

/-- A field of the next state, if there is one. -/
def after {α : Type} (r : Result) (f : State → α) : Option α :=
  match r with
  | .next t => some (f t)
  | .fault _ => none
  | .refused _ => none

/-- After reset, with the socket open. -/
def opened : State := { State.reset with s0mr := 0x04, s0sr := 0x42 }

/-- `opened` with the TX pointers given. -/
def txAt (wr rd : Word) : State := { opened with txWr := wr, txRd := rd }

/-- `opened` with the RX pointers given. -/
def rxAt (wr acc rd : Word) : State := { opened with rxWr := wr, rxRdAcc := acc, rxRd := rd }

/-- `opened` with a SEND of 100 bytes in flight (VE5). -/
def inFlight100 : State :=
  { txAt 0x2054 0x1FF0 with sendBusy := true, sendStart := 0x1FF0, sendEnd := 0x2054 }

/-- `opened` with a SEND of two bytes in flight, the first of them raced. -/
def inFlight2 : State :=
  { txAt 0x2001 0x1FFF with
    sendBusy := true, sendStart := 0x1FFF, sendEnd := 0x2001, raced := [0x1FFF]
    mem := [(0x4000, 0x22), (0x5FFF, 0x11)] }

/-- `opened` with IMR unmasking socket 0. -/
def unmasked : State := { opened with imr := 0x01 }

/-- A binding with no S0_IMR and no RX_WR, as on a W5100 (00 R12). -/
def bareBinding : Binding := { Binding.ref with aS0Imr := none, aRxWr := none }

/-! ### Well-formedness: one ill-formed term for each check -/

theorem test_wf_checks :
    (Instr.cmdIllegal 0x20).wf Binding.ref = false ∧ (Instr.swReset 0x7F).wf Binding.ref = false ∧
    (Instr.wr8 0x0401 0x02).wf Binding.ref = false ∧ (Instr.wr8 0x0402 0x10).wf Binding.ref = false ∧
    (Instr.wr8 0x0000 0x80).wf Binding.ref = false ∧
    (Instr.splitTx 0x1234 8193).wf Binding.ref = false ∧
    (Instr.splitRx 0x1234 8193).wf Binding.ref = false := by decide

/-- 00 R6, R7, R14, 92 D4: one binding for each constraint it breaks. -/
theorem test_wf_bindings :
    bindingValid Binding.ref = true ∧ bindingValid bareBinding = true ∧
    bindingValid { Binding.ref with sizeLog := 0 } = false ∧
    bindingValid { Binding.ref with sizeLog := 16 } = false ∧
    bindingValid { Binding.ref with rxBase := 0x5FFF } = false ∧
    bindingValid { Binding.ref with rxBase := 0xE001 } = false ∧
    bindingValid { Binding.ref with aS0Cr := 0x0400 } = false ∧
    bindingValid { Binding.ref with srInit := 0x42 } = false ∧
    bindingValid { Binding.ref with cmdRecv := 0x20 } = false ∧
    bindingValid { Binding.ref with cmdOpen := 0x00 } = false ∧
    bindingValid { Binding.ref with irRecv := 4 } = false ∧
    bindingValid { Binding.ref with s0MrMf := 3 } = false := by decide

/-! ### Decoding: 95 section 2.1, the words written out there -/

theorem test_decode_bus :
    decodeTableWord 32 0x0042400 = some (.rd8 0x0424) ∧
    decodeTableWord 32 0x1040101 = some .openSock ∧
    decodeTableWord 32 0x1040110 = some .closeSock ∧
    decodeTableWord 32 0x1040120 = some .send ∧
    decodeTableWord 32 0x1040140 = some .recv ∧
    decodeTableWord 32 0x1040100 = some (.cmdIllegal 0x00) ∧
    decodeTableWord 32 0x1000080 = some (.swReset 0x80) ∧
    decodeTableWord 32 0x1040200 = some (.w1c 0x00) ∧
    decodeTableWord 32 0x1042554 = some (.wr8 0x0425 0x54) ∧
    decodeTableWord 32 0x1040342 = some (.wr8 0x0403 0x42) ∧
    decodeTableWord 32 0x0040201 = none := by decide

theorem test_decode_ports :
    decodeTableWord 24 0x01FFF = some (.mapTx 0x1FFF) ∧
    decodeTableWord 24 0x1FFFF = some (.mapRx 0xFFFF) ∧
    decodeTableWord 40 0x001002000 = some (.splitTx 0x0100 8192) ∧
    decodeTableWord 40 0x12001003C = some (.splitRx 0x2001 60) ∧
    decodeTableWord 40 0x012342001 = none ∧
    decodeTableWord 8 0x0 = some .rstAssert ∧ decodeTableWord 8 0x1 = some .rstRelease := by decide

/-! ### The mapper: 95 sections 2.1 and 2.2 -/

theorem test_mapTx : after (exec (.mapTx 0xABCD) State.reset) (·.resp) = some (.addr 0x4BCD) := by
  decide

theorem test_mapRx : after (exec (.mapRx 0xFFFF) State.reset) (·.resp) = some (.addr 0x7FFF) := by
  decide

theorem test_splitTx : after (exec (.splitTx 0x1FF0 100) State.reset) (·.resp) =
    some (.pieces [(0x5FF0, 16), (0x4000, 84)]) := by decide

theorem test_splitRx : after (exec (.splitRx 0xE000 10) State.reset) (·.resp) =
    some (.pieces [(0x6000, 10)]) := by decide

theorem test_pointers : advance 0xFFF0 100 = 0x0054 ∧ occ 0x0010 0xFFF0 = 32 ∧
    frameLen Binding.ref 62 = (60, 62) ∧
    frameLen { Binding.ref with hdrIncludesSelf := false } 62 = (62, 64) := by decide

/-! ### Reads and writes: 95 section 2.3 -/

theorem test_rd8_low_byte :
    after (exec (.rd8 0x0425) (txAt 0x1FF0 0)) (·.resp) = some (.byte 0xF0) := by decide

/-- 40 R107's example: TX_FSR = 0x1FE0. -/
theorem test_rd8_free_size :
    after (exec (.rd8 0x0420) (txAt 0x0010 0xFFF0)) (·.resp) = some (.byte 0x1F) := by decide

theorem test_wr8_low_byte :
    after (exec (.wr8 0x0425 0x54) (txAt 0x1FF0 0)) (·.txWr) = some 0x1F54 := by decide

theorem test_wr8_read_only :
    after (exec (.wr8 0x0427 0x00) opened) (·.faults) = some [.roWrite 0x0427 0x00] := by decide

theorem test_w1c :
    after (exec (.w1c 0x10) { opened with s0ir := 0x14 }) (·.s0ir) = some 0x04 := by decide

/-- VI3: the line stays asserted and no edge is made. -/
theorem test_w1c_keeps_line :
    after (exec (.w1c 0x10) { unmasked with s0ir := 0x14 }) (fun t => (t.intAsserted, t.intEdges)) =
      some (true, 0) := by decide

theorem test_swReset :
    after (exec (.swReset 0xFF) State.reset) (fun t => (t.phase, t.mr)) = some (.swReset, 0x00) := by
  decide

theorem test_swReset_not_ready :
    after (exec (.swReset 0x80) { State.reset with phase := .swReset }) (·.faults) =
      some [.notReady 0x0000 .swReset] := by decide

/-- 20 R67: 0xFFFF with two bytes. -/
theorem test_block_wraps :
    after (beginBlock .app false 0xFFFF [0, 0] opened) (·.faults) = some [.addrWrap 0xFFFF 2] := by
  decide

/-- 95 section 2.3: the last TX byte is written, then the block runs into the RX window. -/
theorem test_block_not_mapped :
    let s : State := { opened with cfg := { Binding.ref with wideAtomic := true } }
    after (beginBlock .app true 0x5FFF [0xAA, 0xBB] s) (fun t => (t.mem, t.faults)) =
      some ([(0x5FFF, 0xAA)], [.rxWrite 0x6000 0xBB]) := by decide

/-- 95 section 2.3: 0xFFFE with two bytes does not wrap; its first byte is unmapped. -/
theorem test_block_last_address :
    after (beginBlock .app false 0xFFFE [0, 0] opened) (·.faults) = some [.unmapped 0xFFFE] := by
  decide

/-! ### The host: 43 -/

/-- 20 R69, 41 R135: a repeated read keeps its number, also after a turn that is not enabled; another
read, a write or another agent's step between gives it a new one, also a reserved-bit step with no bit, so that 95_test_vectors.md's "fresh draw at each byte read" holds. -/
theorem test_readNo :
    let s := busStep false 0x0426 1 opened
    (busStep false 0x0426 1 s).env.readNo = s.env.readNo ∧
    (busStep false 0x0426 1 (busStep false 0x0427 1 s)).env.readNo = s.env.readNo + 2 ∧
    (busStep false 0x0426 1 (busStep true 0x0001 1 s)).env.readNo = s.env.readNo + 2 ∧
    after (agentStep (offerEnabled s [0xA5]) (networkStep [0xA5] s))
      (fun t => (busStep false 0x0426 1 t).env.readNo) = some (s.env.readNo + 1) ∧
    after (takeTurn (.engine (.reservedIr 0)) s)
      (fun t => (busStep false 0x0426 1 t).env.readNo) = some (s.env.readNo + 1) ∧
    after (takeTurn (.engine .settle) s)
      (fun t => (busStep false 0x0426 1 t).env.readNo) = some s.env.readNo := by
  decide

/-- 43 R166 step 3: TxBufferFull ends this send alone, and the caller's next lines stay. -/
theorem test_txBufferFull :
    let s := push .app [.txCheck [0xA5], .send [0x5A]] opened
    after (hostTurn .app s) (fun t => (t.thread .app).prog) =
      some [.releaseTx, .finish .txBufferFull, .send [0x5A]] := by decide

/-- 43 R161, R164, R172: the open gives up after no read, while OPEN is unaccepted; the lock is held
until the acceptance, and the lines after the operation stay. -/
theorem test_openTimeout :
    let s := push .app ((openSeq Binding.ref false 0).drop 3 ++ [.finish .ok, .delay])
      { State.reset with
        cmdPending := some .openSock
        env := { Env.idle with lock := some .app } }
    after (hostTurn .app s) (fun t => ((t.thread .app).prog, t.env.results, t.env.lock)) =
      some (waitCmd Binding.ref ++ [.delay], [.socketOpenTimeout], some .app) := by decide

/-- 43 R165: giving up the close reports a result and keeps the release of the TX gate. -/
theorem test_closeTimeout :
    let s := push .app ((closeSeq Binding.ref 0).drop 2) opened
    after (hostTurn .app s) (fun t => ((t.thread .app).prog, t.env.results)) =
      some ([.releaseTx], [.socketCloseTimeout]) := by decide

/-- 70 R196: DELAY T_RST_SETTLE waits while the reset input is asserted again. -/
theorem test_delaySettle :
    canMove (push .app [.delaySettle] { State.reset with phase := .hwReset }) .app = false ∧
    canMove (push .app [.delaySettle] State.reset) .app = true := by decide

/-- 43 R163: the duplex bit is read only where it is bound, and a new worker is not told to stop. -/
theorem test_bringUp :
    duplexSeq Binding.ref true = [] ∧ duplexSeq { Binding.ref with mrFd := some 5 } true ≠ [] ∧
    (hostLine .app .startWorker (hostLine .app .teardown State.reset)).env.stop = false := by decide

/-- 43 R171: after the worker has ended, a TX gate still held is released with TxTimeout. -/
theorem test_teardown :
    let s := hostLine .app .txTimeout { opened with env := { Env.idle with txGate := true } }
    teardownSeq = [.teardown, .joinWorker, .txTimeout, .finish .ok] ∧
    s.env.txGate = false ∧ s.env.results = [.txTimeout] := by decide

/-! ### Commands: 95 section 2.4 -/

/-- VC1. -/
theorem test_openSock :
    after (exec .openSock { State.reset with s0mr := 0x04 }) (·.cmdPending) =
      some (some .openSock) := by decide

/-- VC4: the status is checked before the mode. -/
theorem test_openSock_state : after (exec .openSock opened) (·.faults) = some [.openState 0x42] := by
  decide

/-- VC10. -/
theorem test_closeSock : after (exec .closeSock State.reset) (·.cmdPending) = some (some .closeSock) := by
  decide

/-- VC9. -/
theorem test_closeSock_busy :
    after (exec .closeSock inFlight100) (·.faults) = some [.closeBusy 0x1FF0 0x2054] := by decide

/-- VC16. -/
theorem test_send : after (exec .send (txAt 0x05EA 0)) (·.cmdPending) = some (some .send) := by decide

/-- VC17. -/
theorem test_send_too_long :
    after (exec .send (txAt 0x05EB 0)) (·.faults) = some [.sendLen 0x05EB 0x0000] := by decide

/-- VC19. -/
theorem test_recv :
    after (exec .recv (rxAt 0x207B 0x1FFF 0x203D)) (·.cmdPending) = some (some .recv) := by decide

/-- VC20. -/
theorem test_recv_over :
    after (exec .recv (rxAt 0x203D 0x1FFF 0x2040)) (·.faults) =
      some [.recvOver 0x2040 0x203D 0x1FFF] := by decide

/-- VC7: an unknown code is checked before the overrun. -/
theorem test_cmdIllegal :
    after (exec (.cmdIllegal 0x02) { opened with cmdPending := some .send }) (·.faults) =
      some [.cmdUnknown 0x02] := by decide

/-! ### Resets: 95 section 2.7 -/

/-- VR1, with no frame in flight. -/
theorem test_rstAssert :
    after (exec .rstAssert { opened with cmdPending := some .recv }) (fun t => (t.phase, t.cmdPending)) =
      some (.hwReset, none) := by decide

/-- VR3. -/
theorem test_rstRelease :
    after (exec .rstRelease { State.reset with phase := .hwReset }) (·.phase) = some .settling := by
  decide

/-- VR5. -/
theorem test_rstRelease_ready : after (exec .rstRelease opened) (·.phase) = some .ready := by decide

/-! ### The engine and the network: 95 sections 2.4 to 2.6 -/

/-- VE5. -/
theorem test_accept_send :
    after (engineStep .accept { txAt 0x2054 0x1FF0 with cmdPending := some .send })
      (fun t => (t.sendStart, t.sendEnd, t.sendBusy, t.cmdPending, t.txRd)) =
      some (0x1FF0, 0x2054, true, none, 0x1FF0) := by decide

/-- VE8's rule on two bytes across the wrap: 42 R150. -/
theorem test_send_done :
    after (engineStep .sendDone { inFlight2 with raced := [] })
      (fun t => (t.netOut, t.txRd, t.sendBusy, t.s0ir)) =
      some ([[0x11, 0x22]], 0x2001, false, 0x10) := by decide

/-- VN1's rule on a one-byte frame: the prefix straddles (42 R153). -/
theorem test_deposit :
    after (networkStep [0xA5] (rxAt 0x1FFF 0x1FFF 0x1FFF)) (fun t => (t.mem, t.rxWr, t.s0ir)) =
      some ([(0x6000, 0x03), (0x6001, 0xA5), (0x7FFF, 0x00)], 0x2002, 0x04) := by decide

/-- VN6: dropped while INIT. -/
theorem test_drop : after (networkStep [0xA5] { opened with s0sr := 0x13 }) (·.netDrop) = some 1 := by
  decide

/-- VI1: SEND completion asserts the line, an edge. -/
theorem test_edge :
    after (engineStep .sendDone { inFlight100 with imr := 0x01 })
      (fun t => (t.intAsserted, t.intPin, t.intEdges)) = some (true, false, 1) := by decide

/-! ### The hypotheses of the obligations are met -/

/-- `live`, `admitsWrite` and READY: the statements about one access of an open or closed socket. -/
theorem test_hyp_live : State.reset.live ∧ State.reset.admitsWrite ∧ opened.live ∧
    opened.admitsWrite ∧ State.live { State.reset with cfg := bareBinding } := by decide

theorem test_ref_valid : bindingValid Binding.ref = true := by decide

/-- The helper states can step and admit writes, whatever their pointers. -/
theorem test_hyp_states (x y z : Word) :
    ((txAt x y).live ∧ (txAt x y).admitsWrite) ∧ ((rxAt x y z).live ∧ (rxAt x y z).admitsWrite) ∧
    (inFlight100.live ∧ inFlight100.admitsWrite) ∧ unmasked.live ∧ unmasked.admitsWrite :=
  ⟨⟨⟨rfl, rfl, test_ref_valid⟩, rfl, rfl⟩, ⟨⟨rfl, rfl, test_ref_valid⟩, rfl, rfl⟩,
    ⟨⟨rfl, rfl, test_ref_valid⟩, rfl, rfl⟩, ⟨rfl, rfl, test_ref_valid⟩, rfl, rfl⟩

/-- DecodeOfEncode: operands at the edge of well-formedness. -/
theorem test_hyp_DecodeOfEncode :
    (Instr.cmdIllegal 0xFF).wf Binding.ref = true ∧ (Instr.swReset 0x80).wf Binding.ref = true ∧
    (Instr.wr8 0x0000 0x7F).wf Binding.ref = true ∧
    (Instr.splitTx 0xFFFF 8192).wf Binding.ref = true := by decide

theorem test_hyp_EncodeOfDecode :
    decode Binding.ref (.tw 0x1042554) = .ok (.wr8 0x0425 0x54) ∧
    decode Binding.ref (.ms 0x001002000) = .ok (.splitTx 0x0100 8192) := ⟨rfl, rfl⟩

theorem test_hyp_RefusalStopsTheRun :
    decode State.reset.cfg (.tw 0x0040201) = .error .readWithData ∧
    decode State.reset.cfg (.ms 0x012342001) = .error .splitTooLong ∧
    State.reset.cfg.size < (8193#16).toNat ∧
    bindingValid { Binding.ref with sizeLog := 16 } = false ∧
    State.faults { State.reset with refused := true } = [] :=
  ⟨rfl, rfl, by decide, by decide, rfl⟩

theorem test_hyp_StepRunsDecodedWord :
    State.reset.live ∧ decode State.reset.cfg (.mw 0x0ABCD) = .ok (.mapTx 0xABCD) :=
  ⟨by decide, rfl⟩

theorem test_hyp_SplitPieces :
    State.reset.live ∧ (8192#16).toNat ≤ State.reset.cfg.size ∧ (0#16).toNat ≤ State.reset.cfg.size := by
  decide

/-- RingWriteReadsBack: two bytes across the window end. -/
theorem test_hyp_RingWriteReadsBack :
    opened.live ∧ opened.admitsWrite ∧ [0xAA, (0xBB : Byte)].length ≤ opened.cfg.size := by decide

theorem test_hyp_MaskRegisters :
    (0x01 : Byte).getLsbD opened.cfg.irS0 = true ∧
    State.s0Int { opened with s0ir := 0x10 } = true ∧ opened.cfg.aS0Imr = some 0x042C ∧
    bareBinding.aS0Imr = none := by decide

theorem test_hyp_EngineRegisters :
    opened.statusOk ∧ State.reset.statusOk ∧ opened.cfg.aRxWr = some 0x042A := by decide

/-- ReadOnlyWriteFaults: the last byte of RX_WR and the one byte of IR. -/
theorem test_hyp_ReadOnlyWrite :
    Reg.rxWr ∈ [Reg.ir, .s0sr, .txFsr, .txRd, .rxRsr, .rxWr] ∧
    Reg.rxWr.base opened.cfg = some 0x042A ∧ (0x042A : Addr).toNat ≤ (0x042B : Addr).toNat ∧
    (0x042B : Addr).toNat < (0x042A : Addr).toNat + Reg.rxWr.len ∧
    Reg.ir.base opened.cfg = some 0x0015 := by decide

/-- SizeRegistersRead: at SIZE, one above it, and both relations of RX_RD and rx_rd_acc. -/
theorem test_hyp_SizeRegisters :
    occ (txAt 0x2000 0).txWr (txAt 0x2000 0).txRd = opened.cfg.size ∧
    opened.cfg.size < occ (txAt 0x2001 0).txWr (txAt 0x2001 0).txRd ∧
    (rxAt 5 0xFFFB 0xFFFB).rxRd = (rxAt 5 0xFFFB 0xFFFB).rxRdAcc ∧
    (rxAt 0x207B 0x1FFF 0x203D).rxRd ≠ (rxAt 0x207B 0x1FFF 0x203D).rxRdAcc ∧
    (rxAt 0x207B 0x1FFF 0x203D).env.busFaults = [] := by decide

/-- ModeRegisterReadAndWrite, SoftwareResetStarts, AccessDuringReset: each phase, and MR_RST both
ways. -/
theorem test_hyp_phases :
    State.live { State.reset with phase := .swReset } ∧
    State.live { State.reset with phase := .hwReset } ∧
    State.live { State.reset with phase := .settling } ∧ State.reset.busFails = false ∧
    (0x80 : Byte).getLsbD State.reset.cfg.mrRst = true ∧
    (0x7F : Byte).getLsbD State.reset.cfg.mrRst = false ∧
    writeTarget State.reset.cfg (.wr8 0x0403 0x42) = some 0x0403 := by decide

/-- WindowReads: the first and last bytes of each window, the first occupied RX byte, and the next
one, which no occupied position maps to. -/
theorem test_hyp_WindowReads :
    inWindow Binding.ref .tx 0x4000 = true ∧ inWindow Binding.ref .tx 0x5FFF = true ∧
    inWindow Binding.ref .rx 0x6000 = true ∧ inWindow Binding.ref .rx 0x7FFF = true ∧
    (∃ p : Word, occ p (rxAt 1 0 0).rxRdAcc < occ (rxAt 1 0 0).rxWr (rxAt 1 0 0).rxRdAcc ∧
      mapAt opened.cfg .rx p = 0x6000) ∧
    ¬∃ p : Word, occ p (rxAt 1 0 0).rxRdAcc < occ (rxAt 1 0 0).rxWr (rxAt 1 0 0).rxRdAcc ∧
      mapAt opened.cfg .rx p = 0x6001 := by
  refine ⟨by decide, by decide, by decide, by decide, ⟨0, by decide⟩, ?_⟩
  rintro ⟨p, hp, hm⟩
  have h0 : p = 0 := by
    have h1 : occ p 0 < 1 := hp
    simp only [occ] at h1
    exact BitVec.eq_of_toNat_eq (by simpa using h1)
  subst h0
  exact absurd hm (by decide)

theorem test_inFlight2_length : occ inFlight2.sendEnd inFlight2.sendStart = 2 := by decide

theorem test_inFlight2_flightOk : inFlight2.flightOk := by
  have hm : min inFlight2.cfg.size inFlight2.cfg.maxFrame = 1514 := by decide
  have h0 : 0 < occ inFlight2.sendEnd inFlight2.sendStart :=
    lt_of_lt_of_eq (by decide : 0 < 2) test_inFlight2_length.symm
  have h1 : occ inFlight2.sendEnd inFlight2.sendStart ≤ min inFlight2.cfg.size inFlight2.cfg.maxFrame :=
    le_of_eq_of_le test_inFlight2_length (le_of_le_of_eq (by decide : 2 ≤ 1514) hm.symm)
  have h2 : ∀ p ∈ inFlight2.raced,
      occ p inFlight2.sendStart < occ inFlight2.sendEnd inFlight2.sendStart := by
    intro p hp
    have hp : p = 0x1FFF := List.mem_singleton.1 hp
    subst hp
    have h : occ 0x1FFF inFlight2.sendStart = 0 := by decide
    exact lt_of_eq_of_lt h h0
  exact ⟨fun _ => ⟨rfl, rfl, h0, h1, h2⟩, by decide, rfl⟩

/-- TxWindowWrite: with a SEND in flight and a byte of it, and with none. -/
theorem test_hyp_TxWindowWrite :
    inFlight2.live ∧ inFlight2.admitsWrite ∧ inFlight2.flightOk ∧
    inWindow inFlight2.cfg .tx 0x4000 = true ∧ opened.flightOk :=
  ⟨by decide, by decide, test_inFlight2_flightOk, by decide, by decide⟩

/-- UnmappedAndRxWriteFaults: the byte below the TX window, the one above the RX window, and the
gap between GAR and SHAR. -/
theorem test_hyp_Unmapped :
    unmapped Binding.ref 0x3FFF ∧ unmapped Binding.ref 0x8000 ∧ unmapped Binding.ref 0x0005 := by
  refine ⟨⟨?_, by decide, by decide⟩, ⟨?_, by decide, by decide⟩, ⟨?_, by decide, by decide⟩⟩ <;>
  · intro r x hx
    cases r <;> cases hx <;> decide

theorem test_hyp_BusFault :
    State.live { State.reset with busFails := true } ∧
    State.busFails { State.reset with busFails := true } = true := by decide

/-- `opened` with the second byte of a two-byte read of TX_RD waiting in the context's thread. -/
def midRead : State :=
  opened.withThread .app { Thread.idle with xfer := [twWord false (opened.cfg.aTxRd + 1) 0] }

/-- BlockAddresses: a wrap by one byte, the last address that does not wrap, a waiting byte, and a
word that decodes and runs. -/
theorem test_hyp_BlockAddresses :
    opened.live ∧ 0xFFFF < (0xFFFF : Addr).toNat + [0, (0 : Byte)].length - 1 ∧
    1 < [0, (0 : Byte)].length ∧ (0xFFFE : Addr).toNat + [(0 : Byte)].length ≤ 0xFFFF ∧
    opened.cfg.wideAtomic = false ∧
    (midRead.thread .app).xfer = [twWord false (opened.cfg.aTxRd + 1) 0] ∧
    busFree midRead .app = true ∧ decode midRead.cfg (.tw 0x0042300) = .ok (.rd8 0x0423) ∧
    (∃ t, exec (.rd8 0x0423) (drawBus midRead) = .next t) :=
  ⟨by decide, by decide, by decide, by decide, rfl, rfl, rfl, rfl, ⟨_, rfl⟩⟩

/-- AtomicWordAccess: also with a TX occupancy of SIZE. -/
theorem test_hyp_AtomicWordAccess :
    State.live { opened with cfg := { Binding.ref with wideAtomic := true } } ∧
    opened.phase = .ready ∧ opened.env.busFaults = [] ∧
    occ (txAt 0x2000 0).txWr (txAt 0x2000 0).txRd ≤ opened.cfg.size := by decide

/-- TransactionByteSteps: the first byte of a read, the second, steps between them, the other context
with a bus line, and a byte that faults. -/
theorem test_hyp_TransactionByteSteps :
    midRead.live ∧ midRead.phase = .ready ∧ midRead.env.busFaults = [] ∧
    Reg.rxWr ∈ [Reg.txFsr, .txRd, .rxRsr, .rxWr] ∧ Reg.rxWr.base opened.cfg = some 0x042A ∧
    Reg.txRd.base midRead.cfg = some opened.cfg.aTxRd ∧ midRead.cfg.wideAtomic = false ∧
    (midRead.thread .app).xfer = [twWord false (opened.cfg.aTxRd + 1) 0] ∧
    busFree midRead .app = true ∧
    ((push .worker [.lock] midRead).thread .worker).prog = .lock :: [] ∧
    (∃ t, networkStep [0xA5] midRead = .next t) ∧
    (∃ t, blockByte .app (twWord false 0x0005 0) opened = .next t ∧ t.faults ≠ []) :=
  ⟨by decide, rfl, rfl, by decide, rfl, rfl, rfl, rfl, rfl, rfl, ⟨_, rfl⟩, ⟨_, rfl, by decide⟩⟩

theorem test_hyp_CommandWrite :
    (Instr.cmdIllegal 0x02).wf opened.cfg = true ∧ opened.cmdPending = none ∧
    State.admitsWrite { opened with cmdPending := some .send } := by decide

/-- OpenWrite: each clause. -/
theorem test_hyp_OpenWrite :
    State.reset.s0sr = State.reset.cfg.srClosed ∧ opened.s0sr ≠ opened.cfg.srClosed ∧
    fieldOf 0x44 Binding.ref.protoHi Binding.ref.protoLo = Binding.ref.protoMacraw ∧
    fieldOf 0x01 Binding.ref.protoHi Binding.ref.protoLo ≠ Binding.ref.protoMacraw := by decide

/-- CloseWrite and SendWrite: each clause, at 1514 and 1515 bytes. -/
theorem test_hyp_SendWrite :
    opened.s0sr = opened.cfg.srMacraw ∧ opened.sendBusy = false ∧ inFlight100.sendBusy = true ∧
    State.reset.s0sr ≠ State.reset.cfg.srMacraw ∧
    occ (txAt 1514 0).txWr (txAt 1514 0).txRd = min opened.cfg.size opened.cfg.maxFrame ∧
    ¬occ (txAt 1515 0).txWr (txAt 1515 0).txRd ≤ min opened.cfg.size opened.cfg.maxFrame ∧
    ¬0 < occ (txAt 0 0).txWr (txAt 0 0).txRd := by decide

/-- RecvWrite and RecvAccepted: RX_RD = RX_WR, one past it, and data left over. -/
theorem test_hyp_Recv :
    ¬occ (rxAt 3 0 3).rxWr (rxAt 3 0 3).rxRdAcc < occ (rxAt 3 0 3).rxRd (rxAt 3 0 3).rxRdAcc ∧
    occ (rxAt 3 0 4).rxWr (rxAt 3 0 4).rxRdAcc < occ (rxAt 3 0 4).rxRd (rxAt 3 0 4).rxRdAcc ∧
    State.live { rxAt 3 0 2 with cmdPending := some .recv } := by decide

/-- OpenAccepted, OpenCompletedAndCloseAccepted, SendAccepted, SendCompleted, OnlyResets. -/
theorem test_hyp_Engine :
    State.live { State.reset with cmdPending := some .openSock, s0mr := 0x44 } ∧
    State.macrawMode { State.reset with s0mr := 0x44 } = true ∧
    State.macrawMode { State.reset with s0mr := 0x01 } = false ∧
    State.live { opened with cmdPending := some .closeSock } ∧
    State.live { opened with s0sr := 0x13, openPending := true } ∧
    State.live { txAt 1514 0 with cmdPending := some .send } ∧
    inFlight2.sendBusy = true ∧ inFlight2.sendStart + 1 ∉ inFlight2.raced := by decide

/-- FrameOffered: frames of 1 and of MAX_FRAME bytes, with the filter latched and not. -/
theorem test_hyp_FrameOffered :
    opened.live ∧ 1 ≤ [(0xA5 : Byte)].length ∧ [(0xA5 : Byte)].length ≤ opened.cfg.maxFrame ∧
    (List.replicate 1514 (0 : Byte)).length ≤ opened.cfg.maxFrame ∧ opened.mfLatched = false ∧
    hdrLen + 1514 ≤ opened.cfg.size - occ opened.rxWr opened.rxRdAcc := by
  rw [List.length_replicate]
  decide

/-- EngineLeavesRingBytes and EnginePointersMove: a deposit, and the occupied byte it spares. -/
theorem test_hyp_EngineLeaves :
    (∃ t, networkStep [0xA5] (rxAt 1 0 0) = .next t) ∧
    (∃ t, engineStep .accept { rxAt 1 0 0 with cmdPending := some .recv } = .next t) ∧
    (∃ p : Word, occ p (rxAt 1 0 0).rxRdAcc < occ (rxAt 1 0 0).rxWr (rxAt 1 0 0).rxRdAcc ∧
      mapAt opened.cfg .rx p = 0x6000) ∧
    occ (rxAt 1 0 0).rxWr (rxAt 1 0 0).rxRdAcc ≤ opened.cfg.size :=
  ⟨⟨_, rfl⟩, ⟨_, rfl⟩, ⟨0, by decide⟩, by decide⟩

theorem test_hyp_DepositedFrame :
    ∃ t, networkStep [0xA5] opened = .next t ∧ t.rxWr ≠ opened.rxWr := ⟨_, rfl, by decide⟩

/-- IdleScheduleIsFair and ResetCompletes: no turn listed, and each phase that completes. -/
theorem test_hyp_Idle :
    opened.env.turns = [] ∧ State.live { opened with cmdPending := some .send } ∧
    State.live { opened with openPending := true } ∧ inFlight2.env.turns = [] ∧
    State.live { inFlight2 with phase := .swReset } := by decide

/-- EdgesAreCounted: a step of the machine that makes an edge. -/
theorem test_hyp_Edges :
    ∃ t, step { inFlight2 with imr := 0x01 } = .next t ∧ t.intAsserted = true :=
  ⟨_, rfl, by decide⟩

/-- StatusMoves and InvariantKept: states of the invariant that step, at rest and with a SEND
in flight. -/
theorem test_hyp_Inv :
    State.reset.Inv ∧ opened.Inv ∧ inFlight2.Inv ∧ (∃ t, step inFlight2 = .next t) :=
  ⟨by decide, by decide,
    ⟨by decide, by decide, rfl, by decide, by decide, by decide, by decide, test_inFlight2_flightOk,
      by decide, by decide⟩,
    ⟨_, rfl⟩⟩

/-- OperationFrames: a read of TX_FSR with the occupancy one above SIZE, and of RX_RSR with unequal
pointers, takes no draw; an occupied RX byte. -/
theorem test_hyp_repeat :
    (∃ r, exec (.rd8 0x0420) (txAt 0x2001 0) = .next { txAt 0x2001 0 with resp := .byte r }) ∧
    (0x0420 : Addr) ≠ opened.cfg.aIr ∧ inWindow opened.cfg .rx 0x0420 = false ∧
    (∃ r, exec (.rd8 0x0427) (rxAt 0x207B 0x1FFF 0x203D) =
      .next { rxAt 0x207B 0x1FFF 0x203D with resp := .byte r }) ∧
    (0x0427 : Addr) ≠ opened.cfg.aIr ∧ inWindow opened.cfg .rx 0x0427 = false ∧
    inWindow opened.cfg .rx 0x6004 = true ∧ (rxAt 5 0xFFFB 0xFFFB).rxOccupied 0x6004 = true :=
  ⟨⟨_, rfl⟩, by decide, by decide, ⟨_, rfl⟩, by decide, by decide, by decide, by decide⟩

/-- HostNeverSetsFlags, HostLeavesEngineState, OperationFrames. -/
theorem test_hyp_Host :
    (Instr.w1c 0x04).wf opened.cfg = true ∧
    (∃ t, exec (.w1c 0x04) { opened with s0ir := 0x04 } = .next t) ∧
    (∃ t, exec (.rd8 0x0403) opened = .next t) ∧ (∃ t, exec .send (txAt 1 0) = .next t) :=
  ⟨rfl, ⟨_, rfl⟩, ⟨_, rfl⟩, ⟨_, rfl⟩⟩

theorem test_hyp_Faults :
    (∃ t, exec (.rd8 0x0005) opened = .next t ∧ t.faults ≠ []) := ⟨_, rfl, by decide⟩

/-- SendEmitsTheFrameWritten: frames of one byte and of 1514 bytes. -/
theorem test_hyp_SendEmits :
    (txAt 0x1FF0 0x1FF0).live ∧ (txAt 0x1FF0 0x1FF0).admitsWrite ∧ opened.s0sr = opened.cfg.srMacraw ∧
    (txAt 0x1FF0 0x1FF0).txRd = (txAt 0x1FF0 0x1FF0).txWr ∧ opened.sendBusy = false ∧
    opened.cmdPending = none ∧ 0 < [(0xA5 : Byte)].length ∧
    (List.replicate 1514 (0 : Byte)).length ≤ min opened.cfg.size opened.cfg.maxFrame := by
  rw [List.length_replicate]
  decide

end Sys2Proof.Tests
end

/-! ### Bits and codes -/

namespace Sys2Proof.Proofs

open Sys2Proof.Machine Sys2Proof.Laws

theorem bitAt_maskOf (i j : Fin 8) : bitAt (maskOf i) j = decide (i = j) := by
  revert i j; decide

theorem bitAt_setBit (v : Byte) (i j : Fin 8) (x : Bool) :
    bitAt (setBit v i x) j = if i = j then x else bitAt v j := by
  have hm := bitAt_maskOf i j
  have hj := j.isLt
  simp only [bitAt] at hm ⊢
  cases x <;> by_cases hij : i = j <;>
    simp only [setBit, Bool.false_eq_true, if_false, if_true, BitVec.getLsbD_or, BitVec.getLsbD_and,
      BitVec.getLsbD_not, hm] <;> simp [hij]

/-- A W1C clears the bits of its operand and no other (41 R129). -/
theorem getLsbD_w1cBits (x v : Byte) {j : Nat} (hj : j < 8) :
    (w1cBits x v).getLsbD j = (x.getLsbD j && !v.getLsbD j) := by
  simp only [w1cBits, BitVec.getLsbD_and, BitVec.getLsbD_not, hj, decide_true, Bool.true_and]

/-! ### A read, the frame in flight and the resets -/

/-- A read records a fault or puts an answer on the port (41 R116). -/
theorem readEffect_cases (a : Addr) (s : State) :
    (∃ f, readEffect a s = raise s f) ∨ ∃ r n, readEffect a s = answer s r n := by
  unfold readEffect
  repeat' split
  · exact .inl ⟨_, rfl⟩
  · exact .inl ⟨_, rfl⟩
  · exact .inl ⟨_, rfl⟩
  · exact .inl ⟨_, rfl⟩
  · exact .inr ⟨_, _, rfl⟩

@[simp] theorem length_flightFrame (s : State) (k : Nat) :
    (s.flightFrame k).length = occ s.sendEnd s.sendStart := by simp [State.flightFrame]

/-- An unraced byte of the frame in flight is the ring byte at its position (42 R150). -/
theorem getElem?_flightFrame (s : State) (k : Nat) {i : Nat} (hi : i < (s.flightFrame k).length)
    (hr : s.sendStart + BitVec.ofNat 16 i ∉ s.raced) :
    (s.flightFrame k)[i]? =
      some (s.ringByte (mapAt s.cfg .tx (s.sendStart + BitVec.ofNat 16 i))) := by
  rw [length_flightFrame] at hi
  simp [State.flightFrame, hi, hr]

/-- Ending a SEND leaves everything when none is in flight; otherwise its frame goes out whole or not
at all (70 R195, R198). -/
theorem abortSend_cases (s : State) :
    (s.sendBusy = false ∧ abortSend s = s) ∨
    (s.sendBusy = true ∧ ∃ out d,
      (out = s.netOut ∨ ∃ k, out = s.netOut ++ [s.flightFrame k]) ∧
      abortSend s = { s with netOut := out, sendBusy := false, raced := [], draws := d }) := by
  cases hb : s.sendBusy with
  | false => exact .inl ⟨rfl, by simp [abortSend, hb]⟩
  | true =>
    refine .inr ⟨rfl, (abortSend s).netOut, (abortSend s).draws, ?_, by simp [abortSend, hb]⟩
    simp only [abortSend, hb, if_true]
    split
    · exact .inr ⟨_, rfl⟩
    · exact .inl rfl

/-- The frame of a SEND that is ended goes out whole or not at all (70 R195, R198). -/
theorem abortSend_netOut (s : State) :
    (abortSend s).netOut = s.netOut ∨
      s.sendBusy = true ∧ ∃ k, (abortSend s).netOut = s.netOut ++ [s.flightFrame k] := by
  rcases abortSend_cases s with ⟨-, h⟩ | ⟨hb, out, d, ho, h⟩
  · exact .inl (by rw [h])
  · rw [h]
    exact ho.imp id (⟨hb, ·⟩)

/-- Ending a SEND changes nothing of the block but the flight, `net_out` and the draws. -/
theorem abortSend_frame (s : State) :
    (abortSend s).faults = s.faults ∧ (abortSend s).refused = s.refused ∧
    (abortSend s).netDrop = s.netDrop ∧ (abortSend s).cfg = s.cfg ∧ (abortSend s).env = s.env := by
  rcases abortSend_cases s with ⟨-, h⟩ | ⟨-, out, d, -, h⟩ <;> rw [h] <;> simp

/-- The items of 10 R60 that have a fixed value after a reset. -/
structure ResetValues (s : State) : Prop where
  phase : s.phase = .ready
  mrRst : bitAt s.mr s.cfg.mrRst = false
  cmdPending : s.cmdPending = none
  s0sr : s.s0sr = s.cfg.srClosed
  sendokMask : bitAt s.s0imr s.cfg.irSendok = true
  recvMask : bitAt s.s0imr s.cfg.irRecv = true
  sendBusy : s.sendBusy = false
  openPending : s.openPending = false
  mfLatched : s.mfLatched = false
  raced : s.raced = []
  mem : s.mem = []

theorem resetItems_values (s : State) : ResetValues (resetItems s) where
  phase := rfl
  mrRst := by simp [resetItems, bitAt_setBit]
  cmdPending := rfl
  s0sr := rfl
  sendokMask := by simp [resetItems, bitAt_setBit]
  recvMask := by simp [resetItems, bitAt_setBit]
  sendBusy := rfl
  openPending := rfl
  mfLatched := rfl
  raced := rfl
  mem := rfl

end Sys2Proof.Proofs

/-! ### The parts of the invariant -/

namespace Sys2Proof.Proofs

open Sys2Proof.Machine Sys2Proof.Laws

/-- The invariant of the block with its parts named, so that a proof about one update states only
the parts that the update touches. -/
structure BlockInv (s : State) : Prop where
  status : s.statusOk
  mem : s.memOk
  mr : s.mrOk
  rxBound : s.rxBound
  reset : s.resetOk
  openPending : s.openOk
  pending : s.pendingOk
  flight : s.flightOk
  out : s.outOk
  faults : s.faultsOk

theorem inv_iff_blockInv {s : State} : s.Inv ↔ BlockInv s :=
  ⟨fun ⟨h1, h2, h3, h4, h5, h6, h7, h8, h9, h10⟩ => ⟨h1, h2, h3, h4, h5, h6, h7, h8, h9, h10⟩,
    fun ⟨h1, h2, h3, h4, h5, h6, h7, h8, h9, h10⟩ => ⟨h1, h2, h3, h4, h5, h6, h7, h8, h9, h10⟩⟩

variable {s t : State}

/-! ### What the parts give about a state -/

/-- A socket that is not in MACRAW has no SEND in flight. -/
theorem BlockInv.not_busy (h : BlockInv s) (hs : s.s0sr ≠ s.cfg.srMacraw) : s.sendBusy = false :=
  Bool.eq_false_iff.2 fun hb => hs (h.flight.1 hb).1

/-- The frame in flight has 1 to MAX_FRAME bytes (42 R149). -/
theorem BlockInv.flight_length (h : BlockInv s) (hb : s.sendBusy = true) (k : Nat) :
    1 ≤ (s.flightFrame k).length ∧ (s.flightFrame k).length ≤ s.cfg.maxFrame := by
  obtain ⟨-, -, hpos, hle, -⟩ := h.flight.1 hb
  rw [length_flightFrame]
  omega

/-- Sending the frame in flight keeps the bound on the frames sent (10 R55). -/
theorem BlockInv.out_append (h : BlockInv s) (hb : s.sendBusy = true) (k : Nat) :
    ∀ f ∈ s.netOut ++ [s.flightFrame k], 1 ≤ f.length ∧ f.length ≤ s.cfg.maxFrame := by
  intro f hf
  rcases List.mem_append.1 hf with hf | hf
  · exact h.out f hf
  · rw [List.mem_singleton.1 hf]
    exact h.flight_length hb k

/-- With nothing in flight and nothing raced, the parts about the flight hold. -/
theorem flightOk_idle (hb : s.sendBusy = false) (hr : s.raced = []) : s.flightOk :=
  ⟨fun h => by simp [hb] at h, fun _ => hr, by rw [hr]; rfl⟩

/-- With no command pending, no write check has to hold. -/
theorem pendingOk_none (hc : s.cmdPending = none) : s.pendingOk := by
  simp [State.pendingOk, hc]

/-! ### Faults, answers and the host's operations -/

theorem BlockInv.after_raise (h : BlockInv s) (hf : s.faults = []) (f : FaultRecord) :
    BlockInv (raise s f) :=
  { h with faults := by simp [State.faultsOk, hf] }

/-- The checks of a command write are what its acceptance relies on (42 R143, R146, R148, R151). -/
theorem pendingOk_of_cmdCheck {c : Cmd} (h : cmdCheck s c = none) :
    State.pendingOk { s with cmdPending := some c } := by
  cases c
  case openSock =>
    have hsr : s.s0sr = s.cfg.srClosed := by
      by_contra hn
      simp [cmdCheck, hn] at h
    simp [State.pendingOk, hsr]
  case closeSock =>
    have hb : s.sendBusy = false := by simpa [cmdCheck] using h
    simp [State.pendingOk, hb]
  case send =>
    have hsr : s.s0sr = s.cfg.srMacraw := by
      by_contra hn
      simp [cmdCheck, hn] at h
    have hb : s.sendBusy = false :=
      Bool.eq_false_iff.2 fun hb => by simp [cmdCheck, hsr, hb] at h
    simp [State.pendingOk, hsr, hb]
  case recv =>
    have hsr : s.s0sr = s.cfg.srMacraw := by
      by_contra hn
      simp [cmdCheck, hn] at h
    simp [State.pendingOk, hsr]

theorem windowKey_of_inWindow {b : Binding} {w : Win} {a : Addr} (h : inWindow b w a = true) :
    windowKey b a.toNat := by
  simp only [inWindow, Bool.and_eq_true, decide_eq_true_eq] at h
  cases w
  · exact .inl h
  · exact .inr h

/-- Storing a byte of a window keeps ring memory canonical and inside the windows (10 R46, R47). -/
theorem memOk_write {b : Binding} {m : Memory} {a : Nat} (v : Byte) (ha : windowKey b a)
    (h : Memory.wf m = true ∧ ∀ c ∈ m, windowKey b c.1) :
    Memory.wf (Memory.write m a v) = true ∧ ∀ c ∈ Memory.write m a v, windowKey b c.1 := by
  refine ⟨write_wf a v h.1, fun c hc => ?_⟩
  rcases mem_write hc with rfl | hc
  · exact ha
  · exact h.2 c hc

/-- As `memOk_write` for the bytes of a ring transfer (40 R112). -/
theorem memOk_ringStore {b : Binding} (hr : RingFacts b) (w : Win) (p : Word) (vs : List Byte)
    {m : Memory} (h : Memory.wf m = true ∧ ∀ c ∈ m, windowKey b c.1) :
    Memory.wf (ringStore b w p vs m) = true ∧ ∀ c ∈ ringStore b w p vs m, windowKey b c.1 := by
  induction vs generalizing p m with
  | nil => exact h
  | cons v vs ih => exact ih _ (memOk_write v (windowKey_of_inWindow (mapAt_inWindow hr w p)) h)

/-- The position that a window byte has in the flight lies in it (20 R80). -/
theorem inFlight_some {a : Addr} {p : Word} (h : s.inFlight a = some p) :
    s.sendBusy = true ∧ occ p s.sendStart < occ s.sendEnd s.sendStart := by
  simp only [State.inFlight, Option.ite_none_right_eq_some, Option.some.injEq] at h
  obtain ⟨⟨hb, hi⟩, rfl⟩ := h
  have := occ_lt s.sendEnd s.sendStart
  rw [occ_ofNat _ _ (by omega)]
  exact ⟨hb, hi⟩

/-- A position of the flight may be added to the raced ones (20 R80). -/
theorem flightOk_insert {p : Word} (h : s.flightOk) (hb : s.sendBusy = true)
    (hp : occ p s.sendStart < occ s.sendEnd s.sendStart) :
    State.flightOk { s with raced := insertWord p s.raced } := by
  obtain ⟨hbusy, -, hrise⟩ := h
  obtain ⟨hsr, hstart, hpos, hle, hraced⟩ := hbusy hb
  refine ⟨fun _ => ⟨hsr, hstart, hpos, hle, fun q hq => ?_⟩, fun hn => ?_, rising_insertWord p hrise⟩
  · rcases (mem_insertWord p q s.raced).1 hq with rfl | hq
    · exact hp
    · exact hraced q hq
  · exact absurd hb (by simpa using hn)

theorem BlockInv.after_writeTx (h : BlockInv s) {a : Addr} (v : Byte)
    (ha : inWindow s.cfg .tx a = true) : BlockInv (writeTx s a v) :=
  { h with
    mem := memOk_write v (windowKey_of_inWindow ha) h.mem
    flight := by
      cases hp : s.inFlight a with
      | none => simpa only [writeTx, hp] using h.flight
      | some p =>
        obtain ⟨hb, hlt⟩ := inFlight_some hp
        simpa only [writeTx, hp] using flightOk_insert h.flight hb hlt }

theorem BlockInv.after_writeReg (h : BlockInv s) (hf : s.faults = []) (hp : s.phase = .ready)
    (a : Addr) (v : Byte) (r : Reg) (i : Nat) : BlockInv (writeReg s a v r i) := by
  have hrun : s.running := .inl hp
  rcases writeReg_cases s a v r i with ⟨f, e⟩ | e | ⟨hv, e⟩ | ⟨c, -, hc, e⟩ | e |
    ⟨_, _, _, _, _, _, _, _, e⟩
  · exact e ▸ h.after_raise hf f
  · have hsw : State.running { s with phase := .swReset } := .inr rfl
    exact e ▸ { h with
      reset := .inl hsw
      openPending := h.openPending.trans (and_congr_right fun _ => ⟨fun _ => hsw, fun _ => hrun⟩) }
  · exact e ▸ { h with mr := hv }
  · exact e ▸ { h with reset := .inl hrun, pending := pendingOk_of_cmdCheck hc }
  · exact e ▸ { h with }
  · exact e ▸ { h with }

theorem BlockInv.after_writeEffect (h : BlockInv s) (hl : s.live) (a : Addr) (v : Byte) :
    BlockInv (writeEffect a v s) := by
  rcases writeEffect_cases a v s with ⟨f, e⟩ | ⟨hp, ⟨r, i, -, e⟩ | ⟨hw, e⟩⟩
  · exact e ▸ h.after_raise hl.1 f
  · exact e ▸ h.after_writeReg hl.1 hp a v r i
  · exact e ▸ h.after_writeTx v ((locate_win_iff hl.2.2).1 hw)

theorem BlockInv.after_readEffect (h : BlockInv s) (hl : s.live) (a : Addr) :
    BlockInv (readEffect a s) := by
  rcases readEffect_cases a s with ⟨f, e⟩ | ⟨r, n, e⟩
  · exact e ▸ h.after_raise hl.1 f
  · exact e ▸ { h with }

/-- The end of a flight keeps the invariant, whatever admitted frames have been sent by then: the
pending command's write checks ask for no flight (42 R146, R148). -/
theorem BlockInv.endFlight (h : BlockInv s) {out : List Frame}
    (ho : ∀ f ∈ out, 1 ≤ f.length ∧ f.length ≤ s.cfg.maxFrame) :
    BlockInv { s with netOut := out, sendBusy := false, raced := [] } := by
  obtain ⟨hopen, -, hsend, hrecv⟩ := h.pending
  exact { h with
    reset := h.reset.imp id fun hr => ⟨rfl, hr.2⟩
    pending := ⟨hopen, fun _ => rfl, fun hc => ⟨(hsend hc).1, rfl⟩, hrecv⟩
    flight := flightOk_idle rfl rfl
    out := ho }

theorem BlockInv.after_abortSend (h : BlockInv s) : BlockInv (abortSend s) := by
  rcases abortSend_cases s with ⟨-, e⟩ | ⟨hb, out, d, ho, e⟩
  · rw [e]
    exact h
  · have hout : ∀ f ∈ out, 1 ≤ f.length ∧ f.length ≤ s.cfg.maxFrame := by
      rcases ho with rfl | ⟨k, rfl⟩
      · exact h.out
      · exact h.out_append hb k
    rw [e]
    exact { h.endFlight hout with }

/-- Once a SEND is ended, nothing is in flight or raced (70 R195, R198). -/
theorem BlockInv.abortSend_idle (h : BlockInv s) :
    (abortSend s).sendBusy = false ∧ (abortSend s).raced = [] := by
  rcases abortSend_cases s with ⟨hb, e⟩ | ⟨-, out, d, -, e⟩
  · rw [e]
    exact ⟨hb, h.flight.2.1 hb⟩
  · exact e ▸ ⟨rfl, rfl⟩

theorem BlockInv.after_assertEffect (h : BlockInv s) : BlockInv (assertEffect s) := by
  unfold assertEffect
  split
  · exact h
  · obtain ⟨hb, hr⟩ := h.abortSend_idle
    exact { h.after_abortSend with
      reset := .inr ⟨hb, rfl, rfl⟩
      openPending := by simp [State.openOk, State.running]
      pending := pendingOk_none rfl
      flight := flightOk_idle hb hr }

theorem BlockInv.after_releaseEffect (h : BlockInv s) : BlockInv (releaseEffect s) := by
  unfold releaseEffect
  split
  · rename_i hp
    have hn : ¬s.running := by simp [State.running, hp]
    exact { h with
      reset := .inr (h.reset.resolve_left hn)
      openPending := h.openPending.trans (and_congr_right fun _ => by simp [State.running, hp]) }
  · exact h

/-- Every operation keeps the invariant of the block. -/
theorem BlockInv.after_effect (h : BlockInv s) (hl : s.live) (i : Instr) : BlockInv (effect i s) := by
  rcases effect_cases i s with ⟨a, e⟩ | ⟨a, v, e⟩ | ⟨r, e⟩ | e | e | e
  · exact e ▸ h.after_readEffect hl a
  · exact e ▸ h.after_writeEffect hl a v
  · exact e ▸ { h with }
  · exact e ▸ { h with }
  · exact e ▸ h.after_assertEffect
  · exact e ▸ h.after_releaseEffect

/-! ### The engine and the network -/

/-- A reset gives every part of the invariant but the bounds on the frames sent and the faults, which
it keeps (10 R60). -/
theorem BlockInv.after_resetItems (h : BlockInv s) (hv : bindingValid s.cfg = true) :
    BlockInv (resetItems s) where
  status := .inl rfl
  mem := ⟨rfl, by simp [resetItems]⟩
  mr := (resetItems_values s).mrRst
  rxBound := fun hc => absurd rfl hc
  reset := .inl (.inl rfl)
  openPending := by simp [State.openOk, resetItems, (status_distinct hv).1]
  pending := pendingOk_none rfl
  flight := flightOk_idle rfl rfl
  out := h.out
  faults := h.faults

/-- The acceptance of a pending command keeps the invariant: what its write checked still holds
(42 R144, R147, R149, R152). -/
theorem BlockInv.after_acceptCmd (h : BlockInv s) (hl : s.live) (hp : s.phase = .ready) {c : Cmd}
    (hc : s.cmdPending = some c) : BlockInv (acceptCmd s c) := by
  have hrun : s.running := .inl hp
  obtain ⟨hci, hcm, him⟩ := status_distinct hl.2.2
  obtain ⟨hopen, hclose, hsend, -⟩ := h.pending
  rcases acceptCmd_cases s c with ⟨f, e⟩ | ⟨rfl, -, t, r, init, e⟩ | ⟨rfl, e⟩ | ⟨rfl, hlen, e⟩ |
    ⟨rfl, hpast, ir, n, -, e⟩
  · exact e ▸ h.after_raise hl.1 f
  · have hb : s.sendBusy = false := h.not_busy (hopen hc ▸ hcm)
    exact e ▸ { h with
      status := by cases init <;> simp [State.statusOk]
      rxBound := fun _ => by simp
      reset := .inl hrun
      openPending := by cases init <;> simp [State.openOk, State.running, hp, him.symm]
      pending := pendingOk_none rfl
      flight := flightOk_idle hb (h.flight.2.1 hb) }
  · have hb := hclose hc
    exact e ▸ { h with
      status := .inl rfl
      rxBound := fun hn => absurd rfl hn
      reset := .inl hrun
      openPending := by simp [State.openOk, hci]
      pending := pendingOk_none rfl
      flight := flightOk_idle hb (h.flight.2.1 hb) }
  · obtain ⟨hsr, -⟩ := hsend hc
    simp only [State.badSendSize, Bool.or_eq_false_iff, beq_eq_false_iff_ne,
      decide_eq_false_iff_not, Nat.not_lt] at hlen
    exact e ▸ { h with
      reset := .inl hrun
      pending := pendingOk_none rfl
      flight := ⟨fun _ => ⟨hsr, rfl, Nat.pos_of_ne_zero hlen.1, hlen.2, by simp⟩, fun _ => rfl, rfl⟩ }
  · simp only [State.recvPast, decide_eq_false_iff_not, Nat.not_lt] at hpast
    have hocc := occ_consume s.rxWr s.rxRdAcc s.rxRd hpast
    exact e ▸ { h with
      rxBound := fun hn => by
        have := h.rxBound hn
        show occ s.rxWr s.rxRd ≤ s.cfg.size
        omega
      reset := .inl hrun
      pending := pendingOk_none rfl }

theorem BlockInv.after_openDone (h : BlockInv s) (hl : s.live) (ho : s.openPending = true) :
    BlockInv (openDone s) := by
  obtain ⟨hsr, hrun⟩ := h.openPending.1 ho
  obtain ⟨hci, -, him⟩ := status_distinct hl.2.2
  have hb : s.sendBusy = false := h.not_busy (hsr ▸ him)
  obtain ⟨hopen, hclose, hsend, -⟩ := h.pending
  exact { h with
    status := .inr (.inr rfl)
    rxBound := fun _ => h.rxBound (hsr ▸ hci.symm)
    reset := .inl hrun
    openPending := by simp [State.openOk, openDone, him.symm]
    pending := ⟨fun hc => absurd ((hopen hc).symm.trans hsr) hci, hclose,
      fun hc => ⟨rfl, (hsend hc).2⟩, fun _ => rfl⟩
    flight := flightOk_idle hb (h.flight.2.1 hb) }

theorem BlockInv.after_sendDone (h : BlockInv s) (hb : s.sendBusy = true) : BlockInv (sendDone s) :=
  { h.endFlight (h.out_append hb s.draws) with flight := flightOk_idle rfl rfl }

/-- Every engine step keeps the invariant of the block. -/
theorem BlockInv.after_engineEffect (h : BlockInv s) (hl : s.live) (e : EngineStep) :
    BlockInv (engineEffect e s) := by
  rcases engineEffect_cases e s with e' | ⟨c, -, hc, hp, e'⟩ | ⟨-, ho, -, e'⟩ | ⟨-, hb, -, e'⟩ |
    ⟨bits, -, -, -, e'⟩ | ⟨-, -, e'⟩ | ⟨-, -, e'⟩
  · exact e'.symm ▸ h
  · exact e' ▸ h.after_acceptCmd hl hp hc
  · exact e' ▸ h.after_openDone hl ho
  · exact e' ▸ h.after_sendDone hb
  · exact e' ▸ { h with }
  · exact e' ▸ h.after_resetItems hl.2.2
  · obtain ⟨-, -, -, hcfg, -⟩ := abortSend_frame s
    exact e' ▸ h.after_abortSend.after_resetItems (hcfg ▸ hl.2.2)

/-- Every offer of the network keeps the invariant: a frame goes into the ring only where it fits
(42 R153, R154). -/
theorem BlockInv.after_offerEffect (h : BlockInv s) (hl : s.live) (f : Frame) :
    BlockInv (offerEffect f s) := by
  have hr := ringFacts hl.2.2
  rcases offerEffect_cases f s with e | ⟨n, e⟩ | ⟨-, -, hlen, -, hfit, n, e⟩
  · exact e.symm ▸ h
  · exact e ▸ { h with }
  · have hocc := occ_advance s.rxWr s.rxRdAcc (hdrLen + f.length)
    have hsize := size_le hr
    simp only [State.rxFree] at hfit
    exact e ▸ { h with
      mem := memOk_ringStore hr .rx s.rxWr _ h.mem
      rxBound := fun _ => by
        show occ (advance s.rxWr (hdrLen + f.length)) s.rxRdAcc ≤ s.cfg.size
        rw [hocc (by omega)]
        omega }

/-! ### The moves of all agents -/

/-- A guarded step keeps the invariant where its effect does. -/
theorem inv_act {f : State → State} (h : s.Inv) (hf : s.live → BlockInv s → BlockInv (f s))
    (ht : act f s = .next t) : t.Inv := by
  rcases act_next ht with ⟨hl, rfl⟩ | ⟨-, -, rfl⟩
  · show (f s).Inv
    exact inv_iff_blockInv.2 (hf hl (inv_iff_blockInv.1 h))
  · exact h

/-- Every move of every agent keeps the invariant (10 R59). -/
theorem inv_kept : Kept State.Inv where
  host i s _ h ht := inv_act h (fun hl hs => hs.after_effect hl i) (exec_eq_act i s ▸ ht)
  engine e _ _ h ht := inv_act h (fun hl hs => hs.after_engineEffect hl e) ht
  network f _ _ h ht := inv_act h (fun hl hs => hs.after_offerEffect hl f) ht
  world _ _ h := h
  bus _ _ h := h
  wrap _ _ _ hf h := inv_iff_blockInv.2 ((inv_iff_blockInv.1 h).after_raise hf _)
  refuse _ h := h
  edges _ _ h := h

/-- Settles O59: every move of every agent keeps the invariant, so every step does. -/
theorem invariantKept : Obligations.InvariantKept :=
  fun _ _ h ht => step_kept inv_kept h ht

/-- Settles O58: every part of the invariant is decided on the fixed state. -/
theorem invariantAtReset : Obligations.InvariantAtReset := by
  unfold Obligations.InvariantAtReset
  decide

end Sys2Proof.Proofs

/-! ### The reset values -/

namespace Sys2Proof.Proofs

open Sys2Proof.Machine Sys2Proof.Laws

/-- The state that a reset completion resets: the settle step finds nothing in flight, the
software-reset completion ends the SEND first (70 R196, R198). -/
def beforeReset (e : EngineStep) (s : State) : State := if e = .resetDone then abortSend s else s

/-- An enabled reset completion sets the items of 10 R60 on the state with the flight ended. -/
theorem engineEffect_reset {e : EngineStep} {s : State}
    (h : (e = .settle ∧ s.phase = .settling) ∨ (e = .resetDone ∧ s.phase = .swReset)) :
    engineEffect e s = resetItems (beforeReset e s) := by
  rcases h with ⟨rfl, hp⟩ | ⟨rfl, hp⟩ <;> simp [engineEffect, beforeReset, hp]

/-- Ending the SEND before a reset leaves the bookkeeping and the host's state (70 R199). -/
theorem beforeReset_frame (e : EngineStep) (s : State) :
    (beforeReset e s).faults = s.faults ∧ (beforeReset e s).refused = s.refused ∧
    (beforeReset e s).netDrop = s.netDrop ∧ (beforeReset e s).cfg = s.cfg ∧
    (beforeReset e s).env = s.env := by
  unfold beforeReset
  split
  · exact abortSend_frame s
  · simp

/-- Only a software reset with a SEND in flight may send a frame, the one in flight, whole
(70 R198). -/
theorem beforeReset_netOut (e : EngineStep) (s : State) :
    (beforeReset e s).netOut = s.netOut ∨
      (e = .resetDone ∧ s.sendBusy = true ∧
        ∃ k, (beforeReset e s).netOut = s.netOut ++ [s.flightFrame k]) := by
  unfold beforeReset
  split
  · exact (abortSend_netOut s).imp id (⟨‹_›, ·⟩)
  · exact .inl rfl

/-- Settles O48: the completion is the reset of 10 R60 on the state whose flight has been ended. -/
theorem resetCompletes : Obligations.ResetCompletes := by
  intro s e hl he
  have hact : engineStep e s = .next (noteEdge s (resetItems (beforeReset e s))) := by
    rw [engineStep, act_live hl, engineEffect_reset he]
  obtain ⟨hphase, hmr, hcmd, hsr, hsok, hrecv, hbusy, hopen, hmf, hraced, hmem⟩ :=
    resetItems_values (beforeReset e s)
  obtain ⟨hfaults, hrefused, hdrop, hcfg, henv⟩ := beforeReset_frame e s
  have hout := beforeReset_netOut e s
  refine ⟨_, hact, hphase, hmr, hcmd, hsr, hsok, hrecv, hbusy, hopen, hmf, hraced, hmem, hfaults,
    hrefused, hdrop, hcfg, henv, ?_, ?_⟩
  · intro hn
    rcases hout with ho | ⟨rfl, hb, -⟩
    · exact ho
    · simp [hb] at hn
  · refine hout.imp id ?_
    rintro ⟨-, -, k, ho⟩
    exact ⟨_, ho, length_flightFrame s k, fun i hi hr => getElem?_flightFrame s k hi hr⟩

/-- Settles O49: each value is read off the fixed state. -/
theorem resetStateValues : Obligations.ResetStateValues := by
  unfold Obligations.ResetStateValues
  decide

end Sys2Proof.Proofs

/-! ### Which steps move a pointer, set a flag or write the engine's state -/

namespace Sys2Proof.Proofs

open Sys2Proof.Machine Sys2Proof.Laws

variable {s : State}

/-- A network step moves RX_WR alone of the ring pointers (10 R45). -/
theorem offerEffect_pointers (f : Frame) (s : State) :
    (offerEffect f s).txRd = s.txRd ∧ (offerEffect f s).txWr = s.txWr ∧
    (offerEffect f s).rxRd = s.rxRd ∧ (offerEffect f s).rxRdAcc = s.rxRdAcc := by
  rcases offerEffect_cases f s with e | ⟨n, e⟩ | ⟨-, -, -, -, -, n, e⟩ <;> rw [e] <;> simp

/-- The acceptance of a command other than OPEN moves rx_rd_acc alone, and only for RECV
(42 R147, R149, R152). -/
theorem acceptCmd_pointers {c : Cmd} (hc : c ≠ .openSock) (s : State) :
    (acceptCmd s c).txWr = s.txWr ∧ (acceptCmd s c).rxRd = s.rxRd ∧ (acceptCmd s c).rxWr = s.rxWr ∧
    (acceptCmd s c).txRd = s.txRd ∧
    ((acceptCmd s c).rxRdAcc = s.rxRdAcc ∨ c = .recv ∧ (acceptCmd s c).rxRdAcc = s.rxRd) := by
  rcases acceptCmd_cases s c with ⟨f, e⟩ | ⟨ho, -⟩ | ⟨-, e⟩ | ⟨-, -, e⟩ | ⟨hr, -, ir, n, -, e⟩
  · rw [e]; simp
  · exact absurd ho hc
  · rw [e]; simp
  · rw [e]; simp
  · rw [e]; simp [hr]

/-- Settles O53, by the cases of an engine step: only SEND completion moves TX_RD, only RECV
acceptance moves rx_rd_acc. -/
theorem enginePointersMove : Obligations.EnginePointersMove := by
  intro s t
  constructor
  · intro f ht
    rcases act_next ht with ⟨-, rfl⟩ | ⟨-, -, rfl⟩
    · exact offerEffect_pointers f s
    · simp
  · intro e hsettle hreset ht hopen
    rcases act_next ht with ⟨-, rfl⟩ | ⟨-, -, rfl⟩
    · rcases engineEffect_cases e s with e' | ⟨c, he, hc, -, e'⟩ | ⟨-, -, -, e'⟩ | ⟨he, -, -, e'⟩ |
        ⟨bits, -, -, -, e'⟩ | ⟨he, -⟩ | ⟨he, -⟩
      · rw [e']; simp
      · have hne : c ≠ .openSock := fun h => hopen ⟨he, h ▸ hc⟩
        obtain ⟨h1, h2, h3, h4, h5⟩ := acceptCmd_pointers hne s
        rw [e']
        exact ⟨h1, h2, h3, .inl h4, h5.imp id fun ⟨hr, h⟩ => ⟨he, hr ▸ hc, h⟩⟩
      · rw [e']; simp [openDone]
      · rw [e']; simp [sendDone, he]
      · rw [e']; simp
      · exact absurd he hsettle
      · exact absurd he hreset
    · simp

theorem len_pos (r : Reg) : 0 < r.len := by cases r <;> decide

/-- Two registers of a valid binding have different first addresses. -/
theorem base_ne {b : Binding} (h : bindingValid b = true) {r r' : Reg} {x x' : Addr} (hr : r ≠ r')
    (hx : r.base b = some x) (hx' : r'.base b = some x') : x ≠ x' := by
  rintro rfl
  have := regs_apart h hr x hx x hx'
  have hlen := len_pos r
  have hlen' := len_pos r'
  simp only [apart, Bool.or_eq_true, decide_eq_true_eq] at this
  omega

/-- S0_IR has one byte, at its own address. -/
theorem locate_s0ir {b : Binding} {a : Addr} {i : Nat} (h : locate b a = some (.reg .s0ir i)) :
    a = b.aS0Ir := by
  rcases locate_some h with ⟨r, j, hl, ho⟩ | ⟨w, hl, -⟩
  · cases hl
    obtain ⟨x, hx, ha, hi⟩ := offset_eq_some.1 ho
    cases hx
    simp only [Reg.len] at hi
    exact BitVec.eq_of_toNat_eq (by omega)
  · cases hl

/-- A write to a register other than S0_IR leaves S0_IR (60 R173). -/
theorem writeReg_s0ir {r : Reg} (hr : r ≠ .s0ir) (s : State) (a : Addr) (v : Byte) (i : Nat) :
    (writeReg s a v r i).s0ir = s.s0ir := by
  cases r
  case s0ir => exact absurd rfl hr
  case s0cr =>
    simp only [writeReg, writeS0Cr]
    repeat' split
    all_goals rfl
  case mr =>
    simp only [writeReg, writeMr]
    split <;> rfl
  all_goals rfl

/-- A bus write leaves S0_IR, or is a W1C of its value at the address of S0_IR (41 R129, 60 R173). -/
theorem writeEffect_s0ir (a : Addr) (v : Byte) (s : State) :
    (writeEffect a v s).s0ir = s.s0ir ∨
      a = s.cfg.aS0Ir ∧ (writeEffect a v s).s0ir = w1cBits s.s0ir v := by
  rcases writeEffect_cases a v s with ⟨f, e⟩ | ⟨-, ⟨r, i, hm, e⟩ | ⟨-, e⟩⟩
  · exact .inl (by rw [e]; rfl)
  · by_cases hr : r = .s0ir
    · subst hr
      exact .inr ⟨locate_s0ir hm, by rw [e]; rfl⟩
    · exact .inl (by rw [e, writeReg_s0ir hr])
  · exact .inl (by rw [e]; rfl)

/-- A read, a mapper word and a reset level leave S0_IR (60 R173). -/
theorem effect_s0ir_of_no_target {i : Instr} (h : writeTarget s.cfg i = none) :
    (effect i s).s0ir = s.s0ir := by
  have hsplit (w : Win) (p : Word) (n : BitVec 16) : (splitEffect w p n s).s0ir = s.s0ir := by
    unfold splitEffect
    split <;> rfl
  cases i
  case rd8 a => rw [effect, readEffect_eq]
  case mapTx => rfl
  case mapRx => rfl
  case splitTx p n => exact hsplit .tx p n
  case splitRx p n => exact hsplit .rx p n
  case rstAssert =>
    simp only [effect, assertEffect]
    split
    · rfl
    · rcases abortSend_cases s with ⟨-, e⟩ | ⟨-, out, d, -, e⟩ <;> rw [e]
  case rstRelease =>
    simp only [effect, releaseEffect]
    split <;> rfl
  all_goals simp [writeTarget] at h

/-- The well-formed operation that writes at the address of S0_IR is W1C (30 R95). -/
theorem eq_w1c_of_target {b : Binding} (hv : bindingValid b = true) {i : Instr} (hw : i.wf b = true)
    (ht : writeTarget b i = some b.aS0Ir) : i = .w1c (writeValue b i) := by
  have hcr : b.aS0Cr ≠ b.aS0Ir := base_ne hv (r := .s0cr) (r' := .s0ir) (by decide) rfl rfl
  have hmr : b.aMr ≠ b.aS0Ir := base_ne hv (r := .mr) (r' := .s0ir) (by decide) rfl rfl
  cases i
  case w1c v => rfl
  case wr8 a v =>
    cases ht
    simp [Instr.wf, plainWrite] at hw
  case swReset v => exact absurd (Option.some.inj ht) hmr
  case openSock => exact absurd (Option.some.inj ht) hcr
  case closeSock => exact absurd (Option.some.inj ht) hcr
  case send => exact absurd (Option.some.inj ht) hcr
  case recv => exact absurd (Option.some.inj ht) hcr
  case cmdIllegal v => exact absurd (Option.some.inj ht) hcr
  all_goals cases ht

/-- A well-formed operation leaves S0_IR or is a W1C (10 R58, 60 R173). -/
theorem effect_s0ir {i : Instr} (hl : s.live) (hw : i.wf s.cfg = true) :
    (effect i s).s0ir = s.s0ir ∨ ∃ v, i = .w1c v ∧ (effect i s).s0ir = w1cBits s.s0ir v := by
  cases ht : writeTarget s.cfg i with
  | none => exact .inl (effect_s0ir_of_no_target ht)
  | some a =>
    rw [effect_write ht]
    refine (writeEffect_s0ir a _ s).imp id ?_
    rintro ⟨rfl, h⟩
    exact ⟨_, eq_w1c_of_target hl.2.2 hw ht, h⟩

/-- Settles O54: a well-formed operation leaves S0_IR or clears the bits that a W1C names. -/
theorem hostNeverSetsFlags : Obligations.HostNeverSetsFlags := by
  intro i s t hw ht j hj
  rcases exec_next ht with ⟨hl, rfl⟩ | ⟨-, -, rfl⟩
  · rw [noteEdge_s0ir]
    rcases effect_s0ir hl hw with h | ⟨v, hi, h⟩
    · rw [h]
      exact ⟨id, fun h0 h1 => by simp [h0] at h1⟩
    · rw [h, getLsbD_w1cBits _ _ hj]
      exact ⟨fun h1 => (Bool.and_eq_true_iff.1 h1).1, fun h0 h1 => ⟨v, hi, by simpa [h1] using h0⟩⟩
  · exact ⟨id, fun h0 h1 => by simp [refuse_s0ir, h1] at h0⟩

/-- Settles O55, by what the engine owns of the state (`ownedByEngine`). -/
theorem hostLeavesEngineState : Obligations.HostLeavesEngineState := by
  intro i s t ht
  rcases exec_next ht with ⟨-, rfl⟩ | ⟨-, -, rfl⟩
  · have h := effect_ownedByEngine i s
    simp only [ownedByEngine, Prod.mk.injEq] at h
    obtain ⟨hcfg, hsr, htx, hrx, hacc, hstart, hend, hmf, hdrop, -, -, -, henv⟩ := h
    exact ⟨hcfg, hsr, htx, hrx, hacc, hstart, hend, hmf, hdrop, henv⟩
  · simp

end Sys2Proof.Proofs

/-! ### The bytes of the ring windows -/

namespace Sys2Proof.Proofs

open Sys2Proof.Machine Sys2Proof.Laws

variable {s t : State} {a : Addr}

/-- A ring byte depends on the memory and on the number of the reset alone (20 R79). -/
theorem ringByte_congr (hm : t.mem = s.mem) (he : t.memEpoch = s.memEpoch) (a : Addr) :
    t.ringByte a = s.ringByte a := by
  simp only [State.ringByte, hm, he]

/-- What a write to a TX window byte leaves in each ring byte (20 R80). -/
theorem ringByte_writeTx (s : State) (a : Addr) (v : Byte) (a' : Addr) :
    (writeTx s a v).ringByte a' = if a' = a then v else s.ringByte a' := by
  simp only [State.ringByte, writeTx]
  split_ifs with h
  · rw [h, read_write_same]
  · rw [read_write_other _ _ fun hn => h (BitVec.eq_of_toNat_eq hn)]

/-- An admitted write to a TX window byte stores it, with no edge of the line (20 R80). -/
theorem exec_wr8_tx (hl : s.live) (ha : s.admitsWrite) (hw : inWindow s.cfg .tx a = true) (v : Byte) :
    exec (.wr8 a v) s = .next (writeTx s a v) := by
  rw [exec_wr8 hl ha (locate_win hl.2.2 hw)]
  exact congrArg _ (noteEdge_frame rfl rfl rfl rfl rfl)

/-- An admitted read of a TX window byte answers M[a] (20 R79). -/
theorem exec_rd8_tx (hl : s.live) (ha : s.admitsWrite) (hw : inWindow s.cfg .tx a = true) :
    exec (.rd8 a) s = .next { s with resp := .byte (s.ringByte a) } :=
  exec_rd8 hl (admitsRead_of ha) (locate_win hl.2.2 hw)

/-- An admitted read of an RX window byte answers M[a] in the occupied region, else a draw
(20 R81). -/
theorem exec_rd8_rx (hl : s.live) (ha : s.admitsWrite) (hw : inWindow s.cfg .rx a = true) :
    exec (.rd8 a) s = .next
      (if s.rxOccupied a then { s with resp := .byte (s.ringByte a) }
       else { s with resp := .byte (Config.freeByte s.draws), draws := s.draws + 1 }) := by
  rw [exec_rd8 hl (admitsRead_of ha) (locate_win hl.2.2 hw)]
  simp only [readLoc, readWin]
  split <;> rfl

/-- A byte of the RX window lies in the occupied region when a position between rx_rd_acc and RX_WR
maps to it (20 R81). -/
theorem rxOccupied_iff (hr : RingFacts s.cfg) (hw : inWindow s.cfg .rx a = true) :
    s.rxOccupied a = true ↔
      ∃ p : Word, occ p s.rxRdAcc < occ s.rxWr s.rxRdAcc ∧ mapAt s.cfg .rx p = a := by
  rw [exists_position_iff hr .rx s.rxRdAcc (occ_lt _ _) hw, State.rxOccupied, decide_eq_true_eq]

/-- Settles O22, by the position test of 20 R81 (`rxOccupied_iff`). -/
theorem windowReads : Obligations.WindowReads := by
  intro s a hl ha
  refine ⟨exec_rd8_tx hl ha, fun hw => ?_⟩
  rw [exec_rd8_rx hl ha hw, ← rxOccupied_iff (ringFacts hl.2.2) hw]
  exact ⟨fun ho => by rw [if_pos ho], fun ho => ⟨_, by rw [if_neg ho]⟩⟩

/-- The position that the race rule computes is the one position of the flight that maps to the
window byte (20 R80, log entry 18). -/
theorem inFlight_eq_some_iff (hr : RingFacts s.cfg) (hf : s.flightOk)
    (hw : inWindow s.cfg .tx a = true) (p : Word) :
    s.inFlight a = some p ↔
      s.sendBusy = true ∧ occ p s.sendStart < occ s.sendEnd s.sendStart ∧ mapAt s.cfg .tx p = a := by
  have hspec := ringIndex_spec hr .tx s.sendStart a hw
  constructor
  · intro h
    obtain ⟨hb, hlt⟩ := inFlight_some h
    simp only [State.inFlight, Option.ite_none_right_eq_some, Option.some.injEq] at h
    obtain ⟨-, rfl⟩ := h
    exact ⟨hb, hlt, (hspec _).2 (Nat.mod_eq_of_lt (ringIndex_lt _ _ _ _))⟩
  · rintro ⟨hb, hlt, hm⟩
    obtain ⟨-, -, -, hle, -⟩ := hf.1 hb
    have hindex : ringIndex s.cfg .tx s.sendStart a = occ p s.sendStart := by
      rw [← (hspec _).1 (eq_add_occ p s.sendStart ▸ hm)]
      exact Nat.mod_eq_of_lt (by omega)
    simp only [State.inFlight, hindex]
    rw [if_pos ⟨hb, hlt⟩, ← eq_add_occ]

/-- A write to a TX window byte races the position of the flight it hits and no other (20 R80). -/
theorem mem_raced_writeTx (s : State) (a : Addr) (v : Byte) (p : Word) :
    p ∈ (writeTx s a v).raced ↔ p ∈ s.raced ∨ s.inFlight a = some p := by
  simp only [writeTx]
  cases s.inFlight a with
  | none => simp
  | some q => rw [mem_insertWord, or_comm, Option.some.injEq, eq_comm]

/-- Settles O23: the write is `writeTx`. -/
theorem txWindowWrite : Obligations.TxWindowWrite := by
  intro s a v hl ha hf hw
  refine ⟨_, exec_wr8_tx hl ha hw v, rfl, ?_, fun a' hne => ?_, fun p => ?_⟩
  · rw [ringByte_writeTx, if_pos rfl]
  · rw [ringByte_writeTx, if_neg hne]
  · rw [mem_raced_writeTx, inFlight_eq_some_iff (ringFacts hl.2.2) hf hw]

/-- RINGWRITE completes: it stores the bytes at their positions and may race some (40 R112). -/
theorem ringWrites_eq (p : Word) (bytes : List Byte) (hl : s.live) (ha : s.admitsWrite) :
    ∃ r, ringWrites p bytes s =
      .next { s with mem := ringStore s.cfg .tx p bytes s.mem, raced := r } := by
  induction bytes generalizing s p with
  | nil => exact ⟨s.raced, rfl⟩
  | cons v vs ih =>
    rw [ringWrites, exec_wr8_tx hl ha (mapAt_inWindow (ringFacts hl.2.2) .tx p)]
    exact ih (s := writeTx s (mapAt s.cfg .tx p) v) (p + 1) hl ha

/-- Settles O10: RINGWRITE is a ring store (`ringWrites_eq`), whose bytes read back. -/
theorem ringWriteReadsBack : Obligations.RingWriteReadsBack := by
  intro s p bytes hl ha hn
  have hr := ringFacts hl.2.2
  obtain ⟨r, hw⟩ := ringWrites_eq p bytes hl ha
  obtain ⟨hstored, hothers⟩ := ringByte_store s hr .tx p bytes hn
  refine ⟨_, hw, rfl, fun i hi => ?_, hothers⟩
  have hread := exec_rd8_tx (s := { s with mem := ringStore s.cfg .tx p bytes s.mem, raced := r })
    hl ha (mapAt_inWindow hr .tx (p + BitVec.ofNat 16 i))
  rw [hread, ← hstored i hi]
  rfl

/-- An operation whose effect is a fault records it and changes nothing else (60 R185). -/
theorem exec_of_raise {i : Instr} {f : FaultRecord} (hl : s.live) (h : effect i s = raise s f) :
    exec i s = .next { s with faults := [f] } := by
  rw [exec_live i hl, h, noteEdge_raise f hl.1]

/-- Nothing is located at an unmapped address (20 R63). -/
theorem locate_of_unmapped {b : Binding} (h : unmapped b a) : locate b a = none := by
  obtain ⟨hreg, htx, hrx⟩ := h
  cases hl : locate b a with
  | none => rfl
  | some l =>
    rcases locate_some hl with ⟨r, i, -, ho⟩ | ⟨w, -, hw⟩
    · obtain ⟨x, hx, hax, hi⟩ := offset_eq_some.1 ho
      exact absurd ⟨by omega, by omega⟩ (hreg r x hx)
    · cases w
      · simp [htx] at hw
      · simp [hrx] at hw

/-- Settles O24, by what the address is located as. -/
theorem unmappedAndRxWriteFaults : Obligations.UnmappedAndRxWriteFaults := by
  intro s a v hl ⟨hb, hp⟩
  refine ⟨fun hu => ⟨exec_of_raise hl ?_, exec_of_raise hl ?_⟩, fun hw => exec_of_raise hl ?_⟩
  · simp [effect, readEffect, hb, hp, locate_of_unmapped hu]
  · simp [effect, writeEffect, hb, hp, locate_of_unmapped hu]
  · rw [effect, writeEffect_ok ⟨hb, hp⟩ (locate_win hl.2.2 hw), writeLoc]

/-- An engine step outside the reset completions leaves ring memory (20 R79). -/
theorem engineEffect_mem {e : EngineStep} (hsettle : e ≠ .settle) (hreset : e ≠ .resetDone) (s : State) :
    (engineEffect e s).mem = s.mem ∧ (engineEffect e s).memEpoch = s.memEpoch := by
  rcases engineEffect_cases e s with h | ⟨c, -, -, -, h⟩ | ⟨-, -, -, h⟩ | ⟨-, -, -, h⟩ |
    ⟨bits, -, -, -, h⟩ | ⟨he, -⟩ | ⟨he, -⟩
  · rw [h]; exact ⟨rfl, rfl⟩
  · rw [h]
    rcases acceptCmd_cases s c with ⟨f, h⟩ | ⟨-, -, t, r, init, h⟩ | ⟨-, h⟩ | ⟨-, -, h⟩ |
      ⟨-, -, ir, n, -, h⟩ <;> rw [h] <;> exact ⟨rfl, rfl⟩
  · rw [h]; exact ⟨rfl, rfl⟩
  · rw [h]; exact ⟨rfl, rfl⟩
  · rw [h]; exact ⟨rfl, rfl⟩
  · exact absurd he hsettle
  · exact absurd he hreset

/-- The windows share no address (00 R7). -/
theorem inWindow_tx_of_rx {b : Binding} (hr : RingFacts b) (h : inWindow b .rx a = true) :
    inWindow b .tx a = false := by
  refine Bool.eq_false_iff.2 fun htx => ?_
  have hd := hr.disjoint
  simp only [inWindow, Bool.and_eq_true, decide_eq_true_eq] at h htx
  simp only [winBase] at h htx
  omega

/-- The position `i` after RX_WR maps to no TX window byte and, while it is free, to no occupied
RX byte (42 R154). -/
theorem mapAt_free_ne (hr : RingFacts s.cfg) {i : Nat} (hi : i < s.rxFree)
    (ha : inWindow s.cfg .tx a = true ∨
      ∃ p : Word, occ p s.rxRdAcc < occ s.rxWr s.rxRdAcc ∧ mapAt s.cfg .rx p = a) :
    mapAt s.cfg .rx (s.rxWr + BitVec.ofNat 16 i) ≠ a := by
  rcases ha with htx | ⟨p, hp, rfl⟩
  · rintro rfl
    simp [inWindow_tx_of_rx hr (mapAt_inWindow hr .rx _)] at htx
  · rw [State.rxFree] at hi
    rw [add_eq_add_occ s.rxWr s.rxRdAcc, eq_add_occ p s.rxRdAcc]
    exact fun h => mapAt_inj hr .rx s.rxRdAcc (i := occ p s.rxRdAcc)
      (j := occ s.rxWr s.rxRdAcc + i) (by omega) (by omega) (congrArg BitVec.toNat h)

/-- A network step leaves each ring byte that no free position maps to (42 R154). -/
theorem offerEffect_ringByte (f : Frame) (s : State)
    (ha : ∀ i < s.rxFree, mapAt s.cfg .rx (s.rxWr + BitVec.ofNat 16 i) ≠ a) :
    (offerEffect f s).ringByte a = s.ringByte a := by
  rcases offerEffect_cases f s with h | ⟨n, h⟩ | ⟨-, -, -, -, hfit, n, h⟩
  · rw [h]
  · rw [h]; exact ringByte_congr rfl rfl a
  · rw [h]
    simp only [State.ringByte]
    rw [read_ringStore_other]
    intro i hi he
    simp only [List.length_cons] at hi
    exact ha i (by simp only [hdrLen] at hfit; omega) (BitVec.eq_of_toNat_eq he)

/-- Settles O41: an engine step stores nothing, and a deposit stores at free positions alone. -/
theorem engineLeavesRingBytes : Obligations.EngineLeavesRingBytes := by
  intro s t a hl hstep ha _
  rcases hstep with ⟨f, ht⟩ | ⟨e, hsettle, hreset, ht⟩
  · rw [networkStep, act_live hl] at ht
    cases ht
    exact offerEffect_ringByte f s fun i hi => mapAt_free_ne (ringFacts hl.2.2) hi ha
  · rw [engineStep, act_live hl] at ht
    cases ht
    obtain ⟨hm, he⟩ := engineEffect_mem hsettle hreset s
    exact ringByte_congr hm he a

end Sys2Proof.Proofs

/-! ### The frames of the operations, and a read repeated at once -/

namespace Sys2Proof.Proofs

open Sys2Proof.Machine Sys2Proof.Laws

variable {s t : State} {a : Addr} {i : Instr}

/-- A step that changes at most these fields makes no edge: the line does not depend on them
(60 R174 to R176). -/
theorem noteEdge_of_frame {r : Response} {d : Nat} {f : List FaultRecord} {x : Bool} {c : Option Cmd}
    (h : t = { s with resp := r, draws := d, faults := f, refused := x, cmdPending := c }) :
    noteEdge s t = t := by
  subst h
  exact noteEdge_frame rfl rfl rfl rfl rfl

/-- A split answers or refuses (40 R104, 30 R96). -/
theorem splitEffect_frame (w : Win) (p : Word) (n : BitVec 16) (s : State) :
    splitEffect w p n s = { s with
      resp := (splitEffect w p n s).resp
      refused := (splitEffect w p n s).refused } := by
  unfold splitEffect
  split <;> rfl

/-- A read and a mapper word change at most the answer, the draw counter and the stop fields
(20 R69, 40 R101 to R104). -/
theorem effect_answer_frame
    (h : (∃ a, i = .rd8 a) ∨ (∃ p, i = .mapTx p ∨ i = .mapRx p) ∨
      ∃ p n, i = .splitTx p n ∨ i = .splitRx p n) (s : State) :
    effect i s = { s with
      resp := (effect i s).resp
      draws := (effect i s).draws
      faults := (effect i s).faults
      refused := (effect i s).refused } := by
  rcases h with ⟨a, rfl⟩ | ⟨p, rfl | rfl⟩ | ⟨p, n, rfl | rfl⟩
  · rw [effect, readEffect_eq]
  · rfl
  · rfl
  · rw [effect, splitEffect_frame]
  · rw [effect, splitEffect_frame]

/-- A write to S0_CR sets the pending command or faults (42 R142). -/
theorem writeS0Cr_frame (s : State) (v : Byte) :
    writeS0Cr s v = { s with
      cmdPending := (writeS0Cr s v).cmdPending
      faults := (writeS0Cr s v).faults } := by
  unfold writeS0Cr
  repeat' split
  all_goals rfl

/-- A bus write at the address of S0_CR changes at most the pending command and the
stop fields (42 R142). -/
theorem effect_command_frame (hv : bindingValid s.cfg = true)
    (h : writeTarget s.cfg i = some s.cfg.aS0Cr) :
    effect i s = { s with
      cmdPending := (effect i s).cmdPending
      faults := (effect i s).faults
      refused := (effect i s).refused } := by
  have hm : locate s.cfg s.cfg.aS0Cr = some (.reg .s0cr 0) := locate_base hv rfl
  rw [effect_write h]
  rcases writeEffect_cases s.cfg.aS0Cr (writeValue s.cfg i) s with
    ⟨f, e⟩ | ⟨-, ⟨r, j, hl, e⟩ | ⟨hl, -⟩⟩
  · rw [e]; rfl
  · cases hm.symm.trans hl
    rw [e, writeReg, writeS0Cr_frame]
  · cases hm.symm.trans hl

/-- A read, a mapper word and a reset level leave ring memory (20 R69, 70 R195). -/
theorem effect_mem_of_no_target (h : writeTarget s.cfg i = none) :
    (effect i s).mem = s.mem ∧ (effect i s).memEpoch = s.memEpoch := by
  cases i
  case rd8 a => rw [effect, readEffect_eq]; exact ⟨rfl, rfl⟩
  case mapTx => exact ⟨rfl, rfl⟩
  case mapRx => exact ⟨rfl, rfl⟩
  case splitTx p n => rw [effect, splitEffect_frame]; exact ⟨rfl, rfl⟩
  case splitRx p n => rw [effect, splitEffect_frame]; exact ⟨rfl, rfl⟩
  case rstAssert =>
    rw [effect, assertEffect]
    split
    · exact ⟨rfl, rfl⟩
    · rcases abortSend_cases s with ⟨-, e⟩ | ⟨-, out, d, -, e⟩ <;> rw [e] <;> exact ⟨rfl, rfl⟩
  case rstRelease =>
    rw [effect, releaseEffect]
    split <;> exact ⟨rfl, rfl⟩
  all_goals cases h

/-- A bus write changes no ring byte but a TX window byte at its own address (20 R80, R82). -/
theorem writeEffect_ringByte (hv : bindingValid s.cfg = true) (a' : Addr) (v : Byte) (a : Addr) :
    (writeEffect a' v s).ringByte a = s.ringByte a ∨ inWindow s.cfg .tx a = true ∧ a' = a := by
  rcases writeEffect_cases a' v s with ⟨f, e⟩ | ⟨-, ⟨r, j, -, e⟩ | ⟨hl, e⟩⟩
  · rw [e]; exact .inl (ringByte_congr rfl rfl a)
  · rw [e]
    rcases writeReg_cases s a' v r j with ⟨f, e⟩ | e | ⟨-, e⟩ | ⟨c, -, -, e⟩ | e |
      ⟨_, _, _, _, _, _, _, _, e⟩ <;> rw [e] <;> exact .inl (ringByte_congr rfl rfl a)
  · rw [e, ringByte_writeTx]
    split
    · subst a
      exact .inr ⟨(locate_win_iff hv).1 hl, rfl⟩
    · exact .inl rfl

/-- No operation changes a ring byte but a write into the TX window at its own address (20 R70). -/
theorem effect_ringByte (hv : bindingValid s.cfg = true) (i : Instr) (a : Addr) :
    (effect i s).ringByte a = s.ringByte a ∨
      inWindow s.cfg .tx a = true ∧ writeTarget s.cfg i = some a := by
  cases ht : writeTarget s.cfg i with
  | none =>
    obtain ⟨hm, he⟩ := effect_mem_of_no_target ht
    exact .inl (ringByte_congr hm he a)
  | some a' =>
    rw [effect_write ht, Option.some.injEq]
    exact writeEffect_ringByte hv a' _ a

/-- What is located at byte `i` of a one-byte register is its own address. -/
theorem eq_base_of_locate {b : Binding} {r : Reg} {x : Addr} {i : Nat} (hx : r.base b = some x)
    (hlen : r.len = 1) (h : locate b a = some (.reg r i)) : a = x := by
  rcases locate_some h with ⟨r', j, hl, ho⟩ | ⟨w, hl, -⟩
  · cases hl
    obtain ⟨x', hx', ha, hi⟩ := offset_eq_some.1 ho
    cases hx.symm.trans hx'
    exact BitVec.eq_of_toNat_eq (by omega)
  · cases hl

/-- A read takes a draw at IR and at an unoccupied RX byte alone (20 R69). -/
theorem readLoc_draws {l : Loc} (hm : locate s.cfg a = some l) (hir : a ≠ s.cfg.aIr)
    (hrx : inWindow s.cfg .rx a = true → s.rxOccupied a = true) : (readLoc s a l).2 = 0 := by
  rcases locate_some hm with ⟨r, j, rfl, -⟩ | ⟨w, rfl, hw⟩
  · cases r
    case ir => exact absurd (eq_base_of_locate rfl rfl hm) hir
    all_goals rfl
  · cases w
    · rfl
    · simp [readLoc, readWin, hrx hw]

/-- A read that records no fault was admitted, at a mapped address (41 R116). -/
theorem admitsRead_of_readEffect (h : (readEffect a s).faults = []) :
    s.admitsRead a ∧ ∃ l, locate s.cfg a = some l := by
  unfold readEffect at h
  split at h
  · simp at h
  · rename_i hbus
    split at h
    · simp at h
    · rename_i hreset
      split at h
      · simp at h
      · rename_i hsw
        split at h
        · simp at h
        · rename_i l hl
          refine ⟨⟨by simpa using hbus, ?_⟩, l, hl⟩
          cases hp : s.phase <;> simp_all

/-- An admitted read that takes no draw, repeated at once, answers the same and changes nothing
(20 R69). -/
theorem exec_rd8_repeat {l : Loc} (hl : s.live) (ha : s.admitsRead a) (hm : locate s.cfg a = some l)
    (h0 : (readLoc s a l).2 = 0) (ht : exec (.rd8 a) s = .next t) : exec (.rd8 a) t = .next t := by
  rw [exec_rd8 hl ha hm, h0] at ht
  cases ht
  rw [exec_rd8 (s := answer s (.byte (readLoc s a l).1) 0) hl ha hm, readLoc_answer, h0]
  rfl

/-- Settles O56, by the frame of each class of operations. -/
theorem operationFrames : Obligations.OperationFrames := by
  intro i s t ht
  rcases exec_next ht with ⟨hl, rfl⟩ | ⟨-, -, rfl⟩
  · refine ⟨fun hi => ?_, fun hi => ?_, fun a => effect_ringByte hl.2.2 i a, ?_⟩
    · have hframe := effect_answer_frame hi s
      rwa [noteEdge_of_frame hframe]
    · have htarget : writeTarget s.cfg i = some s.cfg.aS0Cr := by
        rcases hi with ⟨c, rfl⟩ | ⟨v, rfl⟩
        · cases c <;> rfl
        · rfl
      have hframe := effect_command_frame hl.2.2 htarget
      rwa [noteEdge_of_frame hframe]
    · rintro a rfl hf - hir hrx
      obtain ⟨ha, l, hm⟩ := admitsRead_of_readEffect hf
      exact exec_rd8_repeat hl ha hm (readLoc_draws hm hir hrx) ht
  · exact ⟨fun _ => rfl, fun _ => rfl, fun a => .inl (ringByte_congr rfl rfl a),
      fun a _ _ hr => by simp at hr⟩

end Sys2Proof.Proofs

/-! ### The size registers, and a read word as a step of the machine -/

namespace Sys2Proof.Proofs

open Sys2Proof.Machine Sys2Proof.Laws

variable {s t : State} {a x : Addr} {l : Loc} {r : Reg} {v : Word}

/-- The low byte of a 16-bit register is at the address after its own (20 R61). -/
theorem locate_low {b : Binding} (hv : bindingValid b = true) (hx : r.base b = some x)
    (hlen : r.len = 2) : locate b (x + 1) = some (.reg r 1) :=
  locate_offset hv hx (i := 1) (by omega)

/-- An admitted read of the two bytes of a 16-bit register answers its value, big-endian
(20 R61, 41 R116). -/
theorem exec_rd8_word (hl : s.live) (ha : s.admitsWrite) (hx : r.base s.cfg = some x)
    (hlen : r.len = 2) (hv : ∀ i, readReg s r i = (byteOf v i, 0)) :
    exec (.rd8 x) s = .next { s with resp := .byte (v.extractLsb' 8 8) } ∧
    exec (.rd8 (x + 1)) s = .next { s with resp := .byte (v.extractLsb' 0 8) } := by
  rw [exec_rd8 hl (admitsRead_of ha) (locate_base hl.2.2 hx),
    exec_rd8 hl (admitsRead_of ha) (locate_low hl.2.2 hx hlen)]
  simp only [readLoc, hv]
  exact ⟨rfl, rfl⟩

/-- TX_FSR reads SIZE minus the occupancy while that is at most SIZE (40 R107). -/
theorem txFsrValue_toNat (hr : RingFacts s.cfg) (h : occ s.txWr s.txRd ≤ s.cfg.size) :
    (txFsrValue s).toNat = s.cfg.size - occ s.txWr s.txRd := by
  have hsize := size_le hr
  rw [txFsrValue, State.txFree, if_pos h, Option.getD_some, BitVec.toNat_ofNat]
  exact Nat.mod_eq_of_lt (by omega)

/-- RX_RSR counts from rx_rd_acc or from RX_RD (40 R108). -/
theorem rxRsrValue_eq (s : State) :
    ∃ p : Word, (p = s.rxRdAcc ∨ p = s.rxRd) ∧ rxRsrValue s = s.rxWr - p := by
  unfold rxRsrValue
  split
  · exact ⟨_, .inl rfl, rfl⟩
  · split
    · exact ⟨_, .inl rfl, rfl⟩
    · exact ⟨_, .inr rfl, rfl⟩

/-- What a read answers depends on the block and the number of the read alone (20 R69, log
entry 37). -/
theorem readLoc_congr (hb : t.block = s.block) (hn : t.env.readNo = s.env.readNo) (a : Addr) (l : Loc) :
    readLoc t a l = readLoc s a l := by
  have ht : t = { s with resp := t.resp, busFails := t.busFails, env := t.env } :=
    congrArg (fun u : State => { u with resp := t.resp, busFails := t.busFails, env := t.env }) hb
  cases l with
  | reg r i =>
    cases r
    case txFsr => simp only [readLoc, readReg, txFsrValue, hn, hb, State.txFree]; rw [ht]
    case rxRsr => simp only [readLoc, readReg, rxRsrValue, hn, hb]; rw [ht]
    all_goals rw [ht]; rfl
  | win w => cases w <;> rw [ht] <;> rfl

@[simp] theorem block_withEnv (s : State) (e : Env) : (s.withEnv e).block = s.block := rfl

@[simp] theorem block_drawBus (s : State) : (drawBus s).block = s.block := rfl

@[simp] theorem block_busStep (write : Bool) (a : Addr) (n : Nat) (s : State) :
    (busStep write a n s).block = s.block := block_withEnv s _

/-- An answer that took no draw leaves the block as the open values see it (log entry 37). -/
@[simp] theorem block_answer (s : State) (r : Response) : (answer s r 0).block = s.block := rfl

/-- `s` with the transactions in progress and the lock taken off the bus, as placing a word leaves
the host (log entry 14). -/
def busCleared (s : State) : State :=
  s.withEnv
    { s.env with
      app := { s.env.app with xfer := [] }
      worker := { s.env.worker with xfer := [] }
      lock := none }

/-- A placed word runs in the very next step (30 R95, log entry 14). -/
theorem step_withWord (hl : s.live) (w : RawWord) :
    step (s.withWord w) = signal (busCleared s) (runWord w (wordStep w (busCleared s))) := by
  have hmove : nextMove (s.withWord w) = runWord w (wordStep w (busCleared s)) := by
    cases w <;> rfl
  rw [step, gate_live (s := s.withWord w) hl, hmove]
  cases runWord w (wordStep w (busCleared s)) <;> rfl

/-- A step that leaves the edge count signals nothing. -/
theorem signal_no_edge (h : t.intEdges = s.intEdges) : signal s (.next t) = .next t := by
  rw [signal, onEdge, if_neg (by omega)]

/-- The state in which a placed read word of the byte at `a` is put to the block. -/
def readPut (a : Addr) (s : State) : State := drawBus (busStep false a 1 (busCleared s))

/-- With no transport failure listed, the read word does not fail (20 R85). -/
theorem readPut_busFails (hb : s.env.busFaults = []) : (readPut a s).busFails = false :=
  congrArg (List.headD · false) hb

@[simp] theorem block_readPut (a : Addr) (s : State) : (readPut a s).block = s.block := by
  simp [readPut, busCleared]

@[simp] theorem readPut_cfg (a : Addr) (s : State) : (readPut a s).cfg = s.cfg := rfl
@[simp] theorem readPut_phase (a : Addr) (s : State) : (readPut a s).phase = s.phase := rfl
@[simp] theorem readPut_faults (a : Addr) (s : State) : (readPut a s).faults = s.faults := rfl
@[simp] theorem readPut_refused (a : Addr) (s : State) : (readPut a s).refused = s.refused := rfl
@[simp] theorem readPut_busFaults (a : Addr) (s : State) :
    (readPut a s).env.busFaults = s.env.busFaults.tail := rfl

/-- A read of the byte that the step before it read keeps the number of that read (20 R69). -/
theorem readNo_readPut_again (a : Addr) (s : State) (r : Response) :
    (readPut a (answer (readPut a s) r 0)).env.readNo = (readPut a s).env.readNo := if_pos rfl

/-- A placed read word answers the byte at its address in one step, with no edge (20 R69). -/
theorem step_read (hl : s.live) (hp : s.phase = .ready) (hb : s.env.busFaults = [])
    (hm : locate s.cfg a = some l) :
    step (s.withWord (.tw (twWord false a 0))) =
      .next (answer (readPut a s) (.byte (readLoc (readPut a s) a l).1)
        (readLoc (readPut a s) a l).2) := by
  have hput : wordStep (.tw (twWord false a 0)) (busCleared s) = busStep false a 1 (busCleared s) := by
    simp [wordStep]
  have hrun : runWord (.tw (twWord false a 0)) (busStep false a 1 (busCleared s)) =
      exec (.rd8 a) (readPut a s) := by rw [runWord, decode_read]; rfl
  have hexec := exec_rd8 (s := readPut a s) (by simpa [State.live] using hl)
    ⟨readPut_busFails hb, .inl (by simpa using hp)⟩ (by simpa using hm)
  rw [step_withWord hl, hput, hrun, hexec]
  exact signal_no_edge rfl

/-- A read word that takes no draw, placed again at once, answers the same (20 R69, log entry 37). -/
theorem step_read_repeat (hl : s.live) (hp : s.phase = .ready) (hb : s.env.busFaults = [])
    (hm : locate s.cfg a = some l) (h0 : (readLoc (readPut a s) a l).2 = 0) :
    ∃ t u, step (s.withWord (.tw (twWord false a 0))) = .next t ∧
      step (t.withWord (.tw (twWord false a 0))) = .next u ∧ u.resp = t.resp := by
  have hfirst := step_read hl hp hb hm
  rw [h0] at hfirst
  have hagain : readLoc (readPut a (answer (readPut a s) (.byte (readLoc (readPut a s) a l).1) 0)) a l =
      readLoc (readPut a s) a l :=
    readLoc_congr (by simp) (readNo_readPut_again a s _) a l
  have hsecond := step_read (s := answer (readPut a s) (.byte (readLoc (readPut a s) a l).1) 0)
    (by simpa [State.live] using hl) (by simpa using hp) (by simp [hb]) (by simpa using hm)
  exact ⟨_, _, hfirst, hsecond, by rw [answer_resp, answer_resp, hagain]⟩

/-- Settles O16: the two registers read as values of 40 R107 and R108, and a repeated read keeps its
number (`step_read_repeat`). -/
theorem sizeRegistersRead : Obligations.SizeRegistersRead := by
  intro s hl ha
  have hfsr := exec_rd8_word (r := .txFsr) (v := txFsrValue s) hl ha rfl rfl fun _ => rfl
  have hrsr := exec_rd8_word (r := .rxRsr) (v := rxRsrValue s) hl ha rfl rfl fun _ => rfl
  refine ⟨⟨_, txFsrValue_toNat (ringFacts hl.2.2), hfsr⟩, fun heq => ?_, fun _ => ?_, fun hb a hmem => ?_⟩
  · rwa [rxRsrValue, if_pos heq] at hrsr
  · obtain ⟨p, hp, hval⟩ := rxRsrValue_eq s
    exact ⟨p, hp, hval ▸ hrsr⟩
  · simp only [List.mem_cons, List.not_mem_nil, or_false] at hmem
    rcases hmem with rfl | rfl | rfl | rfl
    · exact step_read_repeat hl ha.2 hb (locate_base hl.2.2 (r := .txFsr) rfl) rfl
    · exact step_read_repeat hl ha.2 hb (locate_low hl.2.2 (r := .txFsr) rfl rfl) rfl
    · exact step_read_repeat hl ha.2 hb (locate_base hl.2.2 (r := .rxRsr) rfl) rfl
    · exact step_read_repeat hl ha.2 hb (locate_low hl.2.2 (r := .rxRsr) rfl rfl) rfl

end Sys2Proof.Proofs

/-! ### The bytes of an n-byte transaction -/

namespace Sys2Proof.Proofs

open Sys2Proof.Machine Sys2Proof.Laws

variable {s t : State} {c : Ctx} {a x : Addr} {r : Reg} {w : BitVec 25} {v : Word}

@[simp] theorem length_blockWords (write : Bool) (a : Addr) (data : List Byte) :
    (blockWords write a data).length = data.length := by
  induction data generalizing a with
  | nil => rfl
  | cons v vs ih => simp [blockWords, ih]

/-- Word `k` of a transaction is that of the address `k` after the first (20 R67). -/
theorem getElem?_blockWords (write : Bool) (a : Addr) (data : List Byte) (k : Nat)
    (h : k < data.length) :
    (blockWords write a data)[k]? = some (twWord write (a + BitVec.ofNat 16 k) data[k]) := by
  induction data generalizing a k with
  | nil => simp at h
  | cons v vs ih =>
    cases k with
    | zero => simp [blockWords]
    | succ k =>
      have haddr : a + 1 + BitVec.ofNat 16 k = a + BitVec.ofNat 16 (k + 1) := by
        rw [BitVec.ofNat_add, BitVec.add_comm (BitVec.ofNat 16 k), ← BitVec.add_assoc]; rfl
      simp only [blockWords, List.getElem?_cons_succ, List.getElem_cons_succ, ← haddr]
      exact ih (a + 1) k (by simpa using h)

/-- Keeping a read byte changes the host's read data alone. -/
theorem keepRead_frame (c : Ctx) (w : BitVec 25) (t : State) :
    keepRead c w t = { t with env := (keepRead c w t).env } ∧
    ((keepRead c w t).thread c).xfer = (t.thread c).xfer ∧
    (keepRead c w t).thread c.other = t.thread c.other ∧
    (keepRead c w t).env.readNo = t.env.readNo := by
  unfold keepRead
  split
  · cases c <;> exact ⟨rfl, rfl, rfl, rfl⟩
  · exact ⟨rfl, rfl, rfl, rfl⟩

/-- A byte of a transaction is the operation its word decodes to, with the transport's draw taken
(20 R67, R85). -/
theorem blockByte_of_decode {i : Instr} (hd : decode s.cfg (.tw w) = .ok i)
    (ht : exec i (drawBus s) = .next t) : blockByte c w s = .next (keepRead c w t) := by
  simp only [blockByte, runWord, hd, presented, ht]

/-- An n-byte transaction that does not wrap begins with its first word when WIDE_ATOMIC is not set
(20 R67, R68). -/
theorem beginBlock_bytewise (c : Ctx) (write : Bool) (v : Byte) (vs : List Byte)
    (h : a.toNat + vs.length ≤ 0xFFFF) (hwide : s.cfg.wideAtomic = false) :
    beginBlock c write a (v :: vs) s = blockByte c (twWord write a v)
      (busStep write a 1 (s.withThread c { s.thread c with xfer := blockWords write (a + 1) vs })) := by
  rw [beginBlock, if_neg (by simp only [List.length_cons]; omega), if_neg (by simp [hwide]), blockWords]

/-- With WIDE_ATOMIC an n-byte transaction that does not wrap is one step (20 R68). -/
theorem beginBlock_atomic (c : Ctx) (write : Bool) (data : List Byte)
    (h : a.toNat + data.length ≤ 65536) (hwide : s.cfg.wideAtomic = true) :
    beginBlock c write a data s =
      atomically s (blockBytes c (blockWords write a data) (busStep write a data.length s)) := by
  rw [beginBlock, if_neg (by omega), if_pos hwide]

/-- A context whose transaction waits takes its next word when the bus is free (20 R68). -/
theorem hostTurn_xfer {ws : List (BitVec 25)} (hx : (s.thread c).xfer = w :: ws)
    (hf : busFree s c = true) :
    hostTurn c s = blockByte c w
      (busStep (twWrite w) (twAddr w) 1 (s.withThread c { s.thread c with xfer := ws })) := by
  have hmove : canMove s c = true := by simp only [canMove, hx, hf]
  rw [hostTurn, if_neg (by simp [hmove])]
  simp only [hx]

/-- Settles O27, clause by clause from the equations of a transaction. -/
theorem blockAddresses : Obligations.BlockAddresses := by
  refine ⟨fun s c write a data hl hwrap => ?_, fun write a data k hk => ?_,
    fun s c write a v vs hfit hwide => beginBlock_bytewise c write v vs hfit hwide,
    fun s c w ws hx hf => hostTurn_xfer hx hf, fun s c w i t hd ht => ?_⟩
  · rw [beginBlock, if_pos (by omega), raise, hl.1]
    rfl
  · exact ⟨length_blockWords write a data, getElem?_blockWords write a data k hk⟩
  · obtain ⟨henv, hxfer, hother, -⟩ := keepRead_frame c w t
    exact ⟨_, blockByte_of_decode hd ht, henv, hxfer, hother⟩

end Sys2Proof.Proofs

/-! ### Two-byte accesses, in one step and byte by byte -/

namespace Sys2Proof.Proofs

open Sys2Proof.Machine Sys2Proof.Laws

variable {s t : State} {c : Ctx} {a x : Addr} {r : Reg} {i : Nat} {w : BitVec 25} {v : Word}

/-- No operation changes the host's own state (10 R55). -/
theorem exec_env {i : Instr} (h : exec i s = .next t) : t.env = s.env := by
  rcases exec_next h with ⟨-, rfl⟩ | ⟨-, -, rfl⟩
  · have howned := effect_ownedByEngine i s
    simp only [ownedByEngine, Prod.mk.injEq] at howned
    obtain ⟨-, -, -, -, -, -, -, -, -, -, -, -, henv⟩ := howned
    exact henv
  · rfl

/-- An engine step leaves the host's own state. -/
theorem engineEffect_env (e : EngineStep) (s : State) : (engineEffect e s).env = s.env := by
  rcases engineEffect_cases e s with h | ⟨c, -, -, -, h⟩ | ⟨-, -, -, h⟩ | ⟨-, -, -, h⟩ |
    ⟨bits, -, -, -, h⟩ | ⟨-, -, h⟩ | ⟨-, -, h⟩
  · rw [h]
  · rw [h]
    rcases acceptCmd_cases s c with ⟨f, h⟩ | ⟨-, -, t, r, init, h⟩ | ⟨-, h⟩ | ⟨-, -, h⟩ |
      ⟨-, -, ir, n, -, h⟩ <;> simp [h]
  · rw [h]; rfl
  · rw [h]; rfl
  · rw [h]
  · rw [h]; rfl
  · obtain ⟨-, -, -, -, henv⟩ := abortSend_frame s
    rw [h]
    exact henv

/-- A network step leaves the host's own state. -/
theorem offerEffect_env (f : Frame) (s : State) : (offerEffect f s).env = s.env := by
  rcases offerEffect_cases f s with h | ⟨n, h⟩ | ⟨-, -, -, -, -, n, h⟩ <;> rw [h]

/-- A guarded step whose effect leaves the host's own state leaves it. -/
theorem act_env {f : State → State} (hf : (f s).env = s.env) (h : act f s = .next t) :
    t.env = s.env := by
  rcases act_next h with ⟨-, rfl⟩ | ⟨-, -, rfl⟩
  · exact hf
  · rfl

/-- A byte of a transaction keeps the number of the read (log entry 37). -/
theorem blockByte_readNo (h : blockByte c w s = .next t) : t.env.readNo = s.env.readNo := by
  unfold blockByte at h
  split at h
  · rename_i u hu
    cases h
    obtain ⟨-, -, -, hno⟩ := keepRead_frame c w u
    rw [hno]
    unfold runWord at hu
    split at hu
    · rw [exec_env hu]; rfl
    · cases hu; rfl
  · cases h
  · cases h

/-- One register byte of a transaction, of a register whose read takes no draw: it is returned to the
context that asked for it, and nothing changes but the answer, the report and the host's own state
(20 R67, R69). -/
theorem blockByte_read_reg (c : Ctx) (hl : s.live) (hp : s.phase = .ready) (hb : s.env.busFaults = [])
    (hm : locate s.cfg a = some (.reg r i)) (h0 : (readReg s r i).2 = 0) :
    ∃ t, blockByte c (twWord false a 0) s = .next t ∧
      t = { s with resp := t.resp, busFails := false, env := t.env } ∧
      t.env.busFaults = [] ∧ t.env.readNo = s.env.readNo ∧
      t.thread c = { s.thread c with rdata := (s.thread c).rdata ++ [(readReg s r i).1] } := by
  obtain ⟨t, ht, hframe, hbus, hthread⟩ := blockByte_read c hl hp hb hm
  refine ⟨t, ht, ?_, hbus, blockByte_readNo ht, hthread⟩
  have hdraws : s.draws + (readLoc s a (.reg r i)).2 = s.draws := congrArg (s.draws + ·) h0
  rw [hdraws] at hframe
  rw [hframe]

@[simp] theorem thread_busStep (write : Bool) (a : Addr) (n : Nat) (s : State) (c : Ctx) :
    (busStep write a n s).thread c = s.thread c := by
  cases c <;> rfl

/-! #### Byte by byte -/

/-- The state in which the read byte at `a` of a transaction is put on the bus, with `ws` still to
come. -/
def bytePut (c : Ctx) (a : Addr) (ws : List (BitVec 25)) (s : State) : State :=
  busStep false a 1 (s.withThread c { s.thread c with xfer := ws })

theorem bytePut_eq (c : Ctx) (a : Addr) (ws : List (BitVec 25)) (s : State) :
    bytePut c a ws s = { s with env := (bytePut c a ws s).env } := by
  cases c <;> rfl

theorem bytePut_busFaults (c : Ctx) (a : Addr) (ws : List (BitVec 25)) (s : State) :
    (bytePut c a ws s).env.busFaults = s.env.busFaults := by
  cases c <;> rfl

theorem bytePut_readNo (c : Ctx) (a : Addr) (ws : List (BitVec 25)) (s : State) :
    (bytePut c a ws s).env.readNo = (busStep false a 1 s).env.readNo := by
  cases c <;> rfl

theorem bytePut_thread (c : Ctx) (a : Addr) (ws : List (BitVec 25)) (s : State) :
    (bytePut c a ws s).thread c = { s.thread c with xfer := ws } := by
  rw [bytePut, thread_busStep, thread_withThread]

/-- A byte of a transaction without WIDE_ATOMIC returns what the register shows at its own step and
leaves the later words waiting (20 R68, 41 R139). -/
theorem blockByte_bytePut (c : Ctx) (hl : s.live) (hp : s.phase = .ready) (hb : s.env.busFaults = [])
    (hm : locate s.cfg a = some (.reg r i)) (h0 : ∀ u : State, (readReg u r i).2 = 0)
    (ws : List (BitVec 25)) :
    ∃ t, blockByte c (twWord false a 0) (bytePut c a ws s) = .next t ∧
      t = { s with resp := t.resp, busFails := false, env := t.env } ∧
      (t.thread c).rdata = (s.thread c).rdata ++ [(readReg (busStep false a 1 s) r i).1] ∧
      (t.thread c).xfer = ws := by
  have hput := bytePut_eq c a ws s
  have hread : readReg (bytePut c a ws s) r i = readReg (busStep false a 1 s) r i :=
    readLoc_congr (by rw [hput]; rfl) (bytePut_readNo c a ws s) a (.reg r i)
  obtain ⟨t, ht, hframe, -, -, hthread⟩ := blockByte_read_reg c (s := bytePut c a ws s)
    (by rw [hput]; exact hl) (by rw [hput]; exact hp) (by rw [bytePut_busFaults, hb])
    (by rw [hput]; exact hm) (h0 _)
  rw [hread, bytePut_thread] at hthread
  rw [hput] at hframe
  exact ⟨t, ht, hframe, by rw [hthread], by rw [hthread]⟩

/-! #### In one step -/

/-- The bytes of an atomic transaction go on after one that does not stop the run (20 R68). -/
theorem blockBytes_cons {ws : List (BitVec 25)} (h : blockByte c w s = .next t) (hf : t.faults = [])
    (hr : t.refused = false) : blockBytes c (w :: ws) s = blockBytes c ws t := by
  simp only [blockBytes, h]
  rw [if_pos ⟨hf, hr⟩]

/-- A fault on a byte of an atomic transaction ends it (41 R140, 60 R185). -/
theorem blockBytes_fault {ws : List (BitVec 25)} (h : blockByte c w s = .next t) (hf : t.faults ≠ []) :
    blockBytes c (w :: ws) s = .next t := by
  simp only [blockBytes, h]
  rw [if_neg fun hn => hf hn.1]

/-- An atomic transaction that leaves what the line depends on makes no edge (60 R177). -/
theorem atomically_of_frame {y : Word} {p : Response} {b : Bool} {e : Env}
    (h : t = { s with txWr := y, resp := p, busFails := b, env := e }) :
    atomically s (.next t) = .next t := by
  subst h
  exact congrArg _ (noteEdge_frame rfl rfl rfl rfl rfl)

/-- A two-byte register ends inside the address space, so its transaction does not wrap. -/
theorem word_no_wrap (hv : bindingValid s.cfg = true) (hx : r.base s.cfg = some x) (hlen : r.len = 2) :
    x.toNat + 2 ≤ 65536 := hlen ▸ reg_fits hv hx

/-- An atomic two-byte read of a 16-bit register returns both bytes of the value it shows at that
read (20 R68, 41 R139). -/
theorem beginBlock_read_word (c : Ctx) (hl : s.live) (hp : s.phase = .ready)
    (hwide : s.cfg.wideAtomic = true) (hb : s.env.busFaults = []) (hx : r.base s.cfg = some x)
    (hlen : r.len = 2) (hv : ∀ i, readReg (busStep false x 2 s) r i = (byteOf v i, 0)) :
    ∃ t, beginBlock c false x [0, 0] s = .next t ∧
      t = { s with resp := t.resp, busFails := false, env := t.env } ∧
      (t.thread c).rdata = (s.thread c).rdata ++ [v.extractLsb' 8 8, v.extractLsb' 0 8] := by
  have hlow := locate_low hl.2.2 hx hlen
  obtain ⟨t, ht, hframe, hbus, hno, hthread⟩ := blockByte_read_reg c (s := busStep false x 2 s) (a := x)
    (r := r) (i := 0) hl hp hb (locate_base hl.2.2 hx) (by rw [hv])
  have hread : readReg t r 1 = readReg (busStep false x 2 s) r 1 :=
    readLoc_congr (by rw [hframe]; rfl) hno x (.reg r 1)
  obtain ⟨u, hu, hframe', -, -, hthread'⟩ := blockByte_read_reg c (s := t) (a := x + 1) (r := r) (i := 1)
    (by rw [hframe]; exact hl) (by rw [hframe]; exact hp) hbus (by rw [hframe]; exact hlow)
    (by rw [hread, hv])
  have hs : u = { s with resp := u.resp, busFails := false, env := u.env } := by
    rw [hframe', hframe]; rfl
  refine ⟨u, ?_, hs, ?_⟩
  · rw [beginBlock_atomic c false [0, 0] (word_no_wrap hl.2.2 hx hlen) hwide]
    have hbytes : blockBytes c (blockWords false x [0, 0]) (busStep false x 2 s) = .next u := by
      rw [blockWords, blockWords, blockWords, blockBytes_cons ht (by rw [hframe]; exact hl.1)
        (by rw [hframe]; exact hl.2.1), blockBytes_cons hu (by rw [hs]; exact hl.1)
        (by rw [hs]; exact hl.2.1), blockBytes]
    exact (congrArg (atomically s) hbytes).trans (atomically_of_frame hs)
  · rw [hthread', hthread, hread, hv, hv, thread_busStep, List.append_assoc]
    rfl

@[simp] theorem hi8_be16 (h l : Byte) : hi8 (be16 h l) = h := by
  apply BitVec.eq_of_getLsbD_eq
  intro i hi
  simp only [hi8, be16, BitVec.getLsbD_extractLsb', BitVec.getLsbD_append]
  simp [hi]

/-- The two bytes of a word written to a 16-bit register, high byte first, make the word (20 R61). -/
theorem setByteOf_both (y x : Word) : setByteOf (setByteOf y 0 (hi8 x)) 1 (lo8 x) = x := by
  simp only [setByteOf, if_true, hi8_be16, Nat.one_ne_zero, if_false, be16_parts]

/-- Addresses at which different things are located differ. -/
theorem ne_of_locate {b : Binding} {l l' : Loc} (hl : locate b a = some l) (hl' : locate b x = some l')
    (hne : l ≠ l') : a ≠ x := by
  rintro rfl
  exact hne (Option.some.inj (hl.symm.trans hl'))

/-- A write word at a byte of TX_WR decodes to WR8 (30 R95 case 8). -/
theorem decode_write_txWr {b : Binding} (hv : bindingValid b = true)
    (hm : locate b a = some (.reg .txWr i)) (y : Byte) :
    decode b (.tw (twWord true a y)) = .ok (.wr8 a y) := by
  have hcr := ne_of_locate hm (locate_base hv (r := .s0cr) rfl) (by simp)
  have hmr := ne_of_locate hm (locate_base hv (r := .mr) rfl) (by simp)
  have hir := ne_of_locate hm (locate_base hv (r := .s0ir) rfl) (by simp)
  simp [decode, decodeTw, hcr, hmr, hir]

/-- One byte of a transaction that writes TX_WR stores it, the other byte kept (41 R117, R134). -/
theorem blockByte_write_txWr (c : Ctx) (hl : s.live) (hp : s.phase = .ready)
    (hb : s.env.busFaults = []) (hm : locate s.cfg a = some (.reg .txWr i)) (y : Byte) :
    blockByte c (twWord true a y) s =
      .next { s with txWr := setByteOf s.txWr i y, busFails := false } := by
  have hexec : exec (.wr8 a y) (drawBus s) =
      .next { s with txWr := setByteOf s.txWr i y, busFails := false } := by
    rw [drawBus_none hb, exec_wr8 (s := { s with busFails := false }) hl ⟨rfl, hp⟩ hm]
    exact congrArg _ (noteEdge_frame rfl rfl rfl rfl rfl)
  rw [blockByte_of_decode (decode_write_txWr hl.2.2 hm y) hexec, keepRead, if_neg (by simp)]

/-- An atomic two-byte write of TX_WR stores the word in one step (20 R68, 41 R140). -/
theorem beginBlock_write_txWr (c : Ctx) (hl : s.live) (hp : s.phase = .ready)
    (hwide : s.cfg.wideAtomic = true) (hb : s.env.busFaults = []) (x : Word) :
    ∃ t, beginBlock c true s.cfg.aTxWr [hi8 x, lo8 x] s = .next t ∧
      t = { s with txWr := x, busFails := false, env := t.env } := by
  have hhigh : locate s.cfg s.cfg.aTxWr = some (.reg .txWr 0) := locate_base hl.2.2 rfl
  have hlow := locate_low hl.2.2 (r := .txWr) rfl rfl
  let u := busStep true s.cfg.aTxWr 2 s
  have hbytes : blockBytes c (blockWords true s.cfg.aTxWr [hi8 x, lo8 x]) u =
      .next { u with txWr := x, busFails := false } := by
    rw [blockWords, blockWords, blockWords,
      blockBytes_cons (blockByte_write_txWr c (s := u) hl hp hb hhigh _) hl.1 hl.2.1,
      blockBytes_cons (blockByte_write_txWr c (s := { u with
        txWr := setByteOf u.txWr 0 (hi8 x), busFails := false }) hl hp hb hlow _) hl.1 hl.2.1,
      blockBytes, setByteOf_both]
  refine ⟨{ u with txWr := x, busFails := false }, ?_, rfl⟩
  rw [beginBlock_atomic c true _ (word_no_wrap hl.2.2 (r := .txWr) rfl rfl) hwide]
  exact (congrArg (atomically s) hbytes).trans (atomically_of_frame rfl)

/-- Settles O28: the write is that of TX_WR, and each read returns the value of its register as the
one read of the step shows it. -/
theorem atomicWordAccess : Obligations.AtomicWordAccess := by
  intro s c x hl hp hwide hb
  refine ⟨beginBlock_write_txWr c hl hp hwide hb x,
    beginBlock_read_word c hl hp hwide hb (r := .txWr) rfl rfl fun _ => rfl, ?_, ?_⟩
  · obtain ⟨t, ht, hframe, hdata⟩ := beginBlock_read_word c hl hp hwide hb (r := .txFsr)
      (v := txFsrValue (busStep false s.cfg.aTxFsr 2 s)) rfl rfl fun _ => rfl
    exact ⟨t, _, ht, hframe, hdata,
      txFsrValue_toNat (s := busStep false s.cfg.aTxFsr 2 s) (ringFacts hl.2.2)⟩
  · obtain ⟨t, ht, hframe, hdata⟩ := beginBlock_read_word c hl hp hwide hb (r := .rxRsr)
      (v := rxRsrValue (busStep false s.cfg.aRxRsr 2 s)) rfl rfl fun _ => rfl
    obtain ⟨p, hpt, hval⟩ := rxRsrValue_eq (busStep false s.cfg.aRxRsr 2 s)
    refine ⟨t, _, ht, hframe, hdata, ?_⟩
    rw [hval]
    exact hpt.imp (congrArg (s.rxWr - ·)) (congrArg (s.rxWr - ·))

/-- While a transaction of a context is in progress the other puts no byte on the bus and takes no
lock (20 R68, 43 R161). -/
theorem busFree_other (h : (s.thread c).xfer ≠ []) : busFree s c.other = false := by
  have hback : c.other.other = c := by cases c <;> rfl
  simp [busFree, hback, h]

/-- A context whose next item needs the bus waits while the bus is not free. -/
theorem hostTurn_waits (hf : busFree s c = false)
    (h : (s.thread c).xfer ≠ [] ∨ ∃ op rest, (s.thread c).prog = op :: rest ∧
      opReady s c op = busFree s c) : hostTurn c s = .next s := by
  have hmove : canMove s c = false := by
    unfold canMove
    split
    · exact hf
    · rename_i hx hprog
      rcases h with h | ⟨op', rest', hprog', hready⟩
      · exact absurd hx h
      · cases hprog.symm.trans hprog'
        rw [hready, hf]
    · rfl
  rw [hostTurn, if_pos hmove]

/-- Settles O29: each byte is a step of its own (`blockByte_bytePut`), no other agent touches the
waiting words, and a fault stops the run. -/
theorem transactionByteSteps : Obligations.TransactionByteSteps := by
  refine ⟨fun s c r x hl hp hb hr hx => ?_, fun s t h => ?_, fun s c hx h => ?_,
    fun s t c w ws ht hf => ⟨gate_faulted hf, blockBytes_fault ht hf⟩⟩
  · have hword : r.len = 2 ∧ ∀ i u, (readReg u r i).2 = 0 := by
      simp only [List.mem_cons, List.not_mem_nil, or_false] at hr
      rcases hr with rfl | rfl | rfl | rfl <;> exact ⟨rfl, fun _ _ => rfl⟩
    obtain ⟨hlen, h0⟩ := hword
    have hlow := locate_low hl.2.2 hx hlen
    have hwrap := word_no_wrap hl.2.2 hx hlen
    refine ⟨fun hwide => ?_, fun hxfer hfree => ?_⟩
    · rw [beginBlock_bytewise c false 0 [0] (by simp only [List.length_singleton]; omega) hwide]
      exact blockByte_bytePut c hl hp hb (locate_base hl.2.2 hx) (h0 0) _
    · rw [hostTurn_xfer hxfer hfree, twWrite_twWord, twAddr_twWord]
      exact blockByte_bytePut c hl hp hb hlow (h0 1) []
  · rcases h with ⟨e, he⟩ | ⟨f, hf⟩ | ⟨i, hi⟩
    · exact act_env (engineEffect_env e s) he
    · exact act_env (offerEffect_env f s) hf
    · exact exec_env hi
  · refine hostTurn_waits (busFree_other hx) (h.imp id ?_)
    rintro ⟨op, rest, hprog, ⟨w, rfl⟩ | ⟨write, a, data, rfl⟩ | rfl⟩
    · exact ⟨_, rest, hprog, rfl⟩
    · exact ⟨_, rest, hprog, rfl⟩
    · exact ⟨_, rest, hprog, rfl⟩

end Sys2Proof.Proofs

/-! ### The formats of the words, and what each decodes to -/

namespace Sys2Proof.Proofs

open Sys2Proof.Machine Sys2Proof.Laws

variable {b : Binding} {a : Addr} {v : Byte} {i : Instr}

/-- Every raw word is one of the four formats, filled with its fields (30 R86, R93, R94). -/
theorem rawWord_fields (w : RawWord) :
    (∃ d a v, w = .tw (twWord d a v)) ∨
    (∃ (s : Bool) (p : Word), w = .mw (BitVec.ofBool s ++ p)) ∨
    (∃ (s : Bool) (p : Word) (n : BitVec 16), w = .ms (BitVec.ofBool s ++ p ++ n)) ∨
    ∃ l, w = .pin (BitVec.ofBool l) := by
  cases w with
  | tw w => exact .inl ⟨_, _, _, congrArg RawWord.tw (twWord_fields w).symm⟩
  | mw w => exact .inr (.inl ⟨_, _, congrArg RawWord.mw (mw_eq w).symm⟩)
  | ms w => exact .inr (.inr (.inl ⟨_, _, _, congrArg RawWord.ms (ms_eq w).symm⟩))
  | pin l => exact .inr (.inr (.inr ⟨l.getLsbD 0, congrArg RawWord.pin (by revert l; decide)⟩))

/-- The operation of a bus write: cases 2 to 9 of 30 R95. -/
def writeOp (b : Binding) (a : Addr) (v : Byte) : Instr :=
  if a = b.aS0Cr then decodeCommand b v
  else if a = b.aMr ∧ v.getLsbD b.mrRst = true then .swReset v
  else if a = b.aS0Ir then .w1c v
  else .wr8 a v

/-- A write word decodes to the operation of its write (30 R95). -/
theorem decode_writeWord (b : Binding) (a : Addr) (v : Byte) :
    decode b (.tw (twWord true a v)) = .ok (writeOp b a v) := by
  simp only [decode, decodeTw, writeOp, twWrite_twWord, twAddr_twWord, twData_twWord, Bool.not_true,
    Bool.false_eq_true, if_false, apply_ite Except.ok]

/-- A read word decodes to RD8 unless it carries data (30 R95 case 1, R96). -/
theorem decode_readWord (b : Binding) (a : Addr) (v : Byte) :
    decode b (.tw (twWord false a v)) = if v = 0 then .ok (.rd8 a) else .error .readWithData := by
  simp only [decode, decodeTw, twWrite_twWord, twAddr_twWord, twData_twWord, Bool.not_false,
    if_true]

/-- A translation word decodes to MAP of its window (30 R93). -/
theorem decode_mapWord (b : Binding) (s : Bool) (p : Word) :
    decode b (.mw (BitVec.ofBool s ++ p)) = .ok (if s then .mapRx p else .mapTx p) := by
  obtain ⟨hs, hp⟩ := mw_fields (BitVec.ofBool s) p
  simp only [decode, decodeMw, hs, hp, BitVec.getLsbD_ofBool, decide_true, Bool.true_and]

/-- A split word decodes to SPLIT of its window unless it is longer than SIZE (30 R93, R96). -/
theorem decode_splitWord (b : Binding) (s : Bool) (p : Word) (n : BitVec 16) :
    decode b (.ms (BitVec.ofBool s ++ p ++ n)) =
      if b.size < n.toNat then .error .splitTooLong
      else .ok (if s then .splitRx p n else .splitTx p n) := by
  obtain ⟨hs, hp, hn⟩ := ms_fields (BitVec.ofBool s) p n
  simp only [decode, decodeMs, hs, hp, hn, BitVec.getLsbD_ofBool, decide_true, Bool.true_and,
    apply_ite Except.ok]

/-- A level of the reset input decodes to the release exactly where it is the inactive level
(30 R94). -/
theorem decode_pinWord (b : Binding) (l : Bool) :
    decode b (.pin (BitVec.ofBool l)) =
      .ok (if l = b.resetActiveLow then .rstRelease else .rstAssert) := by
  simp only [decode, decodePin, BitVec.getLsbD_ofBool, decide_true, Bool.true_and]

/-! ### The operation of a write and its word -/

/-- The operation of a command write is well-formed and has its word (30 R95 cases 2 to 6). -/
theorem decodeCommand_encodes (b : Binding) (v : Byte) :
    (decodeCommand b v).wf b = true ∧
      encode b (decodeCommand b v) = .tw (twWord true b.aS0Cr v) := by
  unfold decodeCommand
  split_ifs with hopen hclose hsend hrecv
  · exact ⟨rfl, hopen ▸ rfl⟩
  · exact ⟨rfl, hclose ▸ rfl⟩
  · exact ⟨rfl, hsend ▸ rfl⟩
  · exact ⟨rfl, hrecv ▸ rfl⟩
  · exact ⟨by simp [Instr.wf, notACommand, hopen, hclose, hsend, hrecv], rfl⟩

/-- What a plain write is none of: a command, a W1C, a SWRESET (30 R95 case 9). -/
theorem plainWrite_iff :
    plainWrite b a v = true ↔
      a ≠ b.aS0Cr ∧ a ≠ b.aS0Ir ∧ ¬(a = b.aMr ∧ v.getLsbD b.mrRst = true) := by
  simp only [plainWrite, Bool.and_eq_true, bne_iff_ne, Bool.not_eq_true', ← Bool.not_eq_true,
    beq_iff_eq, and_assoc]

/-- The operation of a write is well-formed and has its word (30 R95 cases 2 to 9). -/
theorem writeOp_encodes (b : Binding) (a : Addr) (v : Byte) :
    (writeOp b a v).wf b = true ∧ encode b (writeOp b a v) = .tw (twWord true a v) := by
  unfold writeOp
  split_ifs with hcr hmr hir
  · exact hcr ▸ decodeCommand_encodes b v
  · exact ⟨hmr.2, hmr.1 ▸ rfl⟩
  · exact ⟨rfl, hir ▸ rfl⟩
  · exact ⟨plainWrite_iff.2 ⟨hcr, hir, hmr⟩, rfl⟩

/-- The word of a bus write carries its address and its value (30 R92). -/
theorem encode_write (ht : writeTarget b i = some a) :
    encode b i = .tw (twWord true a (writeValue b i)) := by
  cases i <;> cases ht <;> rfl

/-- The command codes differ (00 R14). -/
theorem command_distinct (hv : bindingValid b = true) :
    b.cmdClose ≠ b.cmdOpen ∧ (b.cmdSend ≠ b.cmdOpen ∧ b.cmdSend ≠ b.cmdClose) ∧
      b.cmdRecv ≠ b.cmdOpen ∧ b.cmdRecv ≠ b.cmdClose ∧ b.cmdRecv ≠ b.cmdSend := by
  simp only [bindingValid, codesValid, Bool.and_eq_true, bne_iff_ne] at hv
  have := hv.1.2
  tauto

/-- A well-formed write is the operation of its address and value (30 R95: the first case that
matches is its own). -/
theorem writeOp_of_wf (hv : bindingValid b = true) (hw : i.wf b = true)
    (ht : writeTarget b i = some a) : writeOp b a (writeValue b i) = i := by
  obtain ⟨hclose, hsend, hrecv⟩ := command_distinct hv
  have hcommand (v : Byte) : writeOp b b.aS0Cr v = decodeCommand b v := if_pos rfl
  cases i
  case openSock => cases ht; rw [hcommand]; exact if_pos rfl
  case closeSock => cases ht; rw [hcommand]; simp [decodeCommand, writeValue, hclose]
  case send => cases ht; rw [hcommand]; simp [decodeCommand, writeValue, hsend]
  case recv => cases ht; rw [hcommand]; simp [decodeCommand, writeValue, hrecv]
  case cmdIllegal v =>
    cases ht
    simp only [Instr.wf, notACommand, Bool.and_eq_true, bne_iff_ne] at hw
    rw [hcommand]
    simp [decodeCommand, writeValue, hw]
  case swReset v =>
    cases ht
    have hcr : b.aMr ≠ b.aS0Cr := base_ne hv (r := .mr) (r' := .s0cr) (by decide) rfl rfl
    rw [writeOp, if_neg hcr, if_pos ⟨rfl, hw⟩]
    rfl
  case w1c v =>
    cases ht
    have hcr : b.aS0Ir ≠ b.aS0Cr := base_ne hv (r := .s0ir) (r' := .s0cr) (by decide) rfl rfl
    have hmr : b.aS0Ir ≠ b.aMr := base_ne hv (r := .s0ir) (r' := .mr) (by decide) rfl rfl
    rw [writeOp, if_neg hcr, if_neg fun h => hmr h.1, if_pos rfl]
    rfl
  case wr8 a v =>
    cases ht
    obtain ⟨hcr, hir, hmr⟩ := plainWrite_iff.1 hw
    rw [writeOp, if_neg hcr, writeValue, if_neg hmr, if_neg hir]
  all_goals cases ht

/-! ### Decoding and encoding agree -/

/-- Settles O2: a bus write is the operation of its write (`writeOp_of_wf`); every other operation
fills a format whose fields decode to it. -/
theorem decodeOfEncode : Obligations.DecodeOfEncode := by
  intro b i hv hw
  cases ht : writeTarget b i with
  | some a => rw [encode_write ht, decode_writeWord, writeOp_of_wf hv hw ht]
  | none =>
    cases i
    case rd8 a => exact decode_readWord b a 0
    case mapTx p => exact decode_mapWord b false p
    case mapRx p => exact decode_mapWord b true p
    case splitTx p n =>
      exact (decode_splitWord b false p n).trans (if_neg (by simpa [Instr.wf] using hw))
    case splitRx p n =>
      exact (decode_splitWord b true p n).trans (if_neg (by simpa [Instr.wf] using hw))
    case rstAssert => rw [encode, decode_pinWord, if_neg (by simp)]
    case rstRelease => rw [encode, decode_pinWord, if_pos rfl]
    all_goals cases ht

/-- Settles O3, by the format of the word: each format's decoding names the operation, and the word
is that operation's encoding. -/
theorem encodeOfDecode : Obligations.EncodeOfDecode := by
  intro b w i hd
  rcases rawWord_fields w with ⟨d, a, v, rfl⟩ | ⟨s, p, rfl⟩ | ⟨s, p, n, rfl⟩ | ⟨l, rfl⟩
  · cases d with
    | true =>
      rw [decode_writeWord] at hd
      cases hd
      exact writeOp_encodes b a v
    | false =>
      rw [decode_readWord] at hd
      split_ifs at hd with hz
      cases hd
      exact ⟨rfl, hz ▸ rfl⟩
  · rw [decode_mapWord] at hd
    cases s <;> cases hd <;> exact ⟨rfl, rfl⟩
  · rw [decode_splitWord] at hd
    split_ifs at hd with hn hs
    · cases hd
      exact ⟨by simpa [Instr.wf] using hn, by rw [hs]; rfl⟩
    · cases hd
      exact ⟨by simpa [Instr.wf] using hn, by rw [Bool.eq_false_iff.2 hs]; rfl⟩
  · rw [decode_pinWord] at hd
    split_ifs at hd with hl <;> cases hd
    · exact ⟨rfl, by rw [hl]; rfl⟩
    · exact ⟨rfl, by rw [encode, Bool.eq_not.2 hl]⟩

/-- A bus word is refused exactly when it is a read word with data (30 R96). -/
theorem decode_tw_error_iff (b : Binding) (x : BitVec 25) :
    (∃ e, decode b (.tw x) = .error e) ↔ twWrite x = false ∧ twData x ≠ 0 := by
  obtain ⟨d, a, v, rfl⟩ : ∃ d a v, x = twWord d a v := ⟨_, _, _, (twWord_fields x).symm⟩
  rw [twWrite_twWord, twData_twWord]
  cases d with
  | true => simp [decode_writeWord]
  | false =>
    rw [decode_readWord]
    split_ifs with hz
    · simp [hz]
    · simpa using hz

/-- A split word is refused exactly when its length is above SIZE (30 R96). -/
theorem decode_ms_error_iff (b : Binding) (x : BitVec 33) :
    (∃ e, decode b (.ms x) = .error e) ↔ b.size < (x.extractLsb' 0 16).toNat := by
  rw [← ms_eq x, decode_splitWord, (ms_fields _ _ _).2.2]
  split_ifs with hn
  · exact iff_of_true ⟨_, rfl⟩ hn
  · exact iff_of_false (by simp) hn

/-- Settles O4, by the port of the word: only the bus and the split port refuse words. -/
theorem illFormedWords : Obligations.IllFormedWords := by
  intro b w
  cases w with
  | tw x => rw [decode_tw_error_iff]; simp [twWrite, twData]
  | ms x => rw [decode_ms_error_iff]; simp
  | mw x => simp [decode]
  | pin l => simp [decode]

/-! ### The spec's table, and a decoded word as a step -/

/-- Settles O1: the eighteen words are decoded. -/
theorem sampleWordsDecode : Obligations.SampleWordsDecode := by
  unfold Obligations.SampleWordsDecode
  decide

/-- Settles O6: the placed word is what the next step runs (`step_withWord`), and it runs as the
operation it decodes to. -/
theorem stepRunsDecodedWord : Obligations.StepRunsDecodedWord := by
  intro s w i hl hd
  have hcfg : (wordStep w (busCleared s)).cfg = s.cfg := by cases w <;> rfl
  have hrun : runWord w (wordStep w (busCleared s)) =
      exec i (presented w (wordStep w (busCleared s))) := by rw [runWord, hcfg, hd]
  exact (step_withWord hl w).trans (congrArg (signal (busCleared s)) hrun)

end Sys2Proof.Proofs

/-! ### The mapper's ports and the pointer arithmetic -/

namespace Sys2Proof.Proofs

open Sys2Proof.Machine Sys2Proof.Laws

variable {s : State} {b : Binding} {i : Instr}

/-- An operation that only answers puts its answer on the port and changes nothing else, in every
phase (40 R103). -/
theorem exec_of_answer {r : Response} (hl : s.live) (h : effect i s = answer s r 0) :
    exec i s = .next { s with resp := r } := by
  rw [exec_live i hl, h]
  exact congrArg _ (noteEdge_frame rfl rfl rfl rfl rfl)

/-- MAP answers BASE plus the pointer mod SIZE, an address inside the window (40 R101 to R103). -/
theorem mapAt_bounds (hr : RingFacts b) (w : Win) (p : Word) :
    (mapAt b w p).toNat = (winBase b w).toNat + p.toNat % b.size ∧
    (winBase b w).toNat ≤ (mapAt b w p).toNat ∧
    (mapAt b w p).toNat < (winBase b w).toNat + b.size := by
  have := Nat.mod_lt p.toNat (size_pos b)
  have := mapAt_toNat hr w p
  omega

/-- Settles O7: each port answers `mapAt`, which lies in the window (`mapAt_bounds`). -/
theorem mapTranslates : Obligations.MapTranslates := by
  intro s p hl
  have hr := ringFacts hl.2.2
  exact ⟨⟨_, exec_of_answer hl rfl, mapAt_bounds hr .tx p⟩,
    _, exec_of_answer hl rfl, mapAt_bounds hr .rx p⟩

/-- The addresses of the pieces of a transfer, byte by byte, in piece order (40 R104). -/
def pieceAddrs (ps : List (Addr × Nat)) : List Addr :=
  ps.flatMap fun x => (List.range x.2).map fun k => x.1 + BitVec.ofNat 16 k

/-- The position `k` after `p` maps to BASE plus its remainder mod SIZE (40 R110). -/
theorem mapAt_add (hr : RingFacts b) (w : Win) (p : Word) (k : Nat) :
    mapAt b w (p + BitVec.ofNat 16 k) = winBase b w + BitVec.ofNat 16 ((p.toNat + k) % b.size) := by
  rw [mapAt, add_mod_size hr]

/-- Before the window's end, positions and addresses advance together: the first piece (40 R104). -/
theorem mapAt_first_piece (hr : RingFacts b) (w : Win) (p : Word) {k : Nat}
    (hk : p.toNat % b.size + k < b.size) :
    winBase b w + BitVec.ofNat 16 (p.toNat % b.size) + BitVec.ofNat 16 k =
      mapAt b w (p + BitVec.ofNat 16 k) := by
  have hmod : (p.toNat + k) % b.size = p.toNat % b.size + k := by
    rw [← Nat.mod_add_mod, Nat.mod_eq_of_lt hk]
  rw [mapAt_add hr, hmod, BitVec.ofNat_add, BitVec.add_assoc]

/-- From the window's end on, positions go on at its base: the second piece (40 R104). -/
theorem mapAt_second_piece (hr : RingFacts b) (w : Win) (p : Word) {k : Nat} (hk : k < b.size) :
    winBase b w + BitVec.ofNat 16 k =
      mapAt b w (p + BitVec.ofNat 16 (b.size - p.toNat % b.size + k)) := by
  have hoff := Nat.mod_lt p.toNat (size_pos b)
  have hmod : (p.toNat + (b.size - p.toNat % b.size + k)) % b.size = k := by
    have hsum : p.toNat % b.size + (b.size - p.toNat % b.size + k) = b.size + k := by omega
    rw [← Nat.mod_add_mod, hsum, Nat.add_mod_left, Nat.mod_eq_of_lt hk]
  rw [mapAt_add hr, hmod]

/-- The pieces of a split, by whether it passes the window's end (40 R104). -/
theorem split_eq (b : Binding) (w : Win) (p : Word) (n : Nat) :
    split b w p n =
      if n = 0 then []
      else if p.toNat % b.size + n ≤ b.size then
        [(winBase b w + BitVec.ofNat 16 (p.toNat % b.size), n)]
      else [(winBase b w + BitVec.ofNat 16 (p.toNat % b.size), b.size - p.toNat % b.size),
        (winBase b w, n - (b.size - p.toNat % b.size))] := by
  have hoff := Nat.mod_lt p.toNat (size_pos b)
  simp only [split]
  split_ifs with h0 hrest hend hend
  · rfl
  · rw [Nat.min_eq_left (by omega)]
  · omega
  · omega
  · rw [Nat.min_eq_right (by omega)]

/-- Byte `k` of a split of at most SIZE bytes, in piece order, is at MAP(s, p +16 k) (40 R104). -/
theorem pieceAddrs_split (hr : RingFacts b) (w : Win) (p : Word) {n : Nat} (hn : n ≤ b.size) :
    pieceAddrs (split b w p n) = (List.range n).map fun k => mapAt b w (p + BitVec.ofNat 16 k) := by
  have hoff := Nat.mod_lt p.toNat (size_pos b)
  have hfirst (m : Nat) (hm : p.toNat % b.size + m ≤ b.size) :
      (List.range m).map (fun k =>
        winBase b w + BitVec.ofNat 16 (p.toNat % b.size) + BitVec.ofNat 16 k) =
      (List.range m).map fun k => mapAt b w (p + BitVec.ofNat 16 k) :=
    List.map_congr_left fun k hk =>
      mapAt_first_piece hr w p (by have := List.mem_range.1 hk; omega)
  rw [split_eq, pieceAddrs]
  split_ifs with h0 hend
  · rw [h0]; rfl
  · rw [List.flatMap_singleton]
    exact hfirst n hend
  · obtain ⟨m, hm⟩ : ∃ m, n = b.size - p.toNat % b.size + m := Nat.exists_eq_add_of_le (by omega)
    have hsecond : (List.range m).map (fun k => winBase b w + BitVec.ofNat 16 k) =
        (List.range m).map fun k =>
          mapAt b w (p + BitVec.ofNat 16 (b.size - p.toNat % b.size + k)) :=
      List.map_congr_left fun k hk =>
        mapAt_second_piece hr w p (by have := List.mem_range.1 hk; omega)
    rw [List.flatMap_cons, List.flatMap_singleton, hfirst _ (by omega), hm, Nat.add_sub_cancel_left,
      hsecond, List.range_add, List.map_append, List.map_map]
    rfl

/-- A split of at most SIZE bytes answers its pieces and changes nothing else (40 R104). -/
theorem exec_split (hl : s.live) (w : Win) (p : Word) {n : BitVec 16} (hn : n.toNat ≤ s.cfg.size)
    (hi : effect i s = splitEffect w p n s) :
    exec i s = .next { s with resp := .pieces (split s.cfg w p n.toNat) } := by
  refine exec_of_answer hl (hi.trans ?_)
  rw [splitEffect, if_neg (by omega)]

/-- Settles O8, by the pieces (`split_eq`) and their bytes (`pieceAddrs_split`). -/
theorem splitPieces : Obligations.SplitPieces := by
  intro s w p n hl hn
  refine ⟨split s.cfg w p n.toNat, exec_split hl w p hn ?_, split_eq s.cfg w p n.toNat,
    pieceAddrs_split (ringFacts hl.2.2) w p hn⟩
  cases w <;> rfl

/-- Settles O9: ADVANCE and OCC are addition and subtraction of words, and SIZE divides 2^16
(`mod_wrap`). -/
theorem pointerArithmetic : Obligations.PointerArithmetic := by
  intro b hv
  have hr := ringFacts hv
  have hsize := size_le hr
  refine ⟨fun p n => ?_, fun wr rd => ?_, fun p => ⟨occ_self p, ?_, size_pos b⟩, mod_wrap hr,
    fun w p n => ?_⟩
  · simp [advance]
  · simp [occ, BitVec.toNat_sub, Nat.add_comm]
  · exact occ_ofNat p b.size (by omega)
  · rw [advance, mapAt_add_toNat hr, Nat.mod_add_mod]

end Sys2Proof.Proofs

/-! ### A frame from the network, read back -/

namespace Sys2Proof.Proofs

open Sys2Proof.Machine Sys2Proof.Laws

variable {s t : State} {f : Frame} {b : Binding}

/-- The bytes a deposit stores: the length header, then the frame (40 R114, 42 R153). -/
def depositBytes (b : Binding) (f : Frame) : List Byte :=
  hi8 (prefixOf b f.length) :: lo8 (prefixOf b f.length) :: f

@[simp] theorem length_depositBytes (b : Binding) (f : Frame) :
    (depositBytes b f).length = hdrLen + f.length := by
  simp only [depositBytes, List.length_cons, hdrLen]
  omega

/-- `t` is `s` after a deposit of `f` (42 R153): what reading the frame back rests on. -/
structure Deposited (f : Frame) (s t : State) : Prop where
  live : t.live
  ready : t.phase = .ready
  busFails : t.busFails = s.busFails
  rxWr : t.rxWr = advance s.rxWr (hdrLen + f.length)
  fits : occ s.rxWr t.rxRdAcc + (hdrLen + f.length) ≤ t.cfg.size
  stored : ∀ (i : Nat) (h : i < (depositBytes t.cfg f).length),
    t.ringByte (mapAt t.cfg .rx (s.rxWr + BitVec.ofNat 16 i)) = (depositBytes t.cfg f)[i]

/-- A network step that moves RX_WR is a deposit (42 R153, R154). -/
theorem deposited_of_networkStep (hl : s.live) (ht : networkStep f s = .next t)
    (hmoved : t.rxWr ≠ s.rxWr) : Deposited f s t := by
  have hr := ringFacts hl.2.2
  rw [networkStep, act_live hl] at ht
  cases ht
  rcases offerEffect_cases f s with h | ⟨n, h⟩ | ⟨hp, -, -, -, hfit, n, h⟩
  · exact absurd (congrArg State.rxWr h) hmoved
  · exact absurd (congrArg State.rxWr h) hmoved
  · have hfit' : occ s.rxWr s.rxRdAcc + (hdrLen + f.length) ≤ s.cfg.size := by
      simp only [State.rxFree, hdrLen] at hfit ⊢
      omega
    obtain ⟨hstored, -⟩ := ringByte_store s hr .rx s.rxWr (depositBytes s.cfg f)
      (by rw [length_depositBytes]; omega)
    rw [h]
    exact ⟨hl, hp, rfl, rfl, hfit', hstored⟩

/-- FRAMELEN of the header of an n-byte frame is n and the bytes to consume (40 R115, 42 R153). -/
theorem frameLen_prefixOf (b : Binding) {n : Nat} (hn : hdrLen + n < 65536) :
    frameLen b (prefixOf b n) = (n, hdrLen + n) := by
  cases h : b.hdrIncludesSelf with
  | true =>
    have hval : (prefixOf b n).toNat = hdrLen + n := by
      rw [prefixOf, h, if_pos rfl, BitVec.toNat_ofNat, Nat.mod_eq_of_lt hn]
    rw [frameLen, h, if_pos rfl, hval, Nat.add_sub_cancel_left]
  | false =>
    have hval : (prefixOf b n).toNat = n := by
      rw [prefixOf, h, if_neg (by simp), BitVec.toNat_ofNat, Nat.mod_eq_of_lt (by omega)]
    rw [frameLen, h, if_neg (by simp), hval, Nat.add_comm]

/-- After a deposit, the header at the old RX_WR is that of the frame (40 R114, 42 R153). -/
theorem Deposited.header_eq (h : Deposited f s t) : t.header s.rxWr = prefixOf t.cfg f.length := by
  have hhigh := h.stored 0 (by rw [length_depositBytes, hdrLen]; omega)
  have hlow := h.stored 1 (by rw [length_depositBytes, hdrLen]; omega)
  rw [BitVec.add_zero] at hhigh
  exact (congrArg₂ be16 hhigh hlow).trans (be16_parts _)

/-- Every position of a deposit lies in the occupied region after it (20 R81, 42 R153). -/
theorem Deposited.rxOccupied (h : Deposited f s t) {i : Nat} (hi : i < hdrLen + f.length) :
    t.rxOccupied (mapAt t.cfg .rx (s.rxWr + BitVec.ofNat 16 i)) = true := by
  have hr := ringFacts h.live.2.2
  have hsize := size_le hr
  have hfits := h.fits
  have hend : occ t.rxWr t.rxRdAcc = occ s.rxWr t.rxRdAcc + (hdrLen + f.length) := by
    rw [h.rxWr, occ_advance _ _ _ (by omega)]
  have hpos : occ (s.rxWr + BitVec.ofNat 16 i) t.rxRdAcc = occ s.rxWr t.rxRdAcc + i :=
    occ_advance s.rxWr t.rxRdAcc i (by omega)
  exact (rxOccupied_iff hr (mapAt_inWindow hr .rx _)).2 ⟨_, by omega, rfl⟩

/-- A read of a byte of a deposit answers the byte stored (20 R81, 40 R113). -/
theorem Deposited.exec_rd8 (h : Deposited f s t) (hb : s.busFails = false) {i : Nat}
    (hi : i < (depositBytes t.cfg f).length) :
    exec (.rd8 (mapAt t.cfg .rx (s.rxWr + BitVec.ofNat 16 i))) t =
      .next { t with resp := .byte (depositBytes t.cfg f)[i] } := by
  have hwin := mapAt_inWindow (ringFacts h.live.2.2) .rx (s.rxWr + BitVec.ofNat 16 i)
  have hocc := h.rxOccupied (i := i) (by rwa [length_depositBytes] at hi)
  rw [exec_rd8_rx h.live ⟨h.busFails.trans hb, h.ready⟩ hwin, if_pos hocc, h.stored i hi]

/-- Settles O42: the header of a deposit is that of the frame (`Deposited.header_eq`), and the bytes
after it read back as the frame (`Deposited.exec_rd8`). -/
theorem depositedFrameReadsBack : Obligations.DepositedFrameReadsBack := by
  intro s t f hl hb ht hmoved
  have h := deposited_of_networkStep hl ht hmoved
  have hfits := h.fits
  have hsize := size_le (ringFacts h.live.2.2)
  refine ⟨?_, fun i hi => ?_⟩
  · rw [h.header_eq, frameLen_prefixOf _ (by omega)]
  · have hbody : hdrLen + i < (depositBytes t.cfg f).length := by rw [length_depositBytes]; omega
    have hbyte : (depositBytes t.cfg f)[hdrLen + i] = f[i] := by
      simp [depositBytes, hdrLen, Nat.add_comm 2 i]
    rw [h.exec_rd8 hb hbody, hbyte]

end Sys2Proof.Proofs

/-! ### The TX path -/

namespace Sys2Proof.Proofs

open Sys2Proof.Machine Sys2Proof.Laws

variable {s : State} {a : Addr} {c : Cmd} {i : Nat}

/-- Where the first step answers a next state, the second goes on from it. -/
theorem thenDo_of_next {r : Result} {k : State → Result} (h : r = .next s) : thenDo r k = k s := by
  rw [h, thenDo]

/-- An admitted write to a byte of TX_WR stores it, the other byte kept (41 R117, R134). -/
theorem exec_wr8_txWr (hl : s.live) (ha : s.admitsWrite) (hm : locate s.cfg a = some (.reg .txWr i))
    (y : Byte) : exec (.wr8 a y) s = .next { s with txWr := setByteOf s.txWr i y } := by
  rw [exec_wr8 hl ha hm]
  exact congrArg _ (noteEdge_frame rfl rfl rfl rfl rfl)

/-- Writing the two bytes of a word to TX_WR, high byte first, stores the word (20 R61, 41 R134). -/
theorem thenDo_write_txWr (hl : s.live) (ha : s.admitsWrite) (x : Word) (k : State → Result) :
    (thenDo (exec (.wr8 s.cfg.aTxWr (hi8 x)) s) fun t =>
      thenDo (exec (.wr8 (t.cfg.aTxWr + 1) (lo8 x)) t) k) = k { s with txWr := x } := by
  have hhigh := exec_wr8_txWr hl ha (locate_base hl.2.2 (r := .txWr) rfl) (hi8 x)
  have hlow := exec_wr8_txWr (s := { s with txWr := setByteOf s.txWr 0 (hi8 x) }) hl ha
    (locate_low hl.2.2 (r := .txWr) rfl rfl) (lo8 x)
  rw [thenDo_of_next hhigh, thenDo_of_next hlow, setByteOf_both]

/-- The code of a command names it (00 R14, 42 R142). -/
theorem cmdOfCode_code {b : Binding} (hv : bindingValid b = true) (c : Cmd) :
    cmdOfCode b (c.code b) = some c := by
  obtain ⟨hclose, hsend, hrecv⟩ := command_distinct hv
  cases c <;> simp [cmdOfCode, Cmd.code, hclose, hsend, hrecv]

/-- A command write that passes its checks makes the command pending (42 R142). -/
theorem exec_cmdInstr (hl : s.live) (ha : s.admitsWrite) (hn : s.cmdPending = none)
    (hc : cmdCheck s c = none) : exec (cmdInstr c) s = .next { s with cmdPending := some c } := by
  have heffect : effect (cmdInstr c) s = writeEffect s.cfg.aS0Cr (c.code s.cfg) s := by cases c <;> rfl
  have hm : locate s.cfg s.cfg.aS0Cr = some (.reg .s0cr 0) := locate_base hl.2.2 rfl
  have hwrite : writeS0Cr s (c.code s.cfg) = { s with cmdPending := some c } := by
    simp only [writeS0Cr, cmdOfCode_code hl.2.2, hn, hc]
  rw [exec_live _ hl, heffect, writeEffect_ok ha hm, writeLoc, writeReg, hwrite]
  exact congrArg _ (noteEdge_frame rfl rfl rfl rfl rfl)

/-- A SEND of 1 to min(SIZE, MAX_FRAME) bytes on an open socket with none in flight passes its
checks (42 R148). -/
theorem cmdCheck_send (hsr : s.s0sr = s.cfg.srMacraw) (hb : s.sendBusy = false)
    (hsize : s.badSendSize = false) : cmdCheck s .send = none := by
  simp [cmdCheck, hsr, hb, hsize]

/-- The acceptance of a pending SEND of a good length latches the pointers (42 R149). -/
theorem engineStep_accept_send (hl : s.live) (hp : s.phase = .ready)
    (hc : s.cmdPending = some .send) (hsize : s.badSendSize = false) :
    engineStep .accept s = .next
      { s with
        sendStart := s.txRd, sendEnd := s.txWr, raced := [], sendBusy := true, cmdPending := none } := by
  have heffect : engineEffect .accept s = acceptSend s := by
    simp only [engineEffect, hc, hp, if_true, acceptCmd]
  rw [engineStep, act_live hl, heffect, acceptSend, if_neg (by simp [hsize])]
  exact congrArg _ (noteEdge_frame rfl rfl rfl rfl rfl)

/-- The completion of a SEND in flight in READY is `sendDone` (42 R150). -/
theorem engineStep_sendDone (hl : s.live) (hp : s.phase = .ready) (hb : s.sendBusy = true) :
    engineStep .sendDone s = .next (noteEdge s (sendDone s)) := by
  rw [engineStep, act_live hl, engineEffect, if_pos ⟨hb, hp⟩]

/-- The SEND of a frame written at TX_WR of an empty TX ring, accepted (43 R166, 42 R149). -/
def sendInFlight (f : Frame) (s : State) : State :=
  { s with
    mem := ringStore s.cfg .tx s.txWr f s.mem
    txWr := advance s.txWr f.length
    sendStart := s.txRd
    sendEnd := advance s.txWr f.length
    raced := []
    sendBusy := true
    cmdPending := none }

/-- Advancing the write pointer of an empty ring by `n` makes its occupancy `n` (40 R105, R106). -/
theorem occ_advance_empty {w r : Word} {n : Nat} (hempty : r = w) (hn : n < 65536) :
    occ (advance w n) r = n := hempty ▸ occ_ofNat r n hn

/-- From an empty TX ring, the bytes of a frame written and TX_WR advanced make a good SEND length
(40 R106, 42 R148). -/
theorem badSendSize_written {f : Frame} (hempty : s.txRd = s.txWr) (h0 : 0 < f.length)
    (hn : f.length ≤ min s.cfg.size s.cfg.maxFrame) (hsize : s.cfg.size < 65536) :
    State.badSendSize { s with txWr := advance s.txWr f.length } = false := by
  have hocc : occ (advance s.txWr f.length) s.txRd = f.length :=
    occ_advance_empty hempty (by omega)
  simp only [State.badSendSize, State.sendSize, hocc, Bool.or_eq_false_iff, beq_eq_false_iff_ne,
    decide_eq_false_iff_not]
  omega

/-- The TX path from an empty TX ring reaches `sendInFlight` and completes that SEND (43 R166). -/
theorem txPath_eq {f : Frame} (hl : s.live) (ha : s.admitsWrite) (hsr : s.s0sr = s.cfg.srMacraw)
    (hempty : s.txRd = s.txWr) (hb : s.sendBusy = false) (hc : s.cmdPending = none)
    (h0 : 0 < f.length) (hn : f.length ≤ min s.cfg.size s.cfg.maxFrame) :
    txPath f s = .next (noteEdge (sendInFlight f s) (sendDone (sendInFlight f s))) := by
  have hsize := size_le (ringFacts hl.2.2)
  have hgood := badSendSize_written hempty h0 hn (by omega)
  obtain ⟨r, hring⟩ := ringWrites_eq s.txWr f hl ha
  let stored : State := { s with mem := ringStore s.cfg .tx s.txWr f s.mem, raced := r }
  let written : State := { stored with txWr := advance s.txWr f.length }
  have hpointer := thenDo_write_txWr (s := stored) hl ha (advance s.txWr f.length)
  have hsend := exec_cmdInstr (s := written) hl ha hc (cmdCheck_send hsr hb hgood)
  have haccept := engineStep_accept_send (s := { written with cmdPending := some .send }) hl ha.2 rfl
    hgood
  have hdone := engineStep_sendDone (s := sendInFlight f s) hl ha.2 rfl
  refine (thenDo_of_next hring).trans ?_
  refine (hpointer _).trans ?_
  refine (thenDo_of_next hsend).trans ?_
  exact (thenDo_of_next haccept).trans hdone

/-- The frame in flight on the TX path is the frame written: no byte is raced, and each position
holds its byte (40 R112, 42 R150). -/
theorem flightFrame_sendInFlight {f : Frame} (hr : RingFacts s.cfg) (hempty : s.txRd = s.txWr)
    (hn : f.length ≤ s.cfg.size) (k : Nat) : (sendInFlight f s).flightFrame k = f := by
  have hsize := size_le hr
  have hocc : occ (advance s.txWr f.length) s.txRd = f.length :=
    occ_advance_empty hempty (by omega)
  have hlen : ((sendInFlight f s).flightFrame k).length = f.length :=
    (length_flightFrame _ k).trans hocc
  have hstart : (sendInFlight f s).sendStart = s.txWr := hempty
  obtain ⟨hstored, -⟩ := ringByte_store s hr .tx s.txWr f hn
  refine List.ext_getElem? fun i => ?_
  by_cases hi : i < f.length
  · rw [getElem?_flightFrame _ k (hlen ▸ hi) List.not_mem_nil, List.getElem?_eq_getElem hi,
      ← hstored i hi, hstart]
    rfl
  · rw [List.getElem?_eq_none (by omega), List.getElem?_eq_none (by omega)]

/-- `set_ir(bit)` sets the bit (00 R17). -/
theorem getLsbD_setIr (s : State) (j : Fin 8) : (setIr s j).s0ir.getLsbD j = true := by
  have hmask : (maskOf j).getLsbD j = true := by simpa [bitAt] using bitAt_maskOf j j
  rw [setIr_s0ir, BitVec.getLsbD_or, hmask, Bool.or_true]

/-- Settles O60: the path completes the SEND of the frame written (`txPath_eq`), whose bytes are the
frame's (`flightFrame_sendInFlight`). -/
theorem sendEmitsTheFrameWritten : Obligations.SendEmitsTheFrameWritten := by
  intro s f hl ha hsr hempty hb hc h0 hn
  have hr := ringFacts hl.2.2
  have hfit : f.length ≤ s.cfg.size := by omega
  obtain ⟨-, hothers⟩ := ringByte_store s hr .tx s.txWr f hfit
  refine ⟨_, txPath_eq hl ha hsr hempty hb hc h0 hn, ?_, ?_, rfl, rfl, rfl, ?_, hothers⟩
  · exact congrArg (fun g => s.netOut ++ [g]) (flightFrame_sendInFlight hr hempty hfit _)
  · exact (pointerArithmetic s.cfg hl.2.2).1 s.txWr f.length
  · exact getLsbD_setIr _ s.cfg.irSendok

end Sys2Proof.Proofs

/-! ### Reads and writes of a register byte -/

namespace Sys2Proof.Proofs

open Sys2Proof.Machine Sys2Proof.Laws

variable {s : State} {a x : Addr} {r : Reg} {i : Instr} {j : Nat} {y : Byte}

/-- An admitted read of a register byte that takes no draw answers it and changes nothing else
(41 R116). -/
theorem exec_rd8_reg (hl : s.live) (ha : s.admitsRead a) (hm : locate s.cfg a = some (.reg r j))
    (hy : readReg s r j = (y, 0)) : exec (.rd8 a) s = .next { s with resp := .byte y } := by
  rw [exec_rd8 hl ha hm, readLoc, hy]
  rfl

/-- An admitted write to a register byte, of any operation that writes, does what the register's
class says (41 R117). -/
theorem exec_write_reg (hl : s.live) (ha : s.admitsWrite) (ht : writeTarget s.cfg i = some a)
    (hm : locate s.cfg a = some (.reg r j)) :
    exec i s = .next (noteEdge s (writeReg s a (writeValue s.cfg i) r j)) := by
  rw [exec_live i hl, effect_write ht, writeEffect_ok ha hm, writeLoc]

/-- A write to a register other than MR, IMR, S0_IR and S0_IMR makes no edge (60 R174 to R177). -/
theorem noteEdge_writeReg (hr : r ∉ [Reg.mr, .imr, .s0ir, .s0imr]) (s : State) (a : Addr) (v : Byte)
    (j : Nat) : noteEdge s (writeReg s a v r j) = writeReg s a v r j := by
  cases r
  case mr => simp at hr
  case imr => simp at hr
  case s0ir => simp at hr
  case s0imr => simp at hr
  case s0cr =>
    rw [writeReg, writeS0Cr_frame]
    exact noteEdge_frame rfl rfl rfl rfl rfl
  all_goals exact noteEdge_frame rfl rfl rfl rfl rfl

/-- An admitted write to such a register is its store alone (41 R117, 60 R177). -/
theorem exec_write_reg_quiet (hl : s.live) (ha : s.admitsWrite) (ht : writeTarget s.cfg i = some a)
    (hm : locate s.cfg a = some (.reg r j)) (hr : r ∉ [Reg.mr, .imr, .s0ir, .s0imr]) :
    exec i s = .next (writeReg s a (writeValue s.cfg i) r j) := by
  rw [exec_write_reg hl ha ht hm, noteEdge_writeReg hr]

/-- Admitted writes to the two bytes of a 16-bit register, at their addresses (20 R61, 41 R117). -/
theorem exec_wr8_word (hl : s.live) (ha : s.admitsWrite) (hx : r.base s.cfg = some x)
    (hlen : r.len = 2) (v : Byte) :
    exec (.wr8 x v) s = .next (writeReg s x v r 0) ∧
    exec (.wr8 (x + 1) v) s = .next (writeReg s (x + 1) v r 1) := by
  have hr : r ∉ [Reg.mr, .imr, .s0ir, .s0imr] := by
    revert hlen
    cases r <;> decide
  exact ⟨exec_write_reg_quiet hl ha rfl (locate_base hl.2.2 hx) hr,
    exec_write_reg_quiet hl ha rfl (locate_low hl.2.2 hx hlen) hr⟩

/-- Inside a vector a bounds-checked store is a store. -/
theorem setIfInBounds_fin {n : Nat} (xs : Vector Byte n) (k : Fin n) (v : Byte) :
    xs.setIfInBounds k v = xs.set k v := by
  refine Vector.ext fun m hm => ?_
  rw [Vector.getElem_setIfInBounds, Vector.getElem_set]

/-- Settles O11: each register byte is located at its address and is of class RW. -/
theorem configBytesReadAndWrite : Obligations.ConfigBytesReadAndWrite := by
  intro s v hl ha
  have hgar (k : Fin 4) : locate s.cfg (s.cfg.aGar + BitVec.ofNat 16 k) = some (.reg .gar k) :=
    locate_offset hl.2.2 rfl k.isLt
  have hshar (k : Fin 6) : locate s.cfg (s.cfg.aShar + BitVec.ofNat 16 k) = some (.reg .shar k) :=
    locate_offset hl.2.2 rfl k.isLt
  have hmode : locate s.cfg s.cfg.aS0Mr = some (.reg .s0mr 0) := locate_base hl.2.2 rfl
  obtain ⟨hread0, hread1⟩ := exec_rd8_word (r := .rtr) (v := s.rtr) hl ha rfl rfl fun _ => rfl
  obtain ⟨hwrite0, hwrite1⟩ := exec_wr8_word (r := .rtr) hl ha rfl rfl v
  refine ⟨fun k => ⟨?_, ?_⟩, fun k => ⟨?_, ?_⟩, hread0, hread1, hwrite0, hwrite1,
    exec_rd8_reg hl (admitsRead_of ha) hmode rfl, exec_write_reg_quiet hl ha rfl hmode (by decide)⟩
  · rw [exec_rd8_reg hl (admitsRead_of ha) (hgar k) rfl, Vector.getD_getElem?, dif_pos k.isLt]
    rfl
  · rw [exec_write_reg_quiet hl ha rfl (hgar k) (by decide), ← setIfInBounds_fin]
    rfl
  · rw [exec_rd8_reg hl (admitsRead_of ha) (hshar k) rfl, Vector.getD_getElem?, dif_pos k.isLt]
    rfl
  · rw [exec_write_reg_quiet hl ha rfl (hshar k) (by decide), ← setIfInBounds_fin]
    rfl

/-- Settles O13: the two bytes of each pointer are read and stored one at a time. -/
theorem pointerRegistersReadAndWrite : Obligations.PointerRegistersReadAndWrite := by
  intro s v hl ha
  obtain ⟨htx0, htx1⟩ := exec_rd8_word (r := .txWr) (v := s.txWr) hl ha rfl rfl fun _ => rfl
  obtain ⟨hwtx0, hwtx1⟩ := exec_wr8_word (r := .txWr) hl ha rfl rfl v
  obtain ⟨hrx0, hrx1⟩ := exec_rd8_word (r := .rxRd) (v := s.rxRd) hl ha rfl rfl fun _ => rfl
  obtain ⟨hwrx0, hwrx1⟩ := exec_wr8_word (r := .rxRd) hl ha rfl rfl v
  exact ⟨htx0, htx1, hwtx0, hwtx1, hrx0, hrx1, hwrx0, hwrx1⟩

/-- Settles O14: each byte is read as stored, and the invariant's codes are the list's. -/
theorem engineRegistersRead : Obligations.EngineRegistersRead := by
  intro s hl ha
  have hstatus : locate s.cfg s.cfg.aS0Sr = some (.reg .s0sr 0) := locate_base hl.2.2 rfl
  obtain ⟨hhigh, hlow⟩ := exec_rd8_word (r := .txRd) (v := s.txRd) hl ha rfl rfl fun _ => rfl
  refine ⟨exec_rd8_reg hl (admitsRead_of ha) hstatus rfl, fun h => ?_, hhigh, hlow, fun a hx =>
    exec_rd8_word (r := .rxWr) (v := s.rxWr) hl ha hx rfl fun _ => rfl⟩
  simpa only [List.mem_cons, List.not_mem_nil, or_false] using h

/-- A write to a register of class RO faults and stores nothing (41 R138). -/
theorem writeReg_readOnly (hr : r.readOnly = true) (s : State) (a : Addr) (v : Byte) (j : Nat) :
    writeReg s a v r j = raise s (.roWrite a v) := by
  cases r <;> cases hr <;> rfl

/-- Settles O15: the six registers are those of class RO. -/
theorem readOnlyWriteFaults : Obligations.ReadOnlyWriteFaults := by
  intro s r x a v hl ha hr hx hlow hhigh
  have hm : locate s.cfg a = some (.reg r (a.toNat - x.toNat)) :=
    locate_reg hl.2.2 hx (by omega) (by omega)
  have hclass : ∀ q ∈ [Reg.ir, .s0sr, .txFsr, .txRd, .rxRsr, .rxWr], q.readOnly = true := by decide
  refine exec_of_raise hl ?_
  rw [effect, writeEffect_ok ha hm, writeLoc, writeReg_readOnly (hclass r hr)]

/-! #### The mask registers and the interrupt summary -/

/-- Bit `j` of the unmasked S0_IR bits (60 R174, R175). -/
theorem getLsbD_unmasked (s : State) (j : Nat) :
    s.unmasked.getLsbD j = true ↔
      s.s0ir.getLsbD j = true ∧ (s.cfg.aS0Imr = none ∨ s.s0imr.getLsbD j = true) := by
  cases h : s.cfg.aS0Imr with
  | none => simp only [State.unmasked, h, true_or, and_true]
  | some a =>
    simp only [State.unmasked, h, BitVec.getLsbD_and, Bool.and_eq_true, reduceCtorEq, false_or]

/-- A byte is not zero exactly when one of its bits is set. -/
theorem ne_zero_iff_exists_bit (y : Byte) : y ≠ 0 ↔ ∃ j < 8, y.getLsbD j = true := by
  refine (not_congr BitVec.zero_iff_eq_false).trans ?_
  simp only [not_forall, Bool.not_eq_false]
  exact exists_congr fun j => (and_iff_right_of_imp BitVec.lt_of_getLsbD).symm

/-- `s0_int` holds exactly when an unmasked S0_IR bit is set (60 R175). -/
theorem s0Int_iff (s : State) :
    s.s0Int = true ↔
      ∃ j < 8, s.s0ir.getLsbD j = true ∧ (s.cfg.aS0Imr = none ∨ s.s0imr.getLsbD j = true) := by
  rw [State.s0Int, bne_iff_ne, ne_zero_iff_exists_bit]
  simp only [getLsbD_unmasked]

/-- Settles O12: an IMR write that lets IR_S0 through while s0_int holds asserts the line
(60 R176). -/
theorem maskRegistersReadAndWrite : Obligations.MaskRegistersReadAndWrite := by
  intro s v hl ha
  have himr : locate s.cfg s.cfg.aImr = some (.reg .imr 0) := locate_base hl.2.2 rfl
  have hwrite : exec (.wr8 s.cfg.aImr v) s = .next (noteEdge s { s with imr := v }) :=
    exec_write_reg hl ha rfl himr
  refine ⟨exec_rd8_reg hl (admitsRead_of ha) himr rfl, hwrite, fun hbit hint => ?_, fun a hx => ?_,
    fun hn => ?_⟩
  · have hline : State.intAsserted { s with imr := v } = true :=
      Bool.and_eq_true_iff.2 ⟨Bool.and_eq_true_iff.2 ⟨beq_iff_eq.2 ha.2, hint⟩, hbit⟩
    refine ⟨_, hwrite, hline, ?_⟩
    rw [noteEdge_intEdges, hline]
    cases s.intAsserted <;> rfl
  · have hm : locate s.cfg a = some (.reg .s0imr 0) := locate_base hl.2.2 hx
    exact ⟨exec_rd8_reg hl (admitsRead_of ha) hm rfl, exec_write_reg hl ha rfl hm⟩
  · rw [State.s0Int, State.unmasked, hn]

/-- Settles O17: bit IR_S0 of the value read is set to s0_int, the others are the draw's. -/
theorem interruptRegisterRead : Obligations.InterruptRegisterRead := by
  intro s hl ha
  have hm : locate s.cfg s.cfg.aIr = some (.reg .ir 0) := locate_base hl.2.2 rfl
  refine ⟨⟨irValue s (Config.freeByte s.draws), exec_rd8 hl (admitsRead_of ha) hm, ?_⟩, s0Int_iff s⟩
  exact (bitAt_setBit _ _ _ _).trans (if_pos rfl)

/-! #### MR and the software reset -/

/-- The bits of MR as read: MR_RST from the phase, the others as stored (41 R118). -/
theorem getLsbD_mrValue (s : State) {j : Nat} (hj : j < 8) :
    (mrValue s).getLsbD j =
      if j = s.cfg.mrRst.val then s.phase == .swReset else s.mr.getLsbD j :=
  (bitAt_setBit s.mr s.cfg.mrRst ⟨j, hj⟩ (s.phase == .swReset)).trans
    (if_congr (Fin.ext_iff.trans eq_comm) rfl rfl)

/-- Settles O19: the read gives `mrValue`, and the write with MR_RST clear is a store. -/
theorem modeRegisterReadAndWrite : Obligations.ModeRegisterReadAndWrite := by
  intro s hl hb
  have hm : locate s.cfg s.cfg.aMr = some (.reg .mr 0) := locate_base hl.2.2 rfl
  refine ⟨fun hp => ⟨mrValue s, ?_, fun j hj => getLsbD_mrValue s hj⟩, fun hp v hv => ?_⟩
  · exact exec_rd8_reg hl ⟨hb, hp.imp id (⟨·, rfl⟩)⟩ hm rfl
  · have hstore : writeReg s s.cfg.aMr v .mr 0 = { s with mr := v } := if_neg (Bool.eq_false_iff.1 hv)
    rw [exec_write_reg hl ⟨hb, hp⟩ rfl hm, writeValue, hstore]
    exact congrArg _ (noteEdge_frame rfl rfl rfl rfl rfl)

/-- Outside READY a write that the transport carries records F_NOT_READY (70 R200). -/
theorem writeEffect_not_ready (hb : s.busFails = false) (hp : s.phase ≠ .ready) (a : Addr) (v : Byte) :
    writeEffect a v s = raise s (.notReady a s.phase) := by
  rw [writeEffect, if_neg (by simp [hb]), if_pos hp]

/-- Settles O20: in READY the write changes the phase, which deasserts the line. -/
theorem softwareResetStarts : Obligations.SoftwareResetStarts := by
  intro s v hl hb hv
  split_ifs with hp
  · have hm : locate s.cfg s.cfg.aMr = some (.reg .mr 0) := locate_base hl.2.2 rfl
    have hstart : writeReg s s.cfg.aMr v .mr 0 = { s with phase := .swReset } := if_pos hv
    rw [exec_write_reg hl ⟨hb, hp⟩ rfl hm, writeValue, hstart,
      noteEdge_low (intAsserted_reset (by simp))]
  · exact exec_of_raise hl (writeEffect_not_ready hb hp _ v)

/-! #### S0_IR -/

/-- A step that asserts the line only where it was asserted makes no edge (60 R177). -/
theorem noteEdge_of_imp {t : State} (h : t.intAsserted = true → s.intAsserted = true) :
    noteEdge s t = t := by
  cases ht : t.intAsserted with
  | false => exact noteEdge_low ht
  | true => exact noteEdge_same (ht.trans (h ht).symm)

/-- Clearing S0_IR bits sets no summary (41 R129, 60 R175). -/
theorem s0Int_of_w1c {v : Byte} (h : State.s0Int { s with s0ir := w1cBits s.s0ir v } = true) :
    s.s0Int = true := by
  obtain ⟨j, hj, hbit, hmask⟩ := (s0Int_iff _).1 h
  rw [getLsbD_w1cBits _ _ hj, Bool.and_eq_true] at hbit
  exact (s0Int_iff s).2 ⟨j, hj, hbit.1, hmask⟩

/-- After a W1C the line is asserted where it was and an unmasked bit remains (41 R129, 60 R178). -/
theorem intAsserted_w1c (s : State) (v : Byte) :
    State.intAsserted { s with s0ir := w1cBits s.s0ir v } =
      (s.intAsserted && State.s0Int { s with s0ir := w1cBits s.s0ir v }) := by
  cases hint : State.s0Int { s with s0ir := w1cBits s.s0ir v } with
  | false => simp only [State.intAsserted, hint, Bool.and_false, Bool.false_and]
  | true => simp only [State.intAsserted, hint, s0Int_of_w1c hint, Bool.and_true]

/-- Settles O21: a W1C clears the bits of its operand (`getLsbD_w1cBits`) and asserts no line
(`intAsserted_w1c`). -/
theorem socketInterruptReadAndClear : Obligations.SocketInterruptReadAndClear := by
  intro s v hl ha
  have hm : locate s.cfg s.cfg.aS0Ir = some (.reg .s0ir 0) := locate_base hl.2.2 rfl
  have hline := intAsserted_w1c s v
  have hclear : exec (.w1c v) s = .next { s with s0ir := w1cBits s.s0ir v } := by
    refine (exec_write_reg hl ha rfl hm).trans (congrArg _ (noteEdge_of_imp fun h => ?_))
    exact (Bool.and_eq_true_iff.1 (hline.symm.trans h)).1
  exact ⟨exec_rd8_reg hl (admitsRead_of ha) hm rfl, _, hclear, rfl,
    fun j hj => getLsbD_w1cBits s.s0ir v hj, hline⟩

/-! #### S0_CR -/

/-- Settles O18: S0_CR reads the code of the pending command, case by case. -/
theorem commandRegisterRead : Obligations.CommandRegisterRead := by
  intro s hl ha
  have hm : locate s.cfg s.cfg.aS0Cr = some (.reg .s0cr 0) := locate_base hl.2.2 rfl
  refine exec_rd8_reg hl (admitsRead_of ha) hm (congrArg (·, 0) ?_)
  unfold s0crValue
  generalize s.cmdPending = pending
  rcases pending with _ | c
  · rfl
  · cases c <;> rfl

/-- The first fault recorded is the only one (60 R185). -/
theorem raise_of_no_fault (h : s.faults = []) (f : FaultRecord) :
    raise s f = { s with faults := [f] } := by
  rw [raise, h, List.nil_append]

/-- A byte that is none of the four codes names no command (42 R142). -/
theorem cmdOfCode_none {b : Binding} {v : Byte} (h : notACommand b v = true) : cmdOfCode b v = none := by
  simp only [notACommand, Bool.and_eq_true, bne_iff_ne] at h
  obtain ⟨⟨⟨hopen, hclose⟩, hsend⟩, hrecv⟩ := h
  rw [cmdOfCode, if_neg hopen, if_neg hclose, if_neg hsend, if_neg hrecv]

/-- An admitted command write does what R142 says of its value and nothing else. -/
theorem exec_command_write (hl : s.live) (ha : s.admitsWrite)
    (ht : writeTarget s.cfg i = some s.cfg.aS0Cr) :
    exec i s = .next (writeS0Cr s (writeValue s.cfg i)) :=
  exec_write_reg_quiet hl ha ht (locate_base hl.2.2 (r := .s0cr) rfl) (by decide)

/-- The write of a command is the write of its code (42 R142). -/
theorem exec_cmdInstr_write (hl : s.live) (ha : s.admitsWrite) (c : Cmd) :
    exec (cmdInstr c) s = .next (writeS0Cr s (c.code s.cfg)) := by
  have hvalue : writeValue s.cfg (cmdInstr c) = c.code s.cfg := by cases c <;> rfl
  rw [exec_command_write hl ha (by cases c <;> rfl), hvalue]

/-- An unknown code faults, whatever is pending (42 R142). -/
theorem writeS0Cr_unknown (h : cmdOfCode s.cfg y = none) : writeS0Cr s y = raise s (.cmdUnknown y) := by
  rw [writeS0Cr, h]

/-- A command on top of a pending one faults (42 R142). -/
theorem writeS0Cr_overrun {c p : Cmd} (h : cmdOfCode s.cfg y = some c) (hp : s.cmdPending = some p) :
    writeS0Cr s y = raise s (.cmdOverrun y p) := by
  simp only [writeS0Cr, h, hp]

/-- With none pending, the command's first failing check faults (42 R142). -/
theorem writeS0Cr_check {c : Cmd} {f : FaultRecord} (h : cmdOfCode s.cfg y = some c)
    (hn : s.cmdPending = none) (hc : cmdCheck s c = some f) : writeS0Cr s y = raise s f := by
  simp only [writeS0Cr, h, hn, hc]

/-- Settles O30, check by check in the order of 42 R142; a command that passes them all is pending
(`exec_cmdInstr`). -/
theorem commandWriteChecks : Obligations.CommandWriteChecks := by
  intro s hl ha
  have hcode := cmdOfCode_code hl.2.2
  refine ⟨fun v hv => ?_, fun c p hp => ?_, fun c hn => ?_⟩
  · have hwrite : exec (.cmdIllegal v) s = .next (writeS0Cr s v) := exec_command_write hl ha rfl
    rw [hwrite, writeS0Cr_unknown (cmdOfCode_none hv), raise_of_no_fault hl.1]
  · rw [exec_cmdInstr_write hl ha, writeS0Cr_overrun (hcode c) hp, raise_of_no_fault hl.1]
  · cases hc : cmdCheck s c with
    | some f => rw [exec_cmdInstr_write hl ha, writeS0Cr_check (hcode c) hn hc, raise_of_no_fault hl.1]
    | none => exact exec_cmdInstr hl ha hn hc

end Sys2Proof.Proofs

/-! ### The checks of a command write -/

namespace Sys2Proof.Proofs

open Sys2Proof.Machine Sys2Proof.Laws

variable {s : State} {c : Cmd}

/-- A command write whose checks fail records the first that does (42 R142). -/
theorem exec_cmdInstr_fault {x : FaultRecord} (hl : s.live) (ha : s.admitsWrite)
    (hn : s.cmdPending = none) (hc : cmdCheck s c = some x) :
    exec (cmdInstr c) s = .next { s with faults := [x] } := by
  rw [exec_cmdInstr_write hl ha, writeS0Cr_check (cmdOfCode_code hl.2.2 c) hn hc,
    raise_of_no_fault hl.1]

/-- S0_MR selects MACRAW when its protocol field holds PROTO_MACRAW (10 R32). -/
theorem macrawMode_iff (s : State) :
    s.macrawMode = true ↔ fieldOf s.s0mr s.cfg.protoHi s.cfg.protoLo = s.cfg.protoMacraw :=
  beq_iff_eq

/-- A good SEND length is 1 to min(SIZE, MAX_FRAME) bytes (42 R148). -/
theorem badSendSize_iff (s : State) :
    s.badSendSize = false ↔
      0 < occ s.txWr s.txRd ∧ occ s.txWr s.txRd ≤ min s.cfg.size s.cfg.maxFrame := by
  simp [State.badSendSize, State.sendSize, Nat.pos_iff_ne_zero]

/-- RX_RD is past RX_WR when it is farther from rx_rd_acc (42 R151). -/
theorem recvPast_iff (s : State) :
    s.recvPast = true ↔ occ s.rxWr s.rxRdAcc < occ s.rxRd s.rxRdAcc :=
  decide_eq_true_iff

/-- Settles O31, check by check in the order of 42 R143. -/
theorem openWrite : Obligations.OpenWrite := by
  intro s hl ha hn
  have hmode := macrawMode_iff s
  refine ⟨fun hsr hp => ?_, fun hsr => ?_, fun hsr hp => ?_⟩
  · exact exec_cmdInstr (c := .openSock) hl ha hn (by simp [cmdCheck, hsr, hmode.2 hp])
  · exact exec_cmdInstr_fault (c := .openSock) hl ha hn (by simp [cmdCheck, hsr])
  · have hm : s.macrawMode = false := Bool.eq_false_iff.2 fun h => hp (hmode.1 h)
    exact exec_cmdInstr_fault (c := .openSock) hl ha hn (by simp [cmdCheck, hsr, hm])

/-- Settles O32: the one check of 42 R146 is send_busy. -/
theorem closeWrite : Obligations.CloseWrite := by
  intro s hl ha hn
  refine ⟨fun hb => ?_, fun hb => ?_⟩
  · exact exec_cmdInstr (c := .closeSock) hl ha hn (by simp [cmdCheck, hb])
  · exact exec_cmdInstr_fault (c := .closeSock) hl ha hn (by simp [cmdCheck, hb])

/-- Settles O33, check by check in the order of 42 R148. -/
theorem sendWrite : Obligations.SendWrite := by
  intro s hl ha hn
  have hsize := badSendSize_iff s
  refine ⟨fun hsr hb hfits => ?_, fun hsr => ?_, fun hsr hb => ?_, fun hsr hb hfits => ?_⟩
  · exact exec_cmdInstr (c := .send) hl ha hn (cmdCheck_send hsr hb (hsize.2 hfits))
  · exact exec_cmdInstr_fault (c := .send) hl ha hn (by simp [cmdCheck, hsr])
  · exact exec_cmdInstr_fault (c := .send) hl ha hn (by simp [cmdCheck, hsr, hb])
  · have hbad : s.badSendSize = true := Bool.of_not_eq_false fun h => hfits (hsize.1 h)
    exact exec_cmdInstr_fault (c := .send) hl ha hn (by simp [cmdCheck, hsr, hb, hbad])

/-- Settles O34, check by check in the order of 42 R151. -/
theorem recvWrite : Obligations.RecvWrite := by
  intro s hl ha hn
  have hiff := recvPast_iff s
  refine ⟨fun hsr hpast => ?_, fun hsr => ?_, fun hsr hpast => ?_⟩
  · have hp : s.recvPast = false := Bool.eq_false_iff.2 fun h => hpast (hiff.1 h)
    exact exec_cmdInstr (c := .recv) hl ha hn (by simp [cmdCheck, hsr, hp])
  · exact exec_cmdInstr_fault (c := .recv) hl ha hn (by simp [cmdCheck, hsr])
  · exact exec_cmdInstr_fault (c := .recv) hl ha hn (by simp [cmdCheck, hsr, hiff.2 hpast])

end Sys2Proof.Proofs

/-! ### The acceptance and the completion of a command -/

namespace Sys2Proof.Proofs

open Sys2Proof.Machine Sys2Proof.Laws

variable {s : State} {c : Cmd}

/-- The acceptance of a pending command in READY is that of its rule (42 R144, R147, R149, R152). -/
theorem engineEffect_accept (hp : s.phase = .ready) (hc : s.cmdPending = some c) :
    engineEffect .accept s = acceptCmd s c := by
  simp only [engineEffect, hc, hp, if_true]

/-- With its edge of the line counted, that acceptance is the step (60 R177). -/
theorem engineStep_accept (hl : s.live) (hp : s.phase = .ready) (hc : s.cmdPending = some c) :
    engineStep .accept s = .next (noteEdge s (acceptCmd s c)) := by
  rw [engineStep, act_live hl, engineEffect_accept hp hc]

/-- An acceptance whose check fails records the fault and changes nothing else (60 R185). -/
theorem engineStep_accept_fault {x : FaultRecord} (hl : s.live) (hp : s.phase = .ready)
    (hc : s.cmdPending = some c) (hx : acceptCmd s c = raise s x) :
    engineStep .accept s = .next { s with faults := [x] } := by
  rw [engineStep_accept hl hp hc, hx, noteEdge_raise x hl.1]

/-- An empty TX ring has SIZE bytes free (40 R107). -/
theorem txFree_of_empty (h : s.txWr = s.txRd) : s.txFree = some (BitVec.ofNat 16 s.cfg.size) := by
  simp [State.txFree, h]

/-- With RX_RD, RX_WR and rx_rd_acc equal, RX_RSR is 0 (40 R108). -/
theorem rxRsrValue_of_empty (hrd : s.rxRd = s.rxRdAcc) (hwr : s.rxWr = s.rxRdAcc) :
    rxRsrValue s = 0 := by
  rw [rxRsrValue, if_pos hrd, hwr]
  exact BitVec.sub_self _

/-- The state after an OPEN acceptance that drew the start pointers `t` and `r` and, with `init`, the
status SR_INIT (42 R144). -/
def openedAt (t r : Word) (init : Bool) (s : State) : State :=
  { s with
    txRd := t, txWr := t, rxRd := r, rxWr := r, rxRdAcc := r
    mfLatched := bitAt s.s0mr s.cfg.s0MrMf
    s0sr := if init then s.cfg.srInit else s.cfg.srMacraw
    openPending := init, cmdPending := none, draws := s.draws + 3 }

/-- OPEN acceptance makes no edge: it leaves what the line depends on (42 R144, 60 R176). -/
theorem engineStep_accept_open (hl : s.live) (hp : s.phase = .ready)
    (hc : s.cmdPending = some .openSock) (hm : s.macrawMode = true) :
    ∃ t r init, engineStep .accept s = .next (openedAt t r init s) := by
  refine ⟨Config.freeWord s.draws, Config.freeWord (s.draws + 1), Config.freeBool (s.draws + 2), ?_⟩
  rw [engineStep_accept hl hp hc, acceptCmd, acceptOpen, if_neg (by simp [hm])]
  exact congrArg _ (noteEdge_frame rfl rfl rfl rfl rfl)

/-- Settles O35: both rings start empty (`txFree_of_empty`, `rxRsrValue_of_empty`). -/
theorem openAccepted : Obligations.OpenAccepted := by
  intro s hl hp hc
  refine ⟨fun hm => ?_, fun hm => engineStep_accept_fault hl hp hc (if_pos hm)⟩
  obtain ⟨t, r, init, hstep⟩ := engineStep_accept_open hl hp hc hm
  obtain ⟨-, -, him⟩ := status_distinct hl.2.2
  have hsize := size_le (ringFacts hl.2.2)
  refine ⟨t, r, (openedAt t r init s).s0sr, s.draws + 3, _, hstep, ?_, ?_,
    ⟨_, txFree_of_empty rfl, ?_⟩, rxRsrValue_of_empty rfl rfl⟩
  · cases init
    · exact .inr rfl
    · exact .inl rfl
  · cases init <;> simp [openedAt, bitAt, him.symm]
  · rw [BitVec.toNat_ofNat]
    exact Nat.mod_eq_of_lt (Nat.lt_of_le_of_lt hsize (by decide))

/-- Settles O36: neither effect touches what the line depends on. -/
theorem openCompletedAndCloseAccepted : Obligations.OpenCompletedAndCloseAccepted := by
  intro s hl hp
  refine ⟨fun ho => ?_, fun hc => ?_⟩
  · rw [engineStep, act_live hl, engineEffect, if_pos ⟨ho, hp⟩]
    exact congrArg _ (noteEdge_frame rfl rfl rfl rfl rfl)
  · rw [engineStep_accept hl hp hc]
    exact congrArg _ (noteEdge_frame rfl rfl rfl rfl rfl)

/-- Settles O37, by the length check of 42 R149. -/
theorem sendAccepted : Obligations.SendAccepted := by
  intro s hl hp hc
  have hsize := badSendSize_iff s
  refine ⟨fun hfits => engineStep_accept_send hl hp hc (hsize.2 hfits), fun hfits => ?_⟩
  exact engineStep_accept_fault hl hp hc (if_pos (Bool.of_not_eq_false fun h => hfits (hsize.1 h)))

/-- Settles O38: the frame emitted is the frame in flight. -/
theorem sendCompleted : Obligations.SendCompleted := by
  intro s hl hp hb
  exact ⟨s.flightFrame s.draws, s.draws + occ s.sendEnd s.sendStart, engineStep_sendDone hl hp hb,
    length_flightFrame s _, fun i hi hr => getElem?_flightFrame s _ hi hr⟩

/-- RECV acceptance takes RX_RD as the accepted pointer; it sets IR_RECV again only while data
remains (42 R152). -/
theorem acceptRecv_eq (h : s.recvPast = false) :
    ∃ ir d, acceptRecv s = { s with rxRdAcc := s.rxRd, cmdPending := none, s0ir := ir, draws := d } ∧
      (ir = s.s0ir ∨ 0 < occ s.rxWr s.rxRd ∧ ir = s.s0ir ||| maskOf s.cfg.irRecv) := by
  rw [acceptRecv, if_neg (by simp [h])]
  by_cases h0 : occ s.rxWr s.rxRd = 0
  · exact ⟨s.s0ir, s.draws, if_pos h0, .inl rfl⟩
  · simp only [h0, if_false]
    split
    · exact ⟨_, s.draws + 1, rfl, .inr ⟨Nat.pos_of_ne_zero h0, rfl⟩⟩
    · exact ⟨s.s0ir, s.draws + 1, rfl, .inl rfl⟩

/-- Settles O39, by the check of 42 R152 and `acceptRecv_eq`. -/
theorem recvAccepted : Obligations.RecvAccepted := by
  intro s hl hp hc
  have hiff := recvPast_iff s
  refine ⟨fun hpast => ?_, fun hpast => engineStep_accept_fault hl hp hc (if_pos (hiff.2 hpast))⟩
  obtain ⟨ir, d, heq, hir⟩ :=
    acceptRecv_eq (s := s) (Bool.eq_false_iff.2 fun h => hpast (hiff.1 h))
  exact ⟨ir, d, by rw [engineStep_accept hl hp hc, acceptCmd, heq], hir⟩

end Sys2Proof.Proofs

/-! ### The frames that the network offers -/

namespace Sys2Proof.Proofs

open Sys2Proof.Machine Sys2Proof.Laws

variable {s : State} {f : Frame}

/-- The sequencer takes frames: in READY with the socket open (42 R153). -/
abbrev receiving (s : State) : Prop := s.phase = .ready ∧ s.s0sr = s.cfg.srMacraw

/-- The state after a deposit of `f` that left the draw counter at `n` (42 R153). -/
def depositedAt (f : Frame) (n : Nat) (s : State) : State :=
  { s with
    mem := ringStore s.cfg .rx s.rxWr (depositBytes s.cfg f) s.mem
    rxWr := advance s.rxWr (hdrLen + f.length)
    s0ir := s.s0ir ||| maskOf s.cfg.irRecv
    draws := n }

/-- The state after a drop that left the draw counter at `n` (42 R153). -/
def droppedAt (n : Nat) (s : State) : State := { s with netDrop := s.netDrop + 1, draws := n }

/-- A frame goes into the ring exactly when it fits (42 R153). -/
theorem deposit_eq (f : Frame) (n : Nat) (s : State) :
    deposit f { s with draws := n } =
      if s.rxFree < hdrLen + f.length then droppedAt n s else depositedAt f n s := rfl

/-- The filter passes a frame when none is latched or the frame is addressed to SHAR (42 R155). -/
theorem filterPasses_iff (s : State) (f : Frame) :
    filterPasses s f = true ↔ s.mfLatched = false ∨ f.take 6 = s.shar.toList := by
  simp [filterPasses]

/-- A closed socket, or one in a reset, drops every offered frame, with no draw (42 R153). -/
theorem offerEffect_not_receiving (h1 : 1 ≤ f.length) (hm : f.length ≤ s.cfg.maxFrame)
    (hr : ¬receiving s) : offerEffect f s = droppedAt s.draws s := by
  rw [offerEffect, if_neg (by omega), if_pos (not_and_or.1 hr)]
  rfl

/-- A frame that the filter passes takes no draw (42 R155). -/
theorem offerEffect_passed (h1 : 1 ≤ f.length) (hm : f.length ≤ s.cfg.maxFrame) (hr : receiving s)
    (hf : filterPasses s f = true) : offerEffect f s = deposit f { s with draws := s.draws } := by
  rw [offerEffect, if_neg (by omega), if_neg (by simp [hr]), if_pos hf]

/-- Whether a frame that the filter does not pass is dropped is a draw (42 R155). -/
theorem offerEffect_filtered (h1 : 1 ≤ f.length) (hm : f.length ≤ s.cfg.maxFrame) (hr : receiving s)
    (hf : ¬filterPasses s f = true) :
    offerEffect f s = if Config.freeBool s.draws then droppedAt (s.draws + 1) s
      else deposit f { s with draws := s.draws + 1 } := by
  rw [offerEffect, if_neg (by omega), if_neg (by simp [hr]), if_neg hf]
  rfl

/-- An offered frame is dropped whole, or deposited whole by a receiving socket with enough space. A
frame that the filter passes takes no draw, and it is dropped only where it cannot be deposited
(42 R153 to R155). -/
theorem offerEffect_outcome (h1 : 1 ≤ f.length) (hm : f.length ≤ s.cfg.maxFrame) :
    ∃ n, (filterPasses s f = true → n = s.draws) ∧
      (offerEffect f s = droppedAt n s ∧
          (receiving s → hdrLen + f.length ≤ s.rxFree → ¬filterPasses s f = true) ∨
        offerEffect f s = depositedAt f n s ∧ receiving s ∧ hdrLen + f.length ≤ s.rxFree) := by
  by_cases hr : receiving s
  · by_cases hf : filterPasses s f = true
    · refine ⟨s.draws, fun _ => rfl, ?_⟩
      rw [offerEffect_passed h1 hm hr hf, deposit_eq]
      split
      · exact .inl ⟨rfl, fun _ hfit => by omega⟩
      · exact .inr ⟨rfl, hr, by omega⟩
    · refine ⟨s.draws + 1, fun h => absurd h hf, ?_⟩
      rw [offerEffect_filtered h1 hm hr hf, deposit_eq]
      split
      · exact .inl ⟨rfl, fun _ _ => hf⟩
      · split
        · exact .inl ⟨rfl, fun _ _ => hf⟩
        · exact .inr ⟨rfl, hr, by omega⟩
  · exact ⟨s.draws, fun _ => rfl,
      .inl ⟨offerEffect_not_receiving h1 hm hr, fun h => absurd h hr⟩⟩

/-- The ring bytes after a deposit that fits: the header and the frame at their positions, every other
byte as it was (42 R153). -/
theorem ringByte_depositedAt (hr : RingFacts s.cfg) (hfit : hdrLen + f.length ≤ s.rxFree) (n : Nat) :
    (∀ i < hdrLen + f.length,
      some ((depositedAt f n s).ringByte (mapAt s.cfg .rx (s.rxWr + BitVec.ofNat 16 i))) =
        (depositBytes s.cfg f)[i]?) ∧
    (∀ a : Addr, (∀ i < hdrLen + f.length, mapAt s.cfg .rx (s.rxWr + BitVec.ofNat 16 i) ≠ a) →
      (depositedAt f n s).ringByte a = s.ringByte a) := by
  have hlen := length_depositBytes s.cfg f
  obtain ⟨hstored, hothers⟩ := ringByte_store s hr .rx s.rxWr (depositBytes s.cfg f)
    (by rw [State.rxFree] at hfit; omega)
  refine ⟨fun i hi => ?_, fun a ha => hothers a (hlen ▸ ha)⟩
  rw [List.getElem?_eq_getElem (hlen.symm ▸ hi), ← hstored i (hlen.symm ▸ hi)]
  rfl

/-- The header's value is the length it counts, as a 16-bit value (42 R153). -/
theorem toNat_prefixOf (b : Binding) (n : Nat) :
    (prefixOf b n).toNat = (if b.hdrIncludesSelf then hdrLen + n else n) % 65536 :=
  BitVec.toNat_ofNat ..

/-- Settles O40, by the two outcomes of an offer (`offerEffect_outcome`). -/
theorem frameOffered : Obligations.FrameOffered := by
  intro s f hl h1 hm
  refine ⟨?_, toNat_prefixOf s.cfg f.length⟩
  obtain ⟨n, hn, hout⟩ := offerEffect_outcome h1 hm
  have hstep : networkStep f s = .next (noteEdge s (offerEffect f s)) := act_live hl
  have hmine := filterPasses_iff s f
  refine ⟨_, n, hstep, fun h => hn (hmine.2 h), ?_⟩
  rcases hout with ⟨he, hdrop⟩ | ⟨he, hrec, hfit⟩
  · refine ⟨.inl ?_, fun hrec hfit h => absurd (hmine.2 h) (hdrop hrec hfit)⟩
    rw [he]
    exact noteEdge_frame rfl rfl rfl rfl rfl
  · obtain ⟨hstored, hothers⟩ := ringByte_depositedAt (ringFacts hl.2.2) hfit n
    rw [he]
    exact ⟨.inr ⟨_, rfl, hrec, hfit, hstored, hothers⟩, fun _ _ _ => rfl⟩

end Sys2Proof.Proofs

/-! ### The reserved-bit step, the steps outside READY and the schedule -/

namespace Sys2Proof.Proofs

open Sys2Proof.Machine Sys2Proof.Laws

variable {s : State} {e : EngineStep} {f : Frame}

/-- The reserved-bit step may set every S0_IR bit but IR_SENDOK and IR_RECV (42 R156). -/
theorem getLsbD_reservedMask (b : Binding) {j : Nat} (hj : j < 8) :
    (reservedMask b).getLsbD j = (j != b.irSendok.val && j != b.irRecv.val) := by
  have hmask (i : Fin 8) : (maskOf i).getLsbD j = (i.val == j) :=
    (bitAt_maskOf i ⟨j, hj⟩).trans (decide_eq_decide.2 Fin.ext_iff)
  simp only [reservedMask, BitVec.getLsbD_not, BitVec.getLsbD_or, hmask, hj, decide_true,
    Bool.true_and, Bool.not_or, bne, BEq.comm (a := j)]

/-- Settles O43: with OTHER_IR_QUIET the step is not enabled, without it sets bits of the mask. -/
theorem reservedInterruptBits : Obligations.ReservedInterruptBits := by
  intro s bits hl hp
  refine ⟨_, act_live hl, ?_⟩
  cases hq : s.cfg.otherIrQuiet with
  | true =>
    have he : engineEffect (.reservedIr bits) s = s :=
      engineEffect_disabled (by simp [EngineStep.enabled, hq])
    rw [he]
    exact ⟨rfl, fun j _ => by simp⟩
  | false =>
    rw [engineEffect, if_pos ⟨hq, hp⟩]
    refine ⟨rfl, fun j hj => ?_⟩
    simp only [noteEdge_s0ir, BitVec.getLsbD_or, BitVec.getLsbD_and, getLsbD_reservedMask _ hj,
      Bool.not_false, Bool.and_true, Bool.and_assoc]

/-- An engine step that is not enabled changes nothing (log entry 9). -/
theorem engineStep_disabled (hl : s.live) (h : e.enabled s = false) : engineStep e s = .next s := by
  rw [engineStep, act_live hl, engineEffect_disabled h]
  exact congrArg _ (noteEdge_frame rfl rfl rfl rfl rfl)

/-- Outside READY every engine step but the reset completions is disabled (42 R160). -/
theorem enabled_not_ready (hp : s.phase ≠ .ready) (hsettle : e ≠ .settle) (hreset : e ≠ .resetDone) :
    e.enabled s = false := by
  cases e
  case settle => exact absurd rfl hsettle
  case resetDone => exact absurd rfl hreset
  all_goals simp [EngineStep.enabled, hp]

/-- Settles O44, by what is enabled outside READY (`enabled_not_ready`). -/
theorem onlyResetsOutsideReady : Obligations.OnlyResetsOutsideReady := by
  intro s hl hp
  refine ⟨fun e hsettle hreset => engineStep_disabled hl (enabled_not_ready hp hsettle hreset),
    fun h => engineStep_disabled hl (beq_eq_false_iff_ne.2 h),
    fun h => engineStep_disabled hl (beq_eq_false_iff_ne.2 h), fun f h1 hm => ?_⟩
  rw [networkStep, act_live hl, offerEffect_not_receiving h1 hm fun h => hp h.1]
  exact congrArg _ (noteEdge_frame rfl rfl rfl rfl rfl)

/-- The interrupt callback is the host's own (43 R162). -/
theorem onEdge_world (s t : State) : ∃ v, onEdge s t = t.withEnv v := by
  unfold onEdge
  split
  · exact ⟨_, rfl⟩
  · exact ⟨t.env, rfl⟩

/-- With no turn listed, a step is the fair engine step that is enabled, and the callback may run:
nothing else of the block changes (42 R158, log entry 9). -/
theorem step_fair (hl : s.live) (hturns : s.env.turns = []) (hf : fairStep s = some e) :
    ∃ v, step s = .next ((noteEdge s (engineEffect e s)).withEnv v) := by
  have hmove : nextMove s = agentStep (e.enabled s) (.next (noteEdge s (engineEffect e s))) := by
    simp only [nextMove, hturns, hf, engineStep, act_live hl]
  rw [step, gate_live hl, hmove, agentStep, signal]
  obtain ⟨v, hv⟩ := onEdge_world s _
  exact ⟨v, congrArg _ hv⟩

/-- An acceptance ends the command or records a fault (42 R144, R147, R149, R152). -/
theorem acceptCmd_ends (s : State) (c : Cmd) :
    (acceptCmd s c).cmdPending = none ∨ (acceptCmd s c).faults ≠ [] := by
  rcases acceptCmd_cases s c with ⟨x, h⟩ | ⟨-, -, t, r, init, h⟩ | ⟨-, h⟩ | ⟨-, -, h⟩ |
    ⟨-, -, ir, n, -, h⟩ <;> rw [h]
  · exact .inr (by simp)
  all_goals exact .inl rfl

/-- Settles O45: in each clause the fair step is named, and its effect ends what it is for. -/
theorem idleScheduleIsFair : Obligations.IdleScheduleIsFair := by
  intro s hl hturns
  refine ⟨fun hp hc => ?_, fun hp hc ho => ?_, fun hp hc ho hb => ?_, fun hp => ?_⟩
  · obtain ⟨c, hc⟩ := Option.ne_none_iff_exists'.1 hc
    obtain ⟨v, h⟩ := step_fair (e := .accept) hl hturns (by simp [fairStep, hp, hc])
    rw [engineEffect_accept hp hc] at h
    exact ⟨_, h, acceptCmd_ends s c⟩
  · obtain ⟨v, h⟩ := step_fair (e := .openDone) hl hturns (by simp [fairStep, hp, hc, ho])
    rw [engineEffect, if_pos ⟨ho, hp⟩] at h
    exact ⟨_, h, rfl⟩
  · obtain ⟨v, h⟩ := step_fair (e := .sendDone) hl hturns (by simp [fairStep, hp, hc, ho, hb])
    rw [engineEffect, if_pos ⟨hb, hp⟩] at h
    exact ⟨_, h, rfl⟩
  · rcases hp with hp | hp
    · obtain ⟨v, h⟩ := step_fair (e := .resetDone) hl hturns (by simp [fairStep, hp])
      rw [engineEffect, if_pos hp] at h
      exact ⟨_, h, rfl⟩
    · obtain ⟨v, h⟩ := step_fair (e := .settle) hl hturns (by simp [fairStep, hp])
      rw [engineEffect, if_pos hp] at h
      exact ⟨_, h, rfl⟩

end Sys2Proof.Proofs

/-! ### The moves of the socket status -/

namespace Sys2Proof.Proofs

open Sys2Proof.Machine Sys2Proof.Laws

variable {s : State}

/-- A network step leaves the status (42 R141). -/
theorem offerEffect_s0sr (f : Frame) (s : State) : (offerEffect f s).s0sr = s.s0sr := by
  rcases offerEffect_cases f s with h | ⟨n, h⟩ | ⟨-, -, -, -, -, n, h⟩ <;> rw [h]

/-- An acceptance moves the status only for OPEN and CLOSE (42 R144, R147). -/
theorem acceptCmd_s0sr (s : State) (c : Cmd) :
    (acceptCmd s c).s0sr = s.s0sr ∨
    (c = .openSock ∧ ((acceptCmd s c).s0sr = s.cfg.srInit ∧ (acceptCmd s c).openPending = true ∨
      (acceptCmd s c).s0sr = s.cfg.srMacraw)) ∨
    (c = .closeSock ∧ (acceptCmd s c).s0sr = s.cfg.srClosed) := by
  rcases acceptCmd_cases s c with ⟨x, h⟩ | ⟨hc, -, t, r, init, h⟩ | ⟨hc, h⟩ | ⟨-, -, h⟩ |
    ⟨-, -, ir, n, -, h⟩ <;> rw [h]
  · exact .inl rfl
  · refine .inr (.inl ⟨hc, ?_⟩)
    cases init
    · exact .inr rfl
    · exact .inl ⟨rfl, rfl⟩
  · exact .inr (.inr ⟨hc, rfl⟩)
  · exact .inl rfl
  · exact .inl rfl

/-- Settles O52: the invariant says that OPEN is pending only on a CLOSED socket and that an opening
is one from INIT; the rest is the status of each engine step. -/
theorem statusMoves : Obligations.StatusMoves := by
  intro s t hinv
  have h := inv_iff_blockInv.1 hinv
  refine ⟨fun i ht => (hostLeavesEngineState i s t ht).2.1, fun f ht => ?_, fun e ht => ?_⟩
  · rcases act_next ht with ⟨-, rfl⟩ | ⟨-, -, rfl⟩
    · exact offerEffect_s0sr f s
    · rfl
  · rcases act_next ht with ⟨-, rfl⟩ | ⟨-, -, rfl⟩
    · simp only [noteEdge_s0sr, noteEdge_openPending]
      rcases engineEffect_cases e s with he | ⟨c, rfl, hc, -, he⟩ | ⟨rfl, ho, -, he⟩ | ⟨rfl, -, -, he⟩ |
        ⟨bits, rfl, -, -, he⟩ | ⟨rfl, -, he⟩ | ⟨rfl, -, he⟩ <;> rw [he]
      · exact .inl rfl
      · rcases acceptCmd_s0sr s c with hs | ⟨rfl, hs⟩ | ⟨rfl, hs⟩
        · exact .inl hs
        · exact .inr (.inl ⟨rfl, hc, h.pending.1 hc, hs⟩)
        · exact .inr (.inr (.inr (.inl ⟨rfl, hc, hs⟩)))
      · exact .inr (.inr (.inl ⟨rfl, (h.openPending.1 ho).1, rfl⟩))
      · exact .inl rfl
      · exact .inl rfl
      · exact .inr (.inr (.inr (.inr ⟨.inl rfl, rfl⟩)))
      · obtain ⟨-, -, -, hcfg, -⟩ := abortSend_frame s
        exact .inr (.inr (.inr (.inr ⟨.inr rfl, congrArg Binding.srClosed hcfg⟩)))
    · exact .inl rfl

end Sys2Proof.Proofs

/-! ### What a step leaves of the fault record and the edge count -/

namespace Sys2Proof.Proofs

open Sys2Proof.Machine Sys2Proof.Laws

variable {s t : State}

/-- From `s` to `t` a fault is recorded and nothing else changes, or the fault record and the edge
count stay (60 R177, R185). -/
def RaisesOrKeeps (s t : State) : Prop :=
  (∃ x, t = raise s x) ∨ t.faults = s.faults ∧ t.intEdges = s.intEdges

theorem RaisesOrKeeps.intEdges (h : RaisesOrKeeps s t) : t.intEdges = s.intEdges := by
  rcases h with ⟨x, rfl⟩ | ⟨-, h⟩
  · rfl
  · exact h

theorem writeReg_raisesOrKeeps (s : State) (a : Addr) (v : Byte) (r : Reg) (j : Nat) :
    RaisesOrKeeps s (writeReg s a v r j) := by
  rcases writeReg_cases s a v r j with ⟨x, h⟩ | h | ⟨-, h⟩ | ⟨c, -, -, h⟩ | h |
    ⟨g, e, m, r0, m0, im, w, rd, h⟩
  · exact .inl ⟨x, h⟩
  all_goals exact .inr (by rw [h]; exact ⟨rfl, rfl⟩)

theorem writeEffect_raisesOrKeeps (a : Addr) (v : Byte) (s : State) :
    RaisesOrKeeps s (writeEffect a v s) := by
  rcases writeEffect_cases a v s with ⟨x, h⟩ | ⟨-, ⟨r, j, -, h⟩ | ⟨-, h⟩⟩
  · exact .inl ⟨x, h⟩
  · exact h ▸ writeReg_raisesOrKeeps s a v r j
  · exact h ▸ .inr ⟨rfl, rfl⟩

theorem abortSend_intEdges (s : State) : (abortSend s).intEdges = s.intEdges := by
  rcases abortSend_cases s with ⟨-, h⟩ | ⟨-, out, d, -, h⟩ <;> rw [h]

theorem assertEffect_raisesOrKeeps (s : State) : RaisesOrKeeps s (assertEffect s) := by
  unfold assertEffect
  split
  · exact .inr ⟨rfl, rfl⟩
  · exact .inr ⟨(abortSend_frame s).1, abortSend_intEdges s⟩

theorem releaseEffect_raisesOrKeeps (s : State) : RaisesOrKeeps s (releaseEffect s) := by
  unfold releaseEffect
  split <;> exact .inr ⟨rfl, rfl⟩

/-- Every host operation only records a fault, or records none (60 R185). -/
theorem effect_raisesOrKeeps (i : Instr) (s : State) : RaisesOrKeeps s (effect i s) := by
  rcases effect_cases i s with ⟨a, h⟩ | ⟨a, v, h⟩ | ⟨r, h⟩ | h | h | h <;> rw [h]
  · rcases readEffect_cases a s with ⟨x, h⟩ | ⟨r, n, h⟩
    · exact .inl ⟨x, h⟩
    · exact h ▸ .inr ⟨rfl, rfl⟩
  · exact writeEffect_raisesOrKeeps a v s
  · exact .inr ⟨rfl, rfl⟩
  · exact .inr ⟨rfl, rfl⟩
  · exact assertEffect_raisesOrKeeps s
  · exact releaseEffect_raisesOrKeeps s

theorem acceptCmd_raisesOrKeeps (s : State) (c : Cmd) : RaisesOrKeeps s (acceptCmd s c) := by
  rcases acceptCmd_cases s c with ⟨x, h⟩ | ⟨-, -, t, r, init, h⟩ | ⟨-, h⟩ | ⟨-, -, h⟩ |
    ⟨-, -, ir, n, -, h⟩
  · exact .inl ⟨x, h⟩
  all_goals exact .inr (by rw [h]; exact ⟨rfl, rfl⟩)

/-- Every engine step only records a fault, or records none (60 R185). -/
theorem engineEffect_raisesOrKeeps (e : EngineStep) (s : State) :
    RaisesOrKeeps s (engineEffect e s) := by
  rcases engineEffect_cases e s with h | ⟨c, -, -, -, h⟩ | ⟨-, -, -, h⟩ | ⟨-, -, -, h⟩ |
    ⟨bits, -, -, -, h⟩ | ⟨-, -, h⟩ | ⟨-, -, h⟩ <;> rw [h]
  · exact .inr ⟨rfl, rfl⟩
  · exact acceptCmd_raisesOrKeeps s c
  · exact .inr ⟨rfl, rfl⟩
  · exact .inr ⟨rfl, rfl⟩
  · exact .inr ⟨rfl, rfl⟩
  · exact .inr ⟨rfl, rfl⟩
  · exact .inr ⟨(abortSend_frame s).1, abortSend_intEdges s⟩

/-- No network step records a fault (42 R153). -/
theorem offerEffect_raisesOrKeeps (f : Frame) (s : State) : RaisesOrKeeps s (offerEffect f s) := by
  rcases offerEffect_cases f s with h | ⟨n, h⟩ | ⟨-, -, -, -, -, n, h⟩ <;> rw [h] <;>
    exact .inr ⟨rfl, rfl⟩

/-! #### Faults -/

/-- A step whose effect only records a fault does only that: recording makes no edge (60 R185). -/
theorem act_faults {f : State → State} (hl : s.live) (hf : RaisesOrKeeps s (f s))
    (h : act f s = .next t) : t.faults = [] ∨ ∃ x, t = { s with faults := [x] } := by
  rw [act_live hl, Host.Outcome.next.injEq] at h
  subst h
  rcases hf with ⟨x, hx⟩ | ⟨hx, -⟩
  · exact .inr ⟨x, by rw [hx, noteEdge_raise x hl.1]⟩
  · exact .inl (hx.trans hl.1)

/-- Settles O57: every agent's effect only records a fault (`RaisesOrKeeps`), and the guard of every
step stops on a recorded fault. -/
theorem faultRecordsAndStops : Obligations.FaultRecordsAndStops := by
  refine ⟨fun s t hl h => ?_, fun s hf => ⟨gate_faulted hf, fun i => ?_, fun _ => gate_faulted hf,
    fun _ => gate_faulted hf⟩⟩
  · rcases h with ⟨i, h⟩ | ⟨e, h⟩ | ⟨f, h⟩
    · exact act_faults hl (effect_raisesOrKeeps i s) (exec_eq_act i s ▸ h)
    · exact act_faults hl (engineEffect_raisesOrKeeps e s) h
    · exact act_faults hl (offerEffect_raisesOrKeeps f s) h
  · exact (exec_eq_act i s).trans (gate_faulted hf)

/-- Settles O26: the transport's report is the first check of every bus access (60 R184). -/
theorem busFaultComesFirst : Obligations.BusFaultComesFirst := by
  refine fun s hl hb => ⟨fun i a ht => exec_of_raise hl ?_, fun a => exec_of_raise hl ?_⟩
  · rw [effect_write ht, writeEffect, if_pos hb]
  · rw [effect, readEffect, if_pos hb]

end Sys2Proof.Proofs

/-! ### Refusals -/

namespace Sys2Proof.Proofs

open Sys2Proof.Machine Sys2Proof.Laws

variable {s : State} {k : Result}

/-- Under a binding that breaks its constraints every step is refused (60 R186, log entry 16). -/
theorem gate_invalid (hf : s.faults = []) (hr : s.refused = false) (hv : bindingValid s.cfg = false) :
    gate s k = .next (refuse s) := by
  simp [gate, hf, hr, hv]

/-- Refusing makes no edge (60 R186). -/
theorem noteEdge_refuse (s : State) : noteEdge s (refuse s) = refuse s :=
  noteEdge_frame rfl rfl rfl rfl rfl

/-- An ill-formed word placed next is refused, and the block stays (30 R96, 60 R186). -/
theorem step_ill_formed {w : RawWord} {e : Reject} (hl : s.live) (hd : decode s.cfg w = .error e) :
    step (s.withWord w) = .next (refuse (wordStep w (busCleared s))) := by
  obtain ⟨v, hv⟩ := wordStep_world w (busCleared s)
  have hrun : runWord w (wordStep w (busCleared s)) = .next (refuse (wordStep w (busCleared s))) := by
    rw [runWord, show (wordStep w (busCleared s)).cfg = s.cfg by rw [hv]; rfl, hd]
  rw [step_withWord hl, hrun, hv]
  exact signal_no_edge rfl

/-- A split longer than SIZE is refused (30 R96, log entry 2). -/
theorem splitEffect_too_long {n : BitVec 16} (hn : s.cfg.size < n.toNat) (w : Win) (p : Word) :
    splitEffect w p n s = refuse s := if_pos hn

/-- Settles O5: an ill-formed word and a long split refuse by their own effect, an invalid binding and
an earlier refusal by the guard of every step. -/
theorem refusalStopsTheRun : Obligations.RefusalStopsTheRun := by
  refine ⟨fun s w e hl hd => ?_, fun s p n hl hn => ?_, fun s hf hr hv => ?_, fun s hf hr => ?_⟩
  · obtain ⟨v, hv⟩ := wordStep_world w (busCleared s)
    exact ⟨_, step_ill_formed hl hd, by rw [hv]; rfl⟩
  · have hrefuse (w : Win) : noteEdge s (splitEffect w p n s) = refuse s := by
      rw [splitEffect_too_long hn, noteEdge_refuse]
    exact ⟨(exec_live _ hl).trans (congrArg _ (hrefuse .tx)),
      (exec_live _ hl).trans (congrArg _ (hrefuse .rx))⟩
  · exact ⟨gate_invalid hf hr hv, fun i => (exec_eq_act i s).trans (gate_invalid hf hr hv)⟩
  · exact ⟨gate_refused hf hr, fun i => (exec_eq_act i s).trans (gate_refused hf hr)⟩

end Sys2Proof.Proofs

/-! ### The interrupt line and its edges -/

namespace Sys2Proof.Proofs

open Sys2Proof.Machine Sys2Proof.Laws

variable {s t u : State}

/-- Settles O50: the pin is the line, inverted when INT_ACTIVE_LOW (60 R176). -/
theorem interruptLineLevel : Obligations.InterruptLineLevel := by
  refine fun s => ⟨?_, fun hlow => ?_, fun hlow => ?_⟩
  · simp only [State.intAsserted, Bool.and_eq_true, beq_iff_eq, bitAt, and_assoc]
  · rw [State.intPin, hlow, bne_eq_false_iff_eq]
  · rw [State.intPin, hlow, Bool.bne_false]

/-- `t` has one edge more than `s` exactly when the line went from deasserted to asserted
(60 R177). -/
def CountsEdge (s t : State) : Prop :=
  t.intEdges = s.intEdges + if s.intAsserted = false ∧ t.intAsserted = true then 1 else 0

/-- A move that leaves the line and the count makes no edge. -/
theorem CountsEdge.of_same (hn : t.intEdges = s.intEdges) (hl : t.intAsserted = s.intAsserted) :
    CountsEdge s t := by
  simp [CountsEdge, hn, hl]

/-- The world is not part of the line: the host's own state may change before a move. -/
theorem CountsEdge.of_withEnv {e : Env} (h : CountsEdge (s.withEnv e) t) : CountsEdge s t := h

/-- The host's own state may change after a move. -/
theorem CountsEdge.withEnv {e : Env} (h : CountsEdge s t) : CountsEdge s (t.withEnv e) := h

/-- `noteEdge` counts the edge of a move that has not counted it (60 R177). -/
theorem countsEdge_noteEdge (h : u.intEdges = s.intEdges) : CountsEdge s (noteEdge s u) := by
  rw [CountsEdge, noteEdge_intEdges, intAsserted_noteEdge, h]
  cases s.intAsserted <;> cases u.intAsserted <;> rfl

theorem act_countsEdge {f : State → State} (hf : RaisesOrKeeps s (f s)) (h : act f s = .next t) :
    CountsEdge s t := by
  rcases act_next h with ⟨-, rfl⟩ | ⟨-, -, rfl⟩
  · exact countsEdge_noteEdge hf.intEdges
  · exact .of_same rfl rfl

theorem exec_countsEdge {i : Instr} (h : exec i s = .next t) : CountsEdge s t :=
  act_countsEdge (effect_raisesOrKeeps i s) (exec_eq_act i s ▸ h)

/-- Presenting a word to the block touches neither the line nor the count (20 R85). -/
theorem CountsEdge.of_presented {w : RawWord} (h : CountsEdge (presented w s) t) : CountsEdge s t := by
  cases w <;> exact h

theorem runWord_countsEdge {w : RawWord} (h : runWord w s = .next t) : CountsEdge s t := by
  unfold runWord at h
  split at h
  · exact .of_presented (exec_countsEdge h)
  · cases h
    exact .of_same rfl rfl

theorem blockByte_countsEdge {c : Ctx} {w : BitVec 25} (h : blockByte c w s = .next t) :
    CountsEdge s t := by
  unfold blockByte at h
  split at h
  · rename_i u hu
    cases h
    rw [(keepRead_frame c w u).1]
    exact (runWord_countsEdge hu).withEnv
  · cases h
  · cases h

/-- An atomic transaction counts the edge from its first state to its last (20 R68, log entry 23). -/
theorem atomically_countsEdge {r : Result} (h : atomically s r = .next t) : CountsEdge s t := by
  cases r with
  | next u =>
    cases h
    exact countsEdge_noteEdge rfl
  | fault x => cases h
  | refused x => cases h

theorem CountsEdge.of_withThread {c : Ctx} {x : Thread} (h : CountsEdge (s.withThread c x) t) :
    CountsEdge s t := by
  obtain ⟨e, he⟩ := withThread_world s c x
  exact .of_withEnv (he ▸ h)

theorem beginBlock_countsEdge {c : Ctx} {write : Bool} {a : Addr} {data : List Byte}
    (h : beginBlock c write a data s = .next t) : CountsEdge s t := by
  unfold beginBlock at h
  split at h
  · cases h
    exact .of_same rfl rfl
  · split at h
    · exact atomically_countsEdge h
    · split at h
      · cases h
        exact .of_same rfl rfl
      · exact .of_withThread (.of_withEnv (blockByte_countsEdge h))

/-- A line of a host program counts its edge: a word, a transaction, or a host-only line that leaves
the block. -/
theorem runOp_countsEdge {c : Ctx} {op : HostOp} (h : runOp c op s = .next t) : CountsEdge s t := by
  unfold runOp at h
  split at h
  · rename_i w
    obtain ⟨e, he⟩ := wordStep_world w s
    rw [he] at h
    exact .of_withEnv (runWord_countsEdge h)
  · exact beginBlock_countsEdge h
  · cases h
    obtain ⟨e, he⟩ := hostLine_world c op s
    rw [he]
    exact .of_same rfl rfl

theorem hostTurn_countsEdge {c : Ctx} (h : hostTurn c s = .next t) : CountsEdge s t := by
  unfold hostTurn at h
  split at h
  · cases h
    exact .of_same rfl rfl
  · split at h
    · exact .of_withThread (.of_withEnv (blockByte_countsEdge h))
    · exact .of_withThread (runOp_countsEdge h)
    · cases h
      exact .of_same rfl rfl

theorem agentStep_countsEdge {b : Bool} {f : State → State} (hf : RaisesOrKeeps s (f s))
    (h : agentStep b (act f s) = .next t) : CountsEdge s t := by
  obtain ⟨u, e, hu, rfl⟩ := agentStep_next h
  exact (act_countsEdge hf hu).withEnv

theorem takeTurn_countsEdge {x : Turn} (h : takeTurn x s = .next t) : CountsEdge s t := by
  cases x with
  | host c => exact hostTurn_countsEdge h
  | engine e => exact agentStep_countsEdge (engineEffect_raisesOrKeeps e s) h
  | network f => exact agentStep_countsEdge (offerEffect_raisesOrKeeps f s) h

theorem nextMove_countsEdge (h : nextMove s = .next t) : CountsEdge s t := by
  unfold nextMove at h
  split at h
  · exact .of_withEnv (takeTurn_countsEdge h)
  · split at h
    · exact agentStep_countsEdge (engineEffect_raisesOrKeeps _ s) h
    · split at h <;> exact hostTurn_countsEdge h

/-- The callback after a move is the host's own (43 R162). -/
theorem signal_countsEdge {r : Result} (hr : ∀ u, r = .next u → CountsEdge s u)
    (h : signal s r = .next t) : CountsEdge s t := by
  cases r with
  | next u =>
    cases h
    obtain ⟨e, he⟩ := onEdge_world s u
    rw [he]
    exact (hr u rfl).withEnv
  | fault x => cases h
  | refused x => cases h

/-- Settles O51: every move of every agent counts its edge, and a step is a move or a refusal. -/
theorem edgesAreCounted : Obligations.EdgesAreCounted := by
  intro s t h
  rcases gate_next h with ⟨-, hk⟩ | ⟨-, -, rfl⟩
  · exact signal_countsEdge (fun _ => nextMove_countsEdge) hk
  · exact CountsEdge.of_same rfl rfl

end Sys2Proof.Proofs

/-! ### Outside READY: bus accesses and the reset input -/

namespace Sys2Proof.Proofs

open Sys2Proof.Machine Sys2Proof.Laws

variable {s : State} {a : Addr} {i : Instr}

/-- An operation without an effect answers the state it ran in. -/
theorem exec_of_no_effect (hl : s.live) (h : effect i s = s) : exec i s = .next s := by
  rw [exec_live i hl, h, noteEdge_same rfl]

/-- An operation that ends outside READY makes no edge (60 R176, R177). -/
theorem exec_of_leaves_ready (hl : s.live) (h : (effect i s).phase ≠ .ready) :
    exec i s = .next (effect i s) := by
  rw [exec_live i hl, noteEdge_low (intAsserted_reset h)]

/-- Outside READY a read that the transport carries records F_NOT_READY, but that of MR in SW_RESET
(70 R200). -/
theorem readEffect_not_ready (hb : s.busFails = false) (hp : s.phase ≠ .ready)
    (hmr : ¬(s.phase = .swReset ∧ a = s.cfg.aMr)) : readEffect a s = raise s (.notReady a s.phase) := by
  rw [readEffect, if_neg (Bool.eq_false_iff.1 hb)]
  cases hphase : s.phase with
  | ready => exact absurd hphase hp
  | hwReset => exact if_pos (.inl rfl)
  | settling => exact if_pos (.inr rfl)
  | swReset => rw [if_neg (by decide), if_pos ⟨rfl, fun ha => hmr ⟨hphase, ha⟩⟩]

/-- Settles O25: the phase check refuses each write and read, and the read of MR that it admits in
SW_RESET shows the phase in MR_RST. -/
theorem accessDuringReset : Obligations.AccessDuringReset := by
  intro s hl hb hp
  refine ⟨fun i a ht => exec_of_raise hl ?_, fun a hmr => exec_of_raise hl ?_, fun hsw => ?_⟩
  · rw [effect_write ht, writeEffect_not_ready hb hp]
  · rw [effect, readEffect_not_ready hb hp hmr]
  · obtain ⟨hreads, -⟩ := modeRegisterReadAndWrite s hl hb
    obtain ⟨r, hread, hbits⟩ := hreads (.inr hsw)
    exact ⟨r, hread, (hbits _ s.cfg.mrRst.isLt).trans ((if_pos rfl).trans (beq_iff_eq.2 hsw))⟩

/-! #### The reset input -/

/-- Ending a SEND changes the flight, what went out and the draws alone (70 R195, R198). -/
theorem abortSend_eq (s : State) :
    abortSend s = { s with
      netOut := (abortSend s).netOut
      sendBusy := false
      raced := if s.sendBusy then [] else s.raced
      draws := (abortSend s).draws } := by
  rcases abortSend_cases s with ⟨hb, h⟩ | ⟨hb, out, d, -, h⟩
  · rw [h, if_neg (Bool.eq_false_iff.1 hb), ← hb]
  · rw [h, hb]
    rfl

/-- With no SEND in flight there is nothing to end. -/
theorem abortSend_of_idle (hb : s.sendBusy = false) : abortSend s = s := by
  rw [abortSend, if_neg (Bool.eq_false_iff.1 hb)]

/-- Settles O46: outside HW_RESET the assertion is `abortSend` with nothing pending, and the frame
that goes out is the flight's (`abortSend_netOut`). -/
theorem resetAsserted : Obligations.ResetAsserted := by
  intro s hl
  refine ⟨fun hp => exec_of_no_effect hl (if_pos hp), fun hp =>
    ⟨(abortSend s).netOut, (abortSend s).draws, ?_, fun hb => ?_, ?_⟩⟩
  · have heffect : effect .rstAssert s =
        { abortSend s with phase := .hwReset, cmdPending := none, openPending := false } := if_neg hp
    rw [exec_of_leaves_ready hl (by simp [heffect]), heffect, abortSend_eq s]
  · rw [abortSend_of_idle hb]
    exact ⟨rfl, rfl⟩
  · rcases abortSend_netOut s with h | ⟨-, k, h⟩
    · exact .inl h
    · exact .inr ⟨_, h, length_flightFrame s k, fun i hi hr => getElem?_flightFrame s k hi hr⟩

/-- Settles O47: the release in HW_RESET ends in SETTLING, where the line is deasserted. -/
theorem resetReleased : Obligations.ResetReleased := by
  refine fun s hl => ⟨fun hp => ?_, fun hp => exec_of_no_effect hl (if_neg hp)⟩
  have heffect : effect .rstRelease s = { s with phase := .settling } := if_pos hp
  rw [exec_of_leaves_ready hl (by simp [heffect]), heffect]

end Sys2Proof.Proofs
